-- ==== Sys2Proof/Word.lean ====
section
/-!
DEFINITION. The words of the letux-400 ECC core (spec/00_scope.md R15): bytes, 32-bit words and 5-bit symbols.
All values are unsigned; bit 0 is the least significant bit.
-/

namespace Sys2Proof

/-- A byte: 8 bits (R15). -/
abbrev Byte := BitVec 8

/-- A command word, a register or the value of a host access: 32 bits (R25, R26, R63). -/
abbrev Word := BitVec 32

/-- A symbol: 5 bits, an element of GF(32) (R104, R200). -/
abbrev Sym := BitVec 5

end Sys2Proof
end

