-- ==== Sys2Proof/Config.lean ====
section
/-!
DEFINITION. The construction-time parameters of the core (spec/00_scope.md R11) and the model's free values.
A parameter set is plain data: State carries one, no step changes it (R23), and every claim quantifies over it.
-/

namespace Sys2Proof

/-- `OTHER_VARIANT` (R13): which codec serves the small-region slot. -/
inductive Variant where
  | hamming
  | rs
  deriving DecidableEq, Repr

/-- `RS_PACK_ORDER` (R11, R190). -/
inductive PackOrder where
  | lsbFirst
  | msbFirst
  deriving DecidableEq, Repr

/-- The construction-time parameters of R11. -/
structure Params where
  /-- `SWAP_COMPAT` (R12). -/
  swapCompat : Bool
  /-- `OTHER_VARIANT` (R13). -/
  otherVariant : Variant
  /-- `W`, the line-parity width in bits (R14). -/
  w : Nat
  /-- `NMAX`, the size of DATA in bytes (R29). -/
  nmax : Nat
  /-- `RS_PACK_ORDER` (R190). -/
  packOrder : PackOrder
  /-- `ECC_BASE`, the platform address of the host window: OPEN (R62); no rule depends on its value. -/
  eccBase : Nat
  deriving DecidableEq, Repr

/-- The legal values of R11. -/
def Params.wf (p : Params) : Bool :=
  decide (1 ≤ p.w) && decide (p.w ≤ 32) && decide (256 ≤ p.nmax) && decide (p.nmax ≤ 4096)

/-- The default column of R11.
DESIGN CHOICE (log 3): `ECC_BASE` is OPEN in the spec; 0 stands for it and nothing reads it. -/
def Params.default : Params where
  swapCompat := false
  otherVariant := .hamming
  w := 32
  nmax := 256
  packOrder := .lsbFirst
  eccBase := 0

/-- FREE VALUE (log 5): the bits that a partial host write leaves in an element nothing has written before (R40, R66).
It is applied to the state's counter `freeCount`. -/
opaque Config.freeBits : Nat → Word

/-- FREE VALUE (log 6): which of several unwritten elements a fault names
(spec/93_implementation_defined.md U2, any value among them). It is applied to `freeCount`. -/
opaque Config.freeIndex : Nat → Nat

end Sys2Proof
end

