-- ==== Sys2Proof/Syntax.lean ====
section
/-!
DEFINITION. The commands of the core, one constructor per row of spec/opcode_table.json (spec/30_encoding.md R91).
LEN is the only operand (R92): an unsigned 16-bit immediate of the two variable-length commands.
-/

namespace Sys2Proof

/-- A command (R91). -/
inductive Instr where
  /-- CALC256: fixed-block check value of DATA[0..255] into TECC (R132). -/
  | calc256
  /-- CORR256: check and correct DATA[0..255] against RECC (R139). -/
  | corr256
  /-- CALCN n: variable-length check value of DATA[0..n−1] into TOTH (R161). -/
  | calcn (n : BitVec 16)
  /-- CORRN n: check and correct DATA[0..n−1] against ROTH (R166). -/
  | corrn (n : BitVec 16)
  /-- CALCRS: Reed–Solomon parity of DATA[0..15] into TPAR (R206). -/
  | calcrs
  /-- CORRRS: check and correct DATA[0..15] and RPAR against TPAR (R212). -/
  | corrrs
  /-- PACK: DATA[0..15] into SYM[0..25] (R192). -/
  | pack
  /-- UNPACK: SYM[0..25] into DATA[0..15] (R193). -/
  | unpack
  deriving DecidableEq, Repr

end Sys2Proof
end

