-- ==== Sys2Proof/Decode.lean ====
section
/-!
DEFINITION. Decoding a command word, total on every 32-bit word and refusing by name (spec/30_encoding.md R90 to R97),
and the encoder. The checks of R97 that look at the word alone are in `decodeWord`; the checks that look at the build
are in `buildRefusal`. R97: every refusal gives the same STATUS, so the order of the checks cannot be observed.
-/

namespace Sys2Proof

/-- Why a command word is refused (R97). -/
inductive Reject where
  /-- OP is 0x0 or 0x9 to 0xF (R94). -/
  | reservedOp
  /-- RSV ≠ 0 (R93). -/
  | reservedBits
  /-- LEN ≠ 0 with an OP other than CALCN and CORRN (R93). -/
  | lenNotAllowed
  /-- The OP belongs to the other `OTHER_VARIANT` (R95). -/
  | otherBuild
  /-- CALCN or CORRN with n > NMAX or n > 2^W (R96). -/
  | lenTooLong
  deriving DecidableEq, Repr

/-- OP, bits 3:0 (R90). -/
def opField (w : Word) : BitVec 4 := w.extractLsb' 0 4

/-- RSV, bits 15:4 (R90). -/
def rsvField (w : Word) : BitVec 12 := w.extractLsb' 4 12

/-- LEN, bits 31:16 (R90, R92). -/
def lenField (w : Word) : BitVec 16 := w.extractLsb' 16 16

/-- The OP value of each command (R91). -/
def Instr.opcode : Instr → BitVec 4
  | .calc256 => 0x1#4
  | .corr256 => 0x2#4
  | .calcn _ => 0x3#4
  | .corrn _ => 0x4#4
  | .calcrs => 0x5#4
  | .corrrs => 0x6#4
  | .pack => 0x7#4
  | .unpack => 0x8#4

/-- A command without an operand is refused when LEN ≠ 0 (R93). -/
def noLen (w : Word) (i : Instr) : Except Reject Instr :=
  if lenField w = 0#16 then .ok i else .error .lenNotAllowed

/-- The command that OP selects, with its operand (R91). -/
def decodeOp (w : Word) : Except Reject Instr :=
  if opField w = 0x1#4 then noLen w .calc256
  else if opField w = 0x2#4 then noLen w .corr256
  else if opField w = 0x3#4 then .ok (.calcn (lenField w))
  else if opField w = 0x4#4 then .ok (.corrn (lenField w))
  else if opField w = 0x5#4 then noLen w .calcrs
  else if opField w = 0x6#4 then noLen w .corrrs
  else if opField w = 0x7#4 then noLen w .pack
  else if opField w = 0x8#4 then noLen w .unpack
  else .error .reservedOp

/-- Decoding a command word: the checks of R97 that look at the word alone. No mode or parameter changes it (R90). -/
def decodeWord (w : Word) : Except Reject Instr :=
  if opField w = 0x0#4 ∨ 0x9#4 ≤ opField w then .error .reservedOp
  else if rsvField w ≠ 0#12 then .error .reservedBits
  else decodeOp w

/-- A variable-length command is refused in the other build and when its region is too long (R95, R96). -/
def varLenRefusal (p : Params) (n : BitVec 16) : Option Reject :=
  if p.otherVariant ≠ .hamming then some .otherBuild
  else if p.nmax < n.toNat ∨ 2 ^ p.w < n.toNat then some .lenTooLong
  else none

/-- A Reed–Solomon or packing command is refused in the other build (R95). -/
def rsRefusal (p : Params) : Option Reject :=
  if p.otherVariant ≠ .rs then some .otherBuild else none

/-- The checks of R97 that look at the build's parameters. -/
def buildRefusal (p : Params) : Instr → Option Reject
  | .calc256 => none
  | .corr256 => none
  | .calcn n => varLenRefusal p n
  | .corrn n => varLenRefusal p n
  | .calcrs => rsRefusal p
  | .corrrs => rsRefusal p
  | .pack => rsRefusal p
  | .unpack => rsRefusal p

/-- The LEN field of a command's word (R90, R91). -/
def Instr.lenOf : Instr → BitVec 16
  | .calc256 => 0#16
  | .corr256 => 0#16
  | .calcn n => n
  | .corrn n => n
  | .calcrs => 0#16
  | .corrrs => 0#16
  | .pack => 0#16
  | .unpack => 0#16

/-- The command word of a command: LEN, RSV = 0, OP (R90, R91). -/
def encode (i : Instr) : Word := i.lenOf ++ 0#12 ++ i.opcode

/-- A word as spec/opcode_table.json numbers its bits; the bits above `nbits` are 0. Every command word is exactly one
32-bit word (R90), written to CMD by one 32-bit access (R65), so no byte order enters here. -/
def tableWord (nbits w : Nat) : Word := BitVec.ofNat 32 (w % 2 ^ nbits)

/-- What the decoder reads from a word of the opcode table. -/
def decodeTableWord (nbits w : Nat) : Option Instr := (decodeWord (tableWord nbits w)).toOption

end Sys2Proof
end

