-- ==== Sys2Proof/Machine/State.lean ====
section
/-!
DEFINITION. The state of the core as plain data (spec/10_state.md R20 to R43): every register and buffer with its
written flag (R41), the build's parameters (R23), and the host's side of the port. CONFIG is a view of the parameters
(R24) and COLTAB is a constant (R38), so neither is a field. The core has no program counter (R22), no modes and no
exception registers (R248, R251).
-/

namespace Sys2Proof.Machine

/-- One storage element narrower than or as wide as its slot: its bits and its written flag (R41). -/
structure Elem (w : Nat) where
  val : BitVec w
  written : Bool
  deriving DecidableEq, Repr

/-- The fields of a variable-length check value (R32, R33). -/
inductive VarField where
  | col
  | lp
  | lpp
  deriving DecidableEq, Repr

/-- A variable-length check value {COL, LP, LPP} (R32, R33). LP and LPP hold `W` bits, zero-extended to their slot (R37). -/
structure VarCheck where
  col : Elem 6
  lp : Elem 32
  lpp : Elem 32
  deriving DecidableEq, Repr

/-- The name of a storage element with a written flag (R41); the fault of R245 names one. -/
inductive ElemName where
  | data (i : Nat)
  | recc (j : Fin 3)
  | tecc (j : Fin 3)
  | roth (f : VarField)
  | toth (f : VarField)
  | rpar (j : Fin 4)
  | tpar (j : Fin 4)
  | sym (k : Fin 26)
  deriving DecidableEq, Repr

/-- The written bytes of DATA as (index, byte) pairs in rising order of index. An index that is not listed is a byte
that nothing has written: its written flag is clear and it reads as no value (R40, R41). -/
abbrev Memory := List Host.Cell

/-- The canonical form of a memory: indices strictly rising. No entry can equal what an unlisted index reads as, since
that is no value. -/
def Memory.wf (m : Memory) : Bool := decide (List.Pairwise (fun x y : Host.Cell => x.1 < y.1) m)

/-- What reaches the core from outside: a host access (R63), which reads or writes `n` bytes at a 13-bit offset `a` of the
host window (R60), or a platform reset (R270). The low `8·n` bits of a write's value are the bytes written. Widths other
than 1, 2 and 4 can be asked for and are refused (R64; log 15). -/
inductive HostOp where
  | read (a : BitVec 13) (n : Nat)
  | write (a : BitVec 13) (n : Nat) (v : Word)
  | platformReset
  deriving DecidableEq, Repr

/-- What the host port answered to the last access (R66, R244). -/
inductive BusResp where
  /-- No access since reset. -/
  | idle
  /-- An accepted read of `n` bytes returned `v`. -/
  | value (n : Nat) (v : Word)
  /-- A write was accepted. -/
  | wrote
  /-- The access was refused with `BUS_ERROR` (R244). -/
  | busError
  deriving DecidableEq, Repr

/-- The state of the core and of its host port. -/
structure State where
  /-- The construction-time parameters (R11, R23). -/
  params : Params
  /-- CMD (R25). -/
  cmd : Word
  /-- STATUS (R26). -/
  status : Word
  /-- DATA (R29). -/
  data : Memory
  /-- RECC[0..2] (R30). -/
  recc : Vector (Elem 8) 3
  /-- TECC[0..2] (R31). -/
  tecc : Vector (Elem 8) 3
  /-- ROTH (R32). -/
  roth : VarCheck
  /-- TOTH (R33). -/
  toth : VarCheck
  /-- RPAR[0..3] (R34). -/
  rpar : Vector (Elem 5) 4
  /-- TPAR[0..3] (R35). -/
  tpar : Vector (Elem 5) 4
  /-- SYM[0..25] (R36). -/
  sym : Vector (Elem 5) 26
  /-- MODEL'S OWN (log 1): the host's accesses and platform resets still to come, in the one total order of R73. -/
  host : List HostOp
  /-- MODEL'S OWN (log 1): the answer to the last host access, the result R244 asks a model to report. -/
  resp : BusResp
  /-- MODEL'S OWN (log 5): the counter that the free values are applied to. -/
  freeCount : Nat
  deriving DecidableEq, Repr

/-- Why the machine stops. -/
inductive Fault where
  /-- `UNINIT_READ(name)` (R245): raised by a host read or an accepted command that would read an element whose written
  flag is clear. Final; nothing is written. Safe: the chip returns some value, the model returns none (R41). -/
  | uninitRead (name : ElemName)
  deriving DecidableEq, Repr

/-- An instruction without a meaning. -/
inductive Refusal where
  /-- Raised only by an arm of `exec` whose command has no meaning yet. Safe. No arm of this model raises it. -/
  | notModelled (mnemonic : String)
  deriving DecidableEq, Repr

/-- The outcome of a step or a command. -/
abbrev Out := Host.Outcome State Fault Refusal

/-- An element after reset: its written flag is clear (R41).
DESIGN CHOICE (log 4): R40 leaves its value unspecified; 0 stands for it, and no read can return it. -/
def Elem.unwritten (w : Nat) : Elem w where
  val := 0#w
  written := false

/-- A check value after reset (R40). -/
def VarCheck.unwritten : VarCheck where
  col := Elem.unwritten 6
  lp := Elem.unwritten 32
  lpp := Elem.unwritten 32

/-- The state after reset of a core built with the parameters `p` (R40, R270): CMD and STATUS are 0, every written flag
is clear. -/
def State.resetWith (p : Params) : State where
  params := p
  cmd := 0#32
  status := 0#32
  data := []
  recc := Vector.replicate 3 (Elem.unwritten 8)
  tecc := Vector.replicate 3 (Elem.unwritten 8)
  roth := VarCheck.unwritten
  toth := VarCheck.unwritten
  rpar := Vector.replicate 4 (Elem.unwritten 5)
  tpar := Vector.replicate 4 (Elem.unwritten 5)
  sym := Vector.replicate 26 (Elem.unwritten 5)
  host := []
  resp := .idle
  freeCount := 0

/-- The state after reset of the default build (R11, R40). -/
def State.reset : State := State.resetWith Params.default

end Sys2Proof.Machine
end

