-- ==== Sys2Proof/Machine/Ops.lean ====
section
/-!
DEFINITION. The operations every command and host access is built from: reading and writing one storage element with
its written flag (spec/10_state.md R37, R41), the check of written flags before any write (spec/60_exceptions.md R245),
and the two refusals of R242. The core has no trap entry and no trap return (R248, R249): these three events are all.
-/

namespace Sys2Proof.Machine

/-- The low `w` bits of a word, the rest 0 (R37). -/
def keepLow (w : Nat) (v : Word) : Word := (v.setWidth w).setWidth 32

/-! ## DATA -/

/-- Byte `i` of DATA, or no value where nothing has written it (R41). -/
def Memory.read : Memory → Nat → Option Byte
  | [], _ => none
  | (j, v) :: rest, i => if j = i then some v else Memory.read rest i

/-- DATA with byte `i` written; the list stays rising. -/
def Memory.write : Memory → Nat → Byte → Memory
  | [], i, v => [(i, v)]
  | (j, u) :: rest, i, v =>
    if i < j then (i, v) :: (j, u) :: rest
    else if i = j then (i, v) :: rest
    else (j, u) :: Memory.write rest i v

/-! ## Storage elements -/

/-- A written element (R41). -/
def Elem.of {w : Nat} (v : BitVec w) : Elem w where
  val := v
  written := true

/-- A field of a check value, zero-extended. -/
def VarCheck.get (c : VarCheck) : VarField → Word
  | .col => c.col.val.setWidth 32
  | .lp => c.lp.val
  | .lpp => c.lpp.val

/-- The written flag of a field of a check value. -/
def VarCheck.written (c : VarCheck) : VarField → Bool
  | .col => c.col.written
  | .lp => c.lp.written
  | .lpp => c.lpp.written

/-- A check value with one field written: COL keeps 6 bits, LP and LPP keep `w` bits (R32, R37). -/
def VarCheck.put (w : Nat) (c : VarCheck) (f : VarField) (v : Word) : VarCheck :=
  match f with
  | .col => { c with col := Elem.of (v.setWidth 6) }
  | .lp => { c with lp := Elem.of (keepLow w v) }
  | .lpp => { c with lpp := Elem.of (keepLow w v) }

/-- The width in bits of an element (R29 to R36). -/
def ElemName.width (p : Params) : ElemName → Nat
  | .data _ => 8
  | .recc _ => 8
  | .tecc _ => 8
  | .roth .col => 6
  | .roth .lp => p.w
  | .roth .lpp => p.w
  | .toth .col => 6
  | .toth .lp => p.w
  | .toth .lpp => p.w
  | .rpar _ => 5
  | .tpar _ => 5
  | .sym _ => 5

/-- The current bits of an element, zero-extended (R37: the bits above its width read as 0). -/
def State.get (s : State) : ElemName → Word
  | .data i => ((s.data.read i).getD 0#8).setWidth 32
  | .recc j => s.recc[j].val.setWidth 32
  | .tecc j => s.tecc[j].val.setWidth 32
  | .roth f => s.roth.get f
  | .toth f => s.toth.get f
  | .rpar j => s.rpar[j].val.setWidth 32
  | .tpar j => s.tpar[j].val.setWidth 32
  | .sym k => s.sym[k].val.setWidth 32

/-- The written flag of an element (R41). -/
def State.written (s : State) : ElemName → Bool
  | .data i => (s.data.read i).isSome
  | .recc j => s.recc[j].written
  | .tecc j => s.tecc[j].written
  | .roth f => s.roth.written f
  | .toth f => s.toth.written f
  | .rpar j => s.rpar[j].written
  | .tpar j => s.tpar[j].written
  | .sym k => s.sym[k].written

/-- `NAME <- v` (R17): the element keeps the low bits of `v` (R37) and its written flag is set (R41). -/
def State.put (s : State) (e : ElemName) (v : Word) : State :=
  match e with
  | .data i => { s with data := s.data.write i (v.setWidth 8) }
  | .recc j => { s with recc := s.recc.set j (Elem.of (v.setWidth 8)) }
  | .tecc j => { s with tecc := s.tecc.set j (Elem.of (v.setWidth 8)) }
  | .roth f => { s with roth := s.roth.put s.params.w f v }
  | .toth f => { s with toth := s.toth.put s.params.w f v }
  | .rpar j => { s with rpar := s.rpar.set j (Elem.of (v.setWidth 5)) }
  | .tpar j => { s with tpar := s.tpar.set j (Elem.of (v.setWidth 5)) }
  | .sym k => { s with sym := s.sym.set k (Elem.of (v.setWidth 5)) }

/-- Several writes, in order (R18). -/
def State.putAll (s : State) : List (ElemName × Word) → State
  | [] => s
  | (e, v) :: rest => (s.put e v).putAll rest

/-- `STATUS <- v` (R28). -/
def State.setStatus (s : State) (v : Word) : State := { s with status := v }

/-- `CMD <- v` (R25). -/
def State.setCmd (s : State) (v : Word) : State := { s with cmd := v }

/-- What the host port answers (R66, R244). -/
def State.setResp (s : State) (r : BusResp) : State := { s with resp := r }

/-- The host's accesses still to come (R73). -/
def State.setHost (s : State) (h : List HostOp) : State := { s with host := h }

/-- A platform reset of the core (R270): the state of R40 with every written flag clear; the parameters do not change.
The host's accesses still to come stay, and the free values' counter goes on, so that no free value is used twice
(log 11). -/
def State.platformReset (s : State) : State :=
  { State.resetWith s.params with host := s.host, freeCount := s.freeCount }

/-- The free values' counter moves on (log 5). -/
def State.tick (s : State) : State := { s with freeCount := s.freeCount + 1 }

/-! ## Reading only what is written -/

/-- The elements among `es` whose written flag is clear. -/
def State.unwrittenOf (s : State) (es : List ElemName) : List ElemName := es.filter (fun e => !s.written e)

/-- `UNINIT_READ` (R245) over a list of unwritten elements: the fault names one of them, and which one is a free value
(spec/93_implementation_defined.md U2; log 6). -/
def uninitRead (count : Nat) (e : ElemName) (rest : List ElemName) : Out :=
  .fault (.uninitRead ((e :: rest).getD (Config.freeIndex count % (rest.length + 1)) e))

/-- Go on with `k` if every element of `es` has been written; fault otherwise, with nothing written (R41, R245). -/
def guardReads (es : List ElemName) (s : State) (k : Out) : Out :=
  match s.unwrittenOf es with
  | [] => k
  | e :: rest => uninitRead s.freeCount e rest

/-- The end of an accepted command: its outputs are written, then all of STATUS (R28). -/
def complete (ws : List (ElemName × Word)) (status : Word) (s : State) : Out :=
  .next ((s.putAll ws).setStatus status)

/-! ## The refusals -/

/-- The STATUS of a refused command word: `0x00000100 | (w[3:0] << 12)` (R243). -/
def illegalStatus (op : BitVec 4) : Word := 0x00000100#32 ||| (op.setWidth 32 <<< 12)

/-- `ILLEGAL_CMD` (R243): STATUS is written and nothing else (CMD was stored by the host's write, R25). -/
def illegalCmd (op : BitVec 4) (s : State) : State := s.setStatus (illegalStatus op)

/-- `BUS_ERROR` (R244): the access is not performed; the host port says so and no state of the core changes. -/
def busError (s : State) : State := s.setResp .busError

/-- A command runs only where the build admits it (R95, R96); elsewhere its word is refused (R243).
DEDUCED (log 9): R97 lets the order of its checks go unobserved. -/
def ifAdmitted (i : Instr) (s : State) (k : Out) : Out :=
  match buildRefusal s.params i with
  | none => k
  | some _ => .next (illegalCmd i.opcode s)

end Sys2Proof.Machine
end

