-- ==== Sys2Proof/Machine/Flags.lean ====
section
/-!
DEFINITION. STATUS and CONFIG: their layouts and every flag computation of the spec (spec/10_state.md R24, R26 to R28).
The only flags of the core are the STATUS fields (R43).
-/

namespace Sys2Proof.Machine

/-- The three outcomes of a correct command (R19). -/
inductive Result where
  | clean
  | corrected
  | uncorrectable
  deriving DecidableEq, Repr

/-- STATUS.RESULT (R27); 0b10 is never produced. -/
def Result.code : Result → BitVec 2
  | .clean => 0b00#2
  | .corrected => 0b01#2
  | .uncorrectable => 0b11#2

/-- STATUS after an accepted command (R26, R28): the fields from bit 31 down to bit 0. ILLEGAL is 0. -/
def statusWord (op : BitVec 4) (count : BitVec 2) (chkfix datafix : Bool) (r : Result) : Word :=
  0#16 ++ op ++ 0#3 ++ 0#1 ++ 0#2 ++ count ++ BitVec.ofBool chkfix ++ BitVec.ofBool datafix ++ r.code

/-- STATUS after an accepted command that is not a correct command (R28, first row). -/
def statusDone (i : Instr) : Word := statusWord i.opcode 0#2 false false .clean

/-- STATUS.RESULT, bits 1:0 (R26). -/
def statusResult (st : Word) : BitVec 2 := st.extractLsb' 0 2

/-- STATUS.DATAFIX, bit 2 (R26). -/
def statusDatafix (st : Word) : Bool := st.getLsbD 2

/-- STATUS.CHKFIX, bit 3 (R26). -/
def statusChkfix (st : Word) : Bool := st.getLsbD 3

/-- STATUS.RSCOUNT, bits 5:4 (R26). -/
def statusRscount (st : Word) : BitVec 2 := st.extractLsb' 4 2

/-- STATUS.ILLEGAL, bit 8 (R26). -/
def statusIllegal (st : Word) : Bool := st.getLsbD 8

/-- STATUS.LASTOP, bits 15:12 (R26). -/
def statusLastop (st : Word) : BitVec 4 := st.extractLsb' 12 4

/-- CONFIG (R24): the fields from bit 31 down to bit 0. -/
def configWord (p : Params) : Word :=
  0#3 ++ BitVec.ofNat 13 p.nmax ++ 0#2 ++ BitVec.ofNat 6 p.w ++ 0#5
    ++ BitVec.ofBool (p.packOrder == .msbFirst) ++ BitVec.ofBool (p.otherVariant == .rs) ++ BitVec.ofBool p.swapCompat

end Sys2Proof.Machine
end

