-- ==== Sys2Proof/Machine/Operands.lean ====
section
/-!
DEFINITION. The implicit operands of the commands (spec/30_encoding.md R92, spec/10_state.md R42): the elements each
family reads, and their current values. No command has a register or address operand; LEN is the only immediate.
-/

namespace Sys2Proof.Machine

/-- DATA[0..n−1] (R29). -/
def dataNames (n : Nat) : List ElemName := (List.range n).map .data

/-- RECC[0..2] (R30). -/
def reccNames : List ElemName := [.recc 0, .recc 1, .recc 2]

/-- TECC[0..2] (R31). -/
def teccNames : List ElemName := [.tecc 0, .tecc 1, .tecc 2]

/-- All of ROTH (R32). -/
def rothNames : List ElemName := [.roth .col, .roth .lp, .roth .lpp]

/-- All of TOTH (R33). -/
def tothNames : List ElemName := [.toth .col, .toth .lp, .toth .lpp]

/-- RPAR[0..3] (R34). -/
def rparNames : List ElemName := [.rpar 0, .rpar 1, .rpar 2, .rpar 3]

/-- TPAR[0..3] (R35). -/
def tparNames : List ElemName := [.tpar 0, .tpar 1, .tpar 2, .tpar 3]

/-- SYM[0..25] (R36). -/
def symNames : List ElemName := (List.range 26).map (fun k => .sym (Fin.ofNat 26 k))

/-- DATA[i] as a byte. -/
def State.dataByte (s : State) (i : Nat) : Byte := (s.get (.data i)).setWidth 8

/-- DATA[0..n−1] as a list of bytes (R69). -/
def State.dataBytes (s : State) (n : Nat) : List Byte := (List.range n).map s.dataByte

/-- RECC[j] as a byte. -/
def State.reccByte (s : State) (j : Fin 3) : Byte := (s.get (.recc j)).setWidth 8

/-- TECC[j] as a byte. -/
def State.teccByte (s : State) (j : Fin 3) : Byte := (s.get (.tecc j)).setWidth 8

/-- RPAR[j] as a symbol. -/
def State.rparSym (s : State) (j : Fin 4) : Sym := (s.get (.rpar j)).setWidth 5

/-- TPAR[j] as a symbol. -/
def State.tparSym (s : State) (j : Fin 4) : Sym := (s.get (.tpar j)).setWidth 5

/-- SYM[k] as a symbol. -/
def State.symAt (s : State) (k : Nat) : Sym := (s.get (.sym (Fin.ofNat 26 k))).setWidth 5

/-- Writes of the bytes `f 0 … f (n−1)` to DATA[0..n−1]. -/
def dataWrites (n : Nat) (f : Nat → Byte) : List (ElemName × Word) :=
  (List.range n).map (fun i => (.data i, (f i).setWidth 32))

/-- Writes of the symbols `f 0 … f 25` to SYM[0..25]. -/
def symWrites (f : Nat → Sym) : List (ElemName × Word) :=
  (List.range 26).map (fun k => (.sym (Fin.ofNat 26 k), (f k).setWidth 32))

end Sys2Proof.Machine
end

