-- ==== Sys2Proof/Machine/ColumnParity.lean ====
section
/-!
DEFINITION. The column-parity ROM COLTAB (spec/40_column_parity_rom.md R120, R122, R123): constant from construction,
so a definition and no field of State (spec/10_state.md R38).
-/

namespace Sys2Proof.Machine

/-- `par(x) = popcount(x) & 1` of a byte (R120). -/
def par (b : Byte) : Bool :=
  b.getLsbD 0 ^^ b.getLsbD 1 ^^ b.getLsbD 2 ^^ b.getLsbD 3 ^^ b.getLsbD 4 ^^ b.getLsbD 5 ^^ b.getLsbD 6 ^^ b.getLsbD 7

/-- COLTAB[b] (R120): CP5 … CP0 in bits 7 … 2, 0 in bit 1, the byte's own parity in bit 0. PRESUMED by the spec (log 14). -/
def colTab (b : Byte) : Byte :=
  BitVec.ofBool (par (b &&& 0xF0#8)) ++ BitVec.ofBool (par (b &&& 0x0F#8)) ++ BitVec.ofBool (par (b &&& 0xCC#8))
    ++ BitVec.ofBool (par (b &&& 0x33#8)) ++ BitVec.ofBool (par (b &&& 0xAA#8)) ++ BitVec.ofBool (par (b &&& 0x55#8))
    ++ 0#1 ++ BitVec.ofBool (par b)

/-- The accumulators of R130 and R160: the raw column parity and the two line parities, `w` bits wide. -/
structure Acc (w : Nat) where
  col : Byte
  lp : BitVec w
  lpp : BitVec w
  deriving DecidableEq, Repr

/-- One byte at index `i` folded into the accumulators (R130, R160): its table entry goes into the column parity and,
where the entry's bit 0 is set, `i` into `lp` and the `w`-bit complement of `i` into `lpp`. -/
def Acc.add {w : Nat} (i : Nat) (b : Byte) (r : Acc w) : Acc w where
  col := r.col ^^^ colTab b
  lp := if (colTab b).getLsbD 0 then r.lp ^^^ BitVec.ofNat w i else r.lp
  lpp := if (colTab b).getLsbD 0 then r.lpp ^^^ ~~~(BitVec.ofNat w i) else r.lpp

/-- The accumulation over bytes whose first has index `i` (R130, R160). DEDUCED (log 10): XOR commutes, so the order of
the bytes does not matter. -/
def accFrom (w : Nat) : Nat → List Byte → Acc w
  | _, [] => { col := 0#8, lp := 0#w, lpp := 0#w }
  | i, b :: rest => (accFrom w (i + 1) rest).add i b

/-- ACC256 with `w = 8` (R130) and, but for the column shift, ACCN with `w = W` (R160). -/
def acc (w : Nat) (data : List Byte) : Acc w := accFrom w 0 data

/-- The number of 1 bits (R16). -/
def popcount {w : Nat} (v : BitVec w) : Nat := (List.range w).countP v.getLsbD

/-- What a Hamming correct command finds in its deltas. -/
inductive Verdict where
  /-- No delta (R134, R163). -/
  | clean
  /-- A data-error signature at bit `bit` of byte `byte` (R136, R164). -/
  | dataBit (byte : Nat) (bit : BitVec 3)
  /-- One wrong bit in the read value (R137, R165). -/
  | checkBit
  /-- None of these, or a byte outside the region (R138, R164, R167). -/
  | uncorrectable
  deriving DecidableEq, Repr

/-- DATA[byte] with bit `bit` flipped (R15, R136, R164). -/
def flipWrite (s : State) (byte : Nat) (bit : BitVec 3) : ElemName × Word :=
  (.data byte, (s.dataByte byte ^^^ (1#8 <<< bit.toNat)).setWidth 32)

/-- The end of CORR256 and CORRN (R139, R166): the data bit is flipped, or the read value is replaced by `replace`, or
nothing but STATUS is written. The data path reads DATA[byte], which must be written (R245). -/
def finishCorrect (i : Instr) (replace : List (ElemName × Word)) (v : Verdict) (s : State) : Out :=
  match v with
  | .clean => complete [] (statusWord i.opcode 0#2 false false .clean) s
  | .dataBit byte bit =>
    guardReads [.data byte] s
      (complete [flipWrite s byte bit] (statusWord i.opcode 0#2 false true .corrected) s)
  | .checkBit => complete replace (statusWord i.opcode 0#2 true false .corrected) s
  | .uncorrectable => complete [] (statusWord i.opcode 0#2 false false .uncorrectable) s

end Sys2Proof.Machine
end

