-- ==== Sys2Proof/Machine/FixedHamming.lean ====
section
/-!
DEFINITION. The fixed-block Hamming commands CALC256 and CORR256 (spec/41_fixed_hamming.md R130 to R139).
-/

namespace Sys2Proof.Machine

/-- The 3-byte fixed-block check value. -/
structure Ecc where
  e0 : Byte
  e1 : Byte
  e2 : Byte
  deriving DecidableEq, Repr

/-- One byte of the interleave (R131): the pairs of bits `k+3 … k` of `lp` and `lpp`, the `lp` bit above.
PRESUMED by the spec (log 14). -/
def interleave (lp lpp : BitVec 8) (k : Nat) : Byte :=
  BitVec.ofBool (lp.getLsbD (k + 3)) ++ BitVec.ofBool (lpp.getLsbD (k + 3))
    ++ BitVec.ofBool (lp.getLsbD (k + 2)) ++ BitVec.ofBool (lpp.getLsbD (k + 2))
    ++ BitVec.ofBool (lp.getLsbD (k + 1)) ++ BitVec.ofBool (lpp.getLsbD (k + 1))
    ++ BitVec.ofBool (lp.getLsbD k) ++ BitVec.ofBool (lpp.getLsbD k)

/-- Exchange bytes 0 and 1 when `SWAP_COMPAT` is true (R101, R131). -/
def Ecc.swapIf (swap : Bool) (e : Ecc) : Ecc :=
  if swap then { e0 := e.e1, e1 := e.e0, e2 := e.e2 } else e

/-- PACK3 (R131). -/
def pack3 (r : Acc 8) (swap : Bool) : Ecc :=
  Ecc.swapIf swap
    { e0 := ~~~(interleave r.lp r.lpp 0)
      e1 := ~~~(interleave r.lp r.lpp 4)
      e2 := ~~~r.col ||| 0x03#8 }

/-- The check value of a 256-byte block: PACK3 of ACC256 (R130, R131). -/
def ecc256 (data : List Byte) (swap : Bool) : Ecc := pack3 (acc 8 data) swap

/-- What CALC256 writes to TECC (R132). -/
def calc256Writes (s : State) : List (ElemName × Word) :=
  let e := ecc256 (s.dataBytes 256) s.params.swapCompat
  [(.tecc 0, e.e0.setWidth 32), (.tecc 1, e.e1.setWidth 32), (.tecc 2, e.e2.setWidth 32)]

/-- CALC256 (R132). -/
def execCalc256 (s : State) : Out :=
  ifAdmitted .calc256 s (guardReads (dataNames 256) s (complete (calc256Writes s) (statusDone .calc256) s))

/-- One part of the signature test (R135): every pair that `mask` selects differs. -/
def pairsDiffer {w : Nat} (d mask : BitVec w) : Bool := ((d ^^^ (d >>> 1)) &&& mask) == mask

/-- SIG256 (R135). -/
def sig256 (d : Ecc) : Bool :=
  pairsDiffer d.e0 0x55#8 && pairsDiffer d.e1 0x55#8 && pairsDiffer d.e2 0x54#8

/-- The four `lp` bits of a delta byte, bits 7, 5, 3, 1 (R136). -/
def lpBits (d : Byte) : BitVec 4 :=
  BitVec.ofBool (d.getLsbD 7) ++ BitVec.ofBool (d.getLsbD 5) ++ BitVec.ofBool (d.getLsbD 3) ++ BitVec.ofBool (d.getLsbD 1)

/-- The byte offset decoded from the unswapped deltas (R136). -/
def byteOffset (d : Ecc) : BitVec 8 := lpBits d.e1 ++ lpBits d.e0

/-- The bit offset decoded from d2 (R136). -/
def bitOffset (d : Ecc) : BitVec 3 :=
  BitVec.ofBool (d.e2.getLsbD 7) ++ BitVec.ofBool (d.e2.getLsbD 5) ++ BitVec.ofBool (d.e2.getLsbD 3)

/-- The deltas of R133. -/
def State.deltas256 (s : State) : Ecc where
  e0 := s.reccByte 0 ^^^ s.teccByte 0
  e1 := s.reccByte 1 ^^^ s.teccByte 1
  e2 := s.reccByte 2 ^^^ s.teccByte 2

/-- The decision of R134 to R138, in their order. -/
def verdict256 (swap : Bool) (d : Ecc) : Verdict :=
  if d.e0 ||| d.e1 ||| d.e2 = 0#8 then .clean
  else if sig256 d then .dataBit (byteOffset (d.swapIf swap)).toNat (bitOffset d)
  else if popcount d.e0 + popcount d.e1 + popcount d.e2 = 1 then .checkBit
  else .uncorrectable

/-- `RECC[j] <- TECC[j]` (R137). -/
def corr256Replace (s : State) : List (ElemName × Word) :=
  [(.recc 0, s.get (.tecc 0)), (.recc 1, s.get (.tecc 1)), (.recc 2, s.get (.tecc 2))]

/-- What CORR256 finds in the state `s`. -/
def State.verdict256 (s : State) : Verdict := Machine.verdict256 s.params.swapCompat s.deltas256

/-- CORR256 (R139). -/
def execCorr256 (s : State) : Out :=
  ifAdmitted .corr256 s
    (guardReads (reccNames ++ teccNames) s (finishCorrect .corr256 (corr256Replace s) s.verdict256 s))

end Sys2Proof.Machine
end

