-- ==== Sys2Proof/Machine/Packing.lean ====
section
/-!
DEFINITION. Symbol packing and the commands PACK and UNPACK (spec/43_symbol_packing.md R190 to R193).
-/

namespace Sys2Proof.Machine

/-- The bit vector whose bit `k` is `f k`. -/
def ofBits : (n : Nat) → (Nat → Bool) → BitVec n
  | 0, _ => 0#0
  | n + 1, f => BitVec.cons (f n) (ofBits n f)

/-- The stream bit s[m] that PACKSYM forms from the bytes `d` (R190); s[128] and s[129] are the padding, 0. -/
def packStream (o : PackOrder) (d : Nat → Byte) (m : Nat) : Bool :=
  if 128 ≤ m then false
  else
    match o with
    | .lsbFirst => (d (m / 8)).getLsbD (m % 8)
    | .msbFirst => (d (m / 8)).getLsbD (7 - m % 8)

/-- PACKSYM, symbol `k` (R190). -/
def packSym (o : PackOrder) (d : Nat → Byte) (k : Nat) : Sym :=
  match o with
  | .lsbFirst => ofBits 5 (fun j => packStream o d (5 * k + j))
  | .msbFirst => ofBits 5 (fun j => packStream o d (5 * k + (4 - j)))

/-- The stream bit s[m] that UNPACKSYM reads from the symbols `y` (R191). -/
def unpackStream (o : PackOrder) (y : Nat → Sym) (m : Nat) : Bool :=
  match o with
  | .lsbFirst => (y (m / 5)).getLsbD (m % 5)
  | .msbFirst => (y (m / 5)).getLsbD (4 - m % 5)

/-- UNPACKSYM, byte `i` (R191); the padding bits s[128] and s[129] are never read. -/
def unpackSym (o : PackOrder) (y : Nat → Sym) (i : Nat) : Byte :=
  match o with
  | .lsbFirst => ofBits 8 (fun j => unpackStream o y (8 * i + j))
  | .msbFirst => ofBits 8 (fun j => unpackStream o y (8 * i + (7 - j)))

/-- PACKSYM(DATA[0..15]) at the build's packing order. -/
def State.packed (s : State) (k : Nat) : Sym := packSym s.params.packOrder s.dataByte k

/-- PACK (R192). -/
def execPack (s : State) : Out :=
  ifAdmitted .pack s (guardReads (dataNames 16) s (complete (symWrites s.packed) (statusDone .pack) s))

/-- UNPACK (R193). -/
def execUnpack (s : State) : Out :=
  ifAdmitted .unpack s
    (guardReads symNames s
      (complete (dataWrites 16 (unpackSym s.params.packOrder s.symAt)) (statusDone .unpack) s))

end Sys2Proof.Machine
end

