-- ==== Sys2Proof/Machine/GaloisField.lean ====
section
/-!
DEFINITION. The field GF(32) (spec/44_reed_solomon.md R200 to R203): polynomial basis modulo x^5 + x^2 + 1, α = 0x02.
Addition is bitwise XOR. The basis is PRESUMED by the spec (log 14).
-/

namespace Sys2Proof.Machine

/-- The product of a symbol with α = x: shift left by one, and XOR 0x25 whenever bit 5 becomes set (R201). -/
def gfShift (a : Sym) : Sym := (a <<< 1) ^^^ (if a.getLsbD 4 then 0x05#5 else 0x00#5)

/-- `a · x^k` where the bit is set, and 0 where it is not. -/
def gfTerm (bit : Bool) (a : Sym) : Sym := if bit then a else 0#5

/-- gf_mul (R200): the polynomial product of `a` and `b` reduced modulo x^5 + x^2 + 1. -/
def gfMul (a b : Sym) : Sym :=
  gfTerm (b.getLsbD 0) a ^^^ gfTerm (b.getLsbD 1) (gfShift a) ^^^ gfTerm (b.getLsbD 2) (gfShift (gfShift a))
    ^^^ gfTerm (b.getLsbD 3) (gfShift (gfShift (gfShift a)))
    ^^^ gfTerm (b.getLsbD 4) (gfShift (gfShift (gfShift (gfShift a))))

/-- EXP[k] = α^k for k = 0..30 (R201). -/
def gfExpTable : List Sym :=
  [1#5, 2#5, 4#5, 8#5, 16#5, 5#5, 10#5, 20#5, 13#5, 26#5, 17#5, 7#5, 14#5, 28#5, 29#5, 31#5,
    27#5, 19#5, 3#5, 6#5, 12#5, 24#5, 21#5, 15#5, 30#5, 25#5, 23#5, 11#5, 22#5, 9#5, 18#5]

/-- `alpha^k` = EXP[k mod 31] (R203). -/
def alphaPow (k : Nat) : Sym := gfExpTable.getD (k % 31) 0#5

/-- LOG[v], the k with EXP[k] = v, for v ≠ 0 (R201). No rule reads LOG[0]. -/
def gfLog (v : Sym) : Nat := gfExpTable.idxOf v

/-- gf_inv(a) = EXP[(31 − LOG[a]) mod 31] for a ≠ 0 (R202). No rule evaluates gf_inv(0). -/
def gfInv (a : Sym) : Sym := alphaPow (31 - gfLog a)

/-- gf_div(a, b) for b ≠ 0 (R202). No rule evaluates gf_div(a, 0). -/
def gfDiv (a b : Sym) : Sym := gfMul a (gfInv b)

end Sys2Proof.Machine
end

