-- ==== Sys2Proof/Machine/ReedSolomon.lean ====
section
/-!
DEFINITION. The Reed–Solomon commands CALCRS and CORRRS (spec/44_reed_solomon.md R204 to R212). The
codeword order and the decoder's formulas are PRESUMED by the spec (log 14).
-/

namespace Sys2Proof.Machine

/-- One step of the shift register of R205: g(x) = x^4 + 15·x^3 + 19·x^2 + 23·x + 10. -/
def rsShift (p : Vector Sym 4) (y : Sym) : Vector Sym 4 :=
  let fb := y ^^^ p[0]
  #v[p[1] ^^^ gfMul fb 15#5, p[2] ^^^ gfMul fb 19#5, p[3] ^^^ gfMul fb 23#5, gfMul fb 10#5]

/-- RSPARITY of the symbols in order (R205). -/
def rsParity (ys : List Sym) : Vector Sym 4 := ys.foldl rsShift #v[0#5, 0#5, 0#5, 0#5]

/-- The 26 data symbols of DATA[0..15] (R204). -/
def State.packedList (s : State) : List Sym := (List.range 26).map s.packed

/-- What CALCRS writes to TPAR (R206). -/
def calcrsWrites (s : State) : List (ElemName × Word) :=
  let p := rsParity s.packedList
  [(.tpar 0, p[0].setWidth 32), (.tpar 1, p[1].setWidth 32), (.tpar 2, p[2].setWidth 32), (.tpar 3, p[3].setWidth 32)]

/-- CALCRS (R206). -/
def execCalcrs (s : State) : Out :=
  ifAdmitted .calcrs s (guardReads (dataNames 16) s (complete (calcrsWrites s) (statusDone .calcrs) s))

/-- The parity delta Δ[j] = RPAR[j] ^ TPAR[j] (R207). -/
def State.parityDelta (s : State) (j : Fin 4) : Sym := s.rparSym j ^^^ s.tparSym j

/-- The four syndromes S[0..3]. -/
structure Syndromes where
  s0 : Sym
  s1 : Sym
  s2 : Sym
  s3 : Sym
  deriving DecidableEq, Repr

/-- S[i] of a parity delta: Σ_j Δ[j] · alpha^(i·(3−j)) (R207). -/
def syndromeAt (dl : Fin 4 → Sym) (i : Nat) : Sym :=
  gfMul (dl 0) (alphaPow (i * 3)) ^^^ gfMul (dl 1) (alphaPow (i * 2)) ^^^ gfMul (dl 2) (alphaPow i)
    ^^^ gfMul (dl 3) (alphaPow 0)

/-- The syndromes of a parity delta (R207). -/
def syndromes (dl : Fin 4 → Sym) : Syndromes where
  s0 := syndromeAt dl 0
  s1 := syndromeAt dl 1
  s2 := syndromeAt dl 2
  s3 := syndromeAt dl 3

/-- An error pattern: (degree, value) pairs in ascending degree (R208, R209). -/
abbrev Pattern := List (Nat × Sym)

/-- The test for one error of RSDECODE (R209): `some none` is the failure at the shortened position. -/
def decodeOne (s : Syndromes) : Option (Option Pattern) :=
  let x := gfDiv s.s1 s.s0
  if s.s0 ≠ 0#5 ∧ x ≠ 0#5 ∧ s.s2 = gfMul s.s1 x ∧ s.s3 = gfMul s.s2 x then
    if gfLog x < 30 then some (some [(gfLog x, s.s0)]) else some none
  else none

/-- The roots of RSDECODE, ascending: every d in 0..30 with alpha^(2d) + s1·alpha^d + s2 = 0 (R209). -/
def locatorRoots (l1 l2 : Sym) : List Nat :=
  (List.range 31).filter (fun d => alphaPow (2 * d) ^^^ gfMul l1 (alphaPow d) ^^^ l2 == 0#5)

/-- The error values at two distinct degrees (R209); a zero value is a failure. -/
def errorValues (s : Syndromes) (d1 d2 : Nat) : Option Pattern :=
  let y1 := gfDiv (s.s1 ^^^ gfMul s.s0 (alphaPow d2)) (alphaPow d1 ^^^ alphaPow d2)
  let y2 := s.s0 ^^^ y1
  if y1 = 0#5 ∨ y2 = 0#5 then none else some [(d1, y1), (d2, y2)]

/-- The test for two errors of RSDECODE (R209). -/
def decodeTwo (s : Syndromes) : Option Pattern :=
  let dd := gfMul s.s1 s.s1 ^^^ gfMul s.s0 s.s2
  if dd = 0#5 then none
  else
    let l1 := gfDiv (gfMul s.s0 s.s3 ^^^ gfMul s.s1 s.s2) dd
    let l2 := gfDiv (gfMul s.s1 s.s3 ^^^ gfMul s.s2 s.s2) dd
    if l2 = 0#5 then none
    else
      match locatorRoots l1 l2 with
      | [d1, d2] => if 30 ≤ d1 ∨ 30 ≤ d2 then none else errorValues s d1 d2
      | _ => none

/-- RSDECODE (R209): the pattern, or `none` for FAIL. -/
def rsDecode (s : Syndromes) : Option Pattern :=
  if s.s0 = 0#5 ∧ s.s1 = 0#5 ∧ s.s2 = 0#5 ∧ s.s3 = 0#5 then some []
  else
    match decodeOne s with
    | some r => r
    | none => decodeTwo s

/-- The correction that a pattern applies at degree `d`: the XOR of its values there (R210). -/
def Pattern.at (e : Pattern) (d : Nat) : Sym :=
  match e with
  | [] => 0#5
  | (d', v) :: rest => (if d' = d then v else 0#5) ^^^ Pattern.at rest d

/-- A data symbol is corrected: some degree is 4 or more (R210). -/
def Pattern.hasData (e : Pattern) : Bool := e.any (fun x => decide (4 ≤ x.1))

/-- A parity symbol is corrected: some degree is below 4 (R210). -/
def Pattern.hasParity (e : Pattern) : Bool := e.any (fun x => decide (x.1 < 4))

/-- The corrected data symbols: sym[29 − d] ^= v at every degree d ≥ 4 of the pattern (R210, R211). -/
def State.corrected (s : State) (e : Pattern) (k : Nat) : Sym := s.packed k ^^^ Pattern.at e (29 - k)

/-- `RPAR[3 − d] <- RPAR[3 − d] ^ v` for every degree d < 4 of the pattern (R210, R211). -/
def parityWrites (s : State) (e : Pattern) : List (ElemName × Word) :=
  (e.filter (fun x => decide (x.1 < 4))).map
    (fun x => (.rpar (Fin.ofNat 4 (3 - x.1)), (s.rparSym (Fin.ofNat 4 (3 - x.1)) ^^^ x.2).setWidth 32))

/-- All that CORRRS writes for a pattern but STATUS (R211): DATA[0..15] only where a data symbol is corrected. -/
def corrrsWrites (s : State) (e : Pattern) : List (ElemName × Word) :=
  parityWrites s e
    ++ if Pattern.hasData e then dataWrites 16 (unpackSym s.params.packOrder (s.corrected e)) else []

/-- What CORRRS decodes in the state `s` (R207, R209). -/
def State.pattern (s : State) : Option Pattern := rsDecode (syndromes s.parityDelta)

/-- The end of CORRRS for what it decoded (R211, R28). -/
def finishCorrrs (e : Option Pattern) (s : State) : Out :=
  match e with
  | none => complete [] (statusWord Instr.corrrs.opcode 0#2 false false .uncorrectable) s
  | some [] => complete [] (statusWord Instr.corrrs.opcode 0#2 false false .clean) s
  | some (x :: rest) =>
    complete (corrrsWrites s (x :: rest))
      (statusWord Instr.corrrs.opcode (BitVec.ofNat 2 (rest.length + 1)) (Pattern.hasParity (x :: rest))
        (Pattern.hasData (x :: rest)) .corrected) s

/-- CORRRS (R212). -/
def execCorrrs (s : State) : Out :=
  ifAdmitted .corrrs s
    (guardReads (dataNames 16 ++ rparNames ++ tparNames) s (finishCorrrs s.pattern s))

end Sys2Proof.Machine
end

