-- ==== Sys2Proof/Machine/VariableHamming.lean ====
section
/-!
DEFINITION. The variable-length Hamming commands CALCN and CORRN (spec/42_variable_hamming.md R160 to R168). The line
parities are `W` bits wide, and the complement is taken in `W` bits (R14, R160).
-/

namespace Sys2Proof.Machine

/-- A variable-length check value, or the deltas of two (R102, R162). -/
structure NCheck (w : Nat) where
  col : BitVec 6
  lp : BitVec w
  lpp : BitVec w
  deriving DecidableEq, Repr

/-- ACCN over the bytes of a region (R160): `col = (raw >> 2) & 0x3F`. -/
def accN (w : Nat) (data : List Byte) : NCheck w where
  col := (acc w data).col.extractLsb' 2 6
  lp := (acc w data).lp
  lpp := (acc w data).lpp

/-- The check value of DATA[0..n−1] at the build's width. -/
def State.accN (s : State) (n : Nat) : NCheck s.params.w := Machine.accN s.params.w (s.dataBytes n)

/-- What CALCN n writes to TOTH (R161). -/
def calcnWrites (n : BitVec 16) (s : State) : List (ElemName × Word) :=
  [(.toth .col, (s.accN n.toNat).col.setWidth 32), (.toth .lp, (s.accN n.toNat).lp.setWidth 32),
    (.toth .lpp, (s.accN n.toNat).lpp.setWidth 32)]

/-- CALCN n (R161). -/
def execCalcn (n : BitVec 16) (s : State) : Out :=
  ifAdmitted (.calcn n) s
    (guardReads (dataNames n.toNat) s (complete (calcnWrites n s) (statusDone (.calcn n)) s))

/-- The deltas of R162: fieldwise XOR of ROTH and TOTH. -/
def State.deltasN (s : State) : NCheck s.params.w where
  col := (s.get (.roth .col) ^^^ s.get (.toth .col)).setWidth 6
  lp := (s.get (.roth .lp) ^^^ s.get (.toth .lp)).setWidth s.params.w
  lpp := (s.get (.roth .lpp) ^^^ s.get (.toth .lpp)).setWidth s.params.w

/-- SIGN (R164). -/
def sigN {w : Nat} (d : NCheck w) : Bool := d.lp == ~~~d.lpp && pairsDiffer d.col 0x15#6

/-- The bit offset decoded from cDelta, bits 5, 3, 1 (R164). -/
def bitOffsetN (c : BitVec 6) : BitVec 3 :=
  BitVec.ofBool (c.getLsbD 5) ++ BitVec.ofBool (c.getLsbD 3) ++ BitVec.ofBool (c.getLsbD 1)

/-- The decision of R163 to R167, in their order, with the bounds guard of R164. -/
def verdictN {w : Nat} (n : Nat) (d : NCheck w) : Verdict :=
  if d.col = 0#6 ∧ d.lp = 0#w ∧ d.lpp = 0#w then .clean
  else if sigN d then
    if n ≤ d.lp.toNat then .uncorrectable else .dataBit d.lp.toNat (bitOffsetN d.col)
  else if popcount d.col + popcount d.lp + popcount d.lpp = 1 then .checkBit
  else .uncorrectable

/-- `ROTH <- TOTH` (R165). -/
def corrnReplace (s : State) : List (ElemName × Word) :=
  [(.roth .col, s.get (.toth .col)), (.roth .lp, s.get (.toth .lp)), (.roth .lpp, s.get (.toth .lpp))]

/-- What CORRN n finds in the state `s`. -/
def State.verdictN (s : State) (n : Nat) : Verdict := Machine.verdictN n s.deltasN

/-- CORRN n (R166). -/
def execCorrn (n : BitVec 16) (s : State) : Out :=
  ifAdmitted (.corrn n) s
    (guardReads (rothNames ++ tothNames) s (finishCorrect (.corrn n) (corrnReplace s) (s.verdictN n.toNat) s))

end Sys2Proof.Machine
end

