-- ==== Sys2Proof/Machine/Dispatch.lean ====
section
/-! DEFINITION. One arm per command: each calls the command's meaning (spec/30_encoding.md R91). -/

namespace Sys2Proof.Machine

def exec (i : Instr) (s : State) : Host.Outcome State Fault Refusal :=
  match i with
  | .calc256 => Sys2Proof.Machine.execCalc256 s
  | .corr256 => Sys2Proof.Machine.execCorr256 s
  | .calcn n => Sys2Proof.Machine.execCalcn n s
  | .corrn n => Sys2Proof.Machine.execCorrn n s
  | .calcrs => Sys2Proof.Machine.execCalcrs s
  | .corrrs => Sys2Proof.Machine.execCorrrs s
  | .pack => Sys2Proof.Machine.execPack s
  | .unpack => Sys2Proof.Machine.execUnpack s

end Sys2Proof.Machine
end

