-- ==== Sys2Proof/Machine/Window.lean ====
section
/-!
DEFINITION. The host window and host accesses (spec/20_memory.md R60 to R67): the map of R61, the refusals of R64 and
R65, and the reads and writes of R66. A write to CMD is told apart here and run in Machine/Access.lean.
-/

namespace Sys2Proof.Machine

/-- What a byte of the host window holds (R61). A lane is the byte's place in its element, 0 the lowest (R63). -/
inductive WinByte where
  | cmd (lane : Nat)
  | status (lane : Nat)
  | config (lane : Nat)
  | elem (e : ElemName) (lane : Nat)
  | padding
  | rom (b : Byte)
  | unmapped
  deriving DecidableEq, Repr

/-- The map of R61 from DATA down: the offsets 0x0060 and above. -/
def highWinByte (p : Params) (off : Nat) : WinByte :=
  if 0x1000 ≤ off then (if off < 0x1000 + p.nmax then .elem (.data (off - 0x1000)) 0 else .unmapped)
  else if 0x0200 ≤ off then .unmapped
  else if 0x0100 ≤ off then .rom (BitVec.ofNat 8 (off - 0x0100))
  else if 0x007C ≤ off then .unmapped
  else if 0x007A ≤ off then .padding
  else .elem (.sym (Fin.ofNat 26 (off - 0x0060))) 0

/-- The map of R61 from 0x0020 to 0x005F: the check values. -/
def midWinByte (off : Nat) : WinByte :=
  if 0x0050 ≤ off then .unmapped
  else if 0x0048 ≤ off then .elem (.tpar (Fin.ofNat 4 ((off - 0x0048) / 2))) ((off - 0x0048) % 2)
  else if 0x0040 ≤ off then .elem (.rpar (Fin.ofNat 4 ((off - 0x0040) / 2))) ((off - 0x0040) % 2)
  else if 0x003C ≤ off then .unmapped
  else if 0x0038 ≤ off then .elem (.toth .lpp) (off - 0x0038)
  else if 0x0034 ≤ off then .elem (.toth .lp) (off - 0x0034)
  else if 0x0030 ≤ off then .elem (.toth .col) (off - 0x0030)
  else if 0x002C ≤ off then .unmapped
  else if 0x0028 ≤ off then .elem (.roth .lpp) (off - 0x0028)
  else if 0x0024 ≤ off then .elem (.roth .lp) (off - 0x0024)
  else .elem (.roth .col) (off - 0x0020)

/-- The map of R61 below 0x0020: the registers and the fixed check values. -/
def lowWinByte (off : Nat) : WinByte :=
  if 0x0018 ≤ off then .unmapped
  else if 0x0017 ≤ off then .padding
  else if 0x0014 ≤ off then .elem (.tecc (Fin.ofNat 3 (off - 0x0014))) 0
  else if 0x0013 ≤ off then .padding
  else if 0x0010 ≤ off then .elem (.recc (Fin.ofNat 3 (off - 0x0010))) 0
  else if 0x000C ≤ off then .unmapped
  else if 0x0008 ≤ off then .config (off - 0x0008)
  else if 0x0004 ≤ off then .status (off - 0x0004)
  else .cmd off

/-- What the byte at an offset of the host window holds (R61). -/
def winByte (p : Params) (off : Nat) : WinByte :=
  if 0x0060 ≤ off then highWinByte p off
  else if 0x0020 ≤ off then midWinByte off
  else lowWinByte off

/-- The window bytes that an access of `n` bytes at `a` covers, in rising offset (R63). -/
def covered (p : Params) (a : BitVec 13) (n : Nat) : List WinByte :=
  (List.range n).map (fun i => winByte p (a.toNat + i))

/-- The width is 1, 2 or 4 and the offset is a multiple of it (R63, R64). -/
def aligned (a : BitVec 13) (n : Nat) : Bool := (n == 1 || n == 2 || n == 4) && a.toNat % n == 0

/-- The byte is mapped (R61). -/
def WinByte.mapped : WinByte → Bool
  | .unmapped => false
  | _ => true

/-- The byte may be written by a store: it is mapped, not read-only (R64) and not part of CMD (R65). -/
def WinByte.storable : WinByte → Bool
  | .elem _ _ => true
  | .padding => true
  | _ => false

/-- A read that R64 accepts. -/
def readAccepted (p : Params) (a : BitVec 13) (n : Nat) : Bool :=
  aligned a n && (covered p a n).all WinByte.mapped

/-- A write that R65 accepts as the start of a command: 32 bits at offset 0. -/
def startsCommand (a : BitVec 13) (n : Nat) : Bool := a == 0#13 && n == 4

/-- Any other write that R64 and R65 accept. -/
def storeAccepted (p : Params) (a : BitVec 13) (n : Nat) : Bool :=
  aligned a n && (covered p a n).all WinByte.storable

/-- The 8 bits of a slot at a lane, bit 0 of the element at its lowest offset (R63). -/
def laneByte (v : Word) (lane : Nat) : Byte := v.extractLsb' (8 * lane) 8

/-- What a read returns for one byte (R66); padding reads as 0 (R61). An unmapped byte is never read (R64). -/
def State.winValue (s : State) : WinByte → Byte
  | .cmd lane => laneByte s.cmd lane
  | .status lane => laneByte s.status lane
  | .config lane => laneByte (configWord s.params) lane
  | .elem e lane => laneByte (s.get e) lane
  | .padding => 0#8
  | .rom b => colTab b
  | .unmapped => 0#8

/-- The element that a byte belongs to. -/
def WinByte.element : WinByte → Option ElemName
  | .elem e _ => some e
  | _ => none

/-- Bytes as one little-endian value: byte `i` in bits [8i+7 : 8i] (R63). -/
def littleEndian : List Byte → Word
  | [] => 0#32
  | b :: rest => b.setWidth 32 ||| (littleEndian rest <<< 8)

/-- A host read (R64, R66, R246): refused, or a fault where a covered element is unwritten, or the value. -/
def hostRead (a : BitVec 13) (n : Nat) (s : State) : Out :=
  if readAccepted s.params a n then
    guardReads ((covered s.params a n).filterMap WinByte.element) s
      (.next (s.setResp (.value n (littleEndian ((covered s.params a n).map s.winValue)))))
  else .next (busError s)

/-- An element that a store covers: the element and the window offset of its lane 0. -/
structure Target where
  elem : ElemName
  slot : Nat
  deriving DecidableEq, Repr

/-- Byte `i` of the access opens an element: it is the element's lane 0, or the access begins inside the element. -/
def targetAt (p : Params) (a : BitVec 13) (i : Nat) : Option Target :=
  match winByte p (a.toNat + i) with
  | .elem e lane => if lane = 0 ∨ i = 0 then some { elem := e, slot := a.toNat + i - lane } else none
  | _ => none

/-- The elements that a store of `n` bytes at `a` covers, each once (R66). -/
def targets (p : Params) (a : BitVec 13) (n : Nat) : List Target := (List.range n).filterMap (targetAt p a)

/-- The low `8·n` bits of a value: the bits an access of `n` bytes carries (R63). -/
def accessBits (n : Nat) (v : Word) : Word := keepLow (8 * n) v

/-- Bits of an access at window offset `a`, moved to their places in the slot that begins at `slot`. -/
def placeBits (a slot : Nat) (v : Word) : Word :=
  if slot ≤ a then v <<< (8 * (a - slot)) else v >>> (8 * (slot - a))

/-- The bits of the slot at `slot` that an access of `n` bytes at `a` covers. -/
def coverMask (a : BitVec 13) (n slot : Nat) : Word := placeBits a.toNat slot (accessBits n (BitVec.allOnes 32))

/-- The access covers every stored bit of the element. -/
def coversAll (p : Params) (a : BitVec 13) (n : Nat) (t : Target) : Bool :=
  keepLow (t.elem.width p) (coverMask a n t.slot) == keepLow (t.elem.width p) (BitVec.allOnes 32)

/-- Replace the covered bits and keep the others (R66). -/
def mergeBits (mask new old : Word) : Word := (new &&& mask) ||| (old &&& ~~~mask)

/-- One element of a store (R66): the covered bits are replaced, the others kept, and the element keeps its low bits
(R37). Where nothing has written the element before, the bits that are kept are those it held at reset, which R40
leaves unspecified: they are a free value (log 5). A store that covers none of an element's stored bits sets its flag
too: DEDUCED (log 8). -/
def storeTarget (a : BitVec 13) (n : Nat) (v : Word) (s : State) (t : Target) : State :=
  let mask := coverMask a n t.slot
  let new := placeBits a.toNat t.slot (accessBits n v)
  if coversAll s.params a n t then s.put t.elem new
  else if s.written t.elem then s.put t.elem (mergeBits mask new (s.get t.elem))
  else (s.put t.elem (mergeBits mask new (Config.freeBits s.freeCount))).tick

/-- A store into the window (R66): each covered element in turn; RAZ/WI bytes ignore the write (R61). -/
def hostStore (a : BitVec 13) (n : Nat) (v : Word) (s : State) : State :=
  ((targets s.params a n).foldl (storeTarget a n v) s).setResp .wrote

end Sys2Proof.Machine
end

