-- ==== Sys2Proof/Machine/Access.lean ====
section
/-!
DEFINITION. Performing one host access (spec/20_memory.md R63 to R67) and starting a command
(spec/10_state.md R20, R25, spec/30_encoding.md R97).
-/

namespace Sys2Proof.Machine

/-- An accepted 32-bit write to CMD (R25, R97): the word is stored, and the command it encodes runs as part of the same
step (R20), or the word is refused (R243). -/
def runWord (w : Word) (s : State) : Out :=
  match decodeWord w with
  | .ok i => exec i (s.setCmd w)
  | .error _ => .next (illegalCmd (opField w) (s.setCmd w))

/-- A host write (R64, R65, R66, R246). -/
def hostWrite (a : BitVec 13) (n : Nat) (v : Word) (s : State) : Out :=
  if startsCommand a n then runWord v (s.setResp .wrote)
  else if storeAccepted s.params a n then .next (hostStore a n v s)
  else .next (busError s)

/-- One host access (R63), or a platform reset (R270). -/
def access : HostOp → State → Out
  | .read a n, s => hostRead a n s
  | .write a n v, s => hostWrite a n v s
  | .platformReset, s => .next s.platformReset

/-- The host access that writes a command word (R25, R65, R98). -/
def commandWrite (w : Word) : HostOp := .write 0#13 4 w

end Sys2Proof.Machine
end

