-- ==== Sys2Proof/Machine/Step.lean ====
section
/-!
DEFINITION. One step of the machine: the next host access of the total order (spec/20_memory.md R73), with the command
it starts, as one atomic step (spec/10_state.md R20). With no access to come the core waits and holds its storage
(spec/60_exceptions.md R256, spec/70_reset_and_hazards.md R272).
-/

namespace Sys2Proof.Machine

/-- One step. DESIGN CHOICE (log 7): with no access to come it changes nothing. -/
def step (s : State) : Host.Outcome State Fault Refusal :=
  match s.host with
  | [] => .next s
  | op :: rest => access op (s.setHost rest)

/-- The state `s` whose next host access writes a command word to CMD (log 2): the core fetches nothing (R22), and a
program is the host's sequence of accesses (R98). The word's bits above `nbits` are 0. -/
def State.withFetchWord (s : State) (nbits w : Nat) : State := s.setHost (commandWrite (tableWord nbits w) :: s.host)

end Sys2Proof.Machine
end

