-- ==== Sys2Proof/WellFormed.lean ====
section
/-!
DEFINITION. When a command is well formed for a build: the "available" and "operands" columns of
spec/opcode_table.json (spec/30_encoding.md R91, R95, R96). Every `Instr` has an encoding; an ill-formed one is refused.
-/

namespace Sys2Proof

/-- The build offers the command (R91, column "available when"). -/
def Instr.available (p : Params) : Instr → Bool
  | .calc256 => true
  | .corr256 => true
  | .calcn _ => p.otherVariant == .hamming
  | .corrn _ => p.otherVariant == .hamming
  | .calcrs => p.otherVariant == .rs
  | .corrrs => p.otherVariant == .rs
  | .pack => p.otherVariant == .rs
  | .unpack => p.otherVariant == .rs

/-- The operand is legal: `0 ≤ n ≤ min(NMAX, 2^W)` for CALCN and CORRN (R96); no other command has an operand. -/
def Instr.lenLegal (p : Params) : Instr → Bool
  | .calc256 => true
  | .corr256 => true
  | .calcn n => decide (n.toNat ≤ min p.nmax (2 ^ p.w))
  | .corrn n => decide (n.toNat ≤ min p.nmax (2 ^ p.w))
  | .calcrs => true
  | .corrrs => true
  | .pack => true
  | .unpack => true

/-- Well-formedness of a command for the build `p`. -/
def Instr.wf (p : Params) (i : Instr) : Bool :=
  i.available p && i.lenLegal p

end Sys2Proof
end

