-- ==== Sys2Proof/Safety.lean ====
section
/-!
DEFINITION. The terms claims are stated in: the legal states and STATUS words (spec/10_state.md R26 to R28, R37, R40),
what a command reads and writes (R42, spec/70_reset_and_hazards.md R273), what stays the same, the refused words and
accesses (spec/30_encoding.md R97, spec/20_memory.md R64, R65), and the spec's own closed forms of check values, packing
and error patterns. The step function uses none of them.
-/

namespace Sys2Proof.Machine

/-! ## Legal states -/

/-- The STATUS words that can stand after a command word whose bits 3:0 are `op` (R26, R27, R28, R243), and 0 after
reset (R40). Every reserved bit is 0 and RESULT is never 0b10. -/
inductive StatusLegal (op : BitVec 4) : Word → Prop where
  /-- Reset: CMD and STATUS are 0 (R40). -/
  | reset : op = 0x0#4 → StatusLegal op 0#32
  /-- An accepted command that is not a correct command, or a clean one (R28). -/
  | clean : 0x1#4 ≤ op → op ≤ 0x8#4 → StatusLegal op (statusWord op 0#2 false false .clean)
  /-- An uncorrectable correct command (R28). -/
  | uncorrectable : op = 0x2#4 ∨ op = 0x4#4 ∨ op = 0x6#4 →
      StatusLegal op (statusWord op 0#2 false false .uncorrectable)
  /-- CORR256 and CORRN: a data bit corrected or the check value replaced, not both (R28). -/
  | hamming (chk : Bool) : op = 0x2#4 ∨ op = 0x4#4 → StatusLegal op (statusWord op 0#2 chk (!chk) .corrected)
  /-- CORRRS: 1 or 2 symbols corrected, each a data or a parity symbol (R28). -/
  | symbols (count : BitVec 2) (chk dat : Bool) : op = 0x6#4 → count = 1#2 ∨ count = 2#2 → chk = true ∨ dat = true →
      StatusLegal op (statusWord op count chk dat .corrected)
  /-- A refused word (R243). -/
  | illegal : StatusLegal op (0x00000100#32 ||| (op.setWidth 32 <<< 12))

/-- A check value keeps no bit above `W` in LP and LPP (R37). -/
def VarCheck.Narrow (w : Nat) (c : VarCheck) : Prop := c.lp.val.toNat < 2 ^ w ∧ c.lpp.val.toNat < 2 ^ w

/-- The legal states: the parameters are in the ranges of R11, DATA is in its canonical form and inside `NMAX` bytes
(R29), the line parities are `W` bits wide (R37), and STATUS is legal for the last command word's OP (R25, R26). -/
structure State.Inv (s : State) : Prop where
  params : s.params.wf = true
  canonical : s.data.wf = true
  bounded : ∀ x ∈ s.data, x.1 < s.params.nmax
  roth : s.roth.Narrow s.params.w
  toth : s.toth.Narrow s.params.w
  status : StatusLegal (opField s.cmd) s.status

/-! ## What is written, what is the same -/

/-- Every element of the list has been written (R41). -/
def State.Written (s : State) (es : List ElemName) : Prop := ∀ e ∈ es, s.written e = true

/-- Nothing changes from `s` to `t` but the elements listed and STATUS: every other element keeps its bits and its written
flag (every byte of DATA among them), and CMD, the parameters, the host's accesses, the port's answer and the free
values' counter stay. -/
structure Frame (s t : State) (es : List ElemName) : Prop where
  value : ∀ e, e ∉ es → t.get e = s.get e
  flag : ∀ e, e ∉ es → t.written e = s.written e
  params : t.params = s.params
  cmd : t.cmd = s.cmd
  host : t.host = s.host
  resp : t.resp = s.resp
  freeCount : t.freeCount = s.freeCount

/-- The elements a command reads whatever its path (R42, R273). -/
def alwaysReads : Instr → List ElemName
  | .calc256 => dataNames 256
  | .corr256 => reccNames ++ teccNames
  | .calcn n => dataNames n.toNat
  | .corrn _ => rothNames ++ tothNames
  | .calcrs => dataNames 16
  | .corrrs => dataNames 16 ++ rparNames ++ tparNames
  | .pack => dataNames 16
  | .unpack => symNames

/-- The elements a command may read, the data path's byte among them (R273). -/
def mayRead : Instr → List ElemName
  | .corr256 => reccNames ++ teccNames ++ dataNames 256
  | .corrn n => rothNames ++ tothNames ++ dataNames n.toNat
  | .calc256 => dataNames 256
  | .calcn n => dataNames n.toNat
  | .calcrs => dataNames 16
  | .corrrs => dataNames 16 ++ rparNames ++ tparNames
  | .pack => dataNames 16
  | .unpack => symNames

/-- What a Hamming correct command reads beyond the two check values: the byte its meaning decodes, on the data path
(R42). -/
def verdictReads : Verdict → List ElemName
  | .clean => []
  | .dataBit byte _ => [.data byte]
  | .checkBit => []
  | .uncorrectable => []

/-- The elements an accepted command reads in the state `s` (R42). -/
def commandReads (s : State) : Instr → List ElemName
  | .calc256 => dataNames 256
  | .corr256 => reccNames ++ teccNames ++ verdictReads s.verdict256
  | .calcn n => dataNames n.toNat
  | .corrn n => rothNames ++ tothNames ++ verdictReads (s.verdictN n.toNat)
  | .calcrs => dataNames 16
  | .corrrs => dataNames 16 ++ rparNames ++ tparNames
  | .pack => dataNames 16
  | .unpack => symNames

/-- What a Hamming correct command writes for what it found: the byte its meaning decodes, or the read value (R42). -/
def verdictWrites (check : List ElemName) : Verdict → List ElemName
  | .clean => []
  | .dataBit byte _ => [.data byte]
  | .checkBit => check
  | .uncorrectable => []

/-- What CORRRS writes for what it decoded: RPAR[3 − d] at a degree d < 4, and DATA[0..15] if some degree is 4 or more
(R42, R210, R211). -/
def patternWrites : Option Pattern → List ElemName
  | none => []
  | some e => ((e.filter (fun x => decide (x.1 < 4))).map (fun x => .rpar (Fin.ofNat 4 (3 - x.1))))
      ++ if Pattern.hasData e then dataNames 16 else []

/-- The elements an accepted command writes in the state `s` (R42), computed with the functions its meaning uses. -/
def commandWrites (s : State) : Instr → List ElemName
  | .calc256 => teccNames
  | .corr256 => verdictWrites reccNames s.verdict256
  | .calcn _ => tothNames
  | .corrn n => verdictWrites rothNames (s.verdictN n.toNat)
  | .calcrs => tparNames
  | .corrrs => patternWrites s.pattern
  | .pack => symNames
  | .unpack => dataNames 16

/-- Two states that differ at most in the bits held by elements nothing has written: what R40 leaves unspecified. -/
structure SameButUnwritten (s t : State) : Prop where
  flag : ∀ e, t.written e = s.written e
  value : ∀ e, s.written e = true → t.get e = s.get e
  data : t.data = s.data
  params : t.params = s.params
  cmd : t.cmd = s.cmd
  status : t.status = s.status
  host : t.host = s.host
  resp : t.resp = s.resp
  freeCount : t.freeCount = s.freeCount

/-- Two outcomes that no run can tell apart: the same fault, or next states that differ only in unwritten bits. -/
def Indistinguishable : Out → Out → Prop
  | .next s, .next t => SameButUnwritten s t
  | .fault f, .fault g => f = g
  | _, _ => False

/-! ## Words and accesses that are refused -/

/-- The conditions under which R97 and R243 refuse a command word. -/
def RefusedWord (p : Params) (w : Word) : Prop :=
  opField w = 0x0#4 ∨ 0x9#4 ≤ opField w
  ∨ rsvField w ≠ 0#12
  ∨ (opField w ≠ 0x3#4 ∧ opField w ≠ 0x4#4 ∧ lenField w ≠ 0#16)
  ∨ ((opField w = 0x3#4 ∨ opField w = 0x4#4) ∧ p.otherVariant ≠ .hamming)
  ∨ ((opField w = 0x5#4 ∨ opField w = 0x6#4 ∨ opField w = 0x7#4 ∨ opField w = 0x8#4) ∧ p.otherVariant ≠ .rs)
  ∨ ((opField w = 0x3#4 ∨ opField w = 0x4#4) ∧ (p.nmax < (lenField w).toNat ∨ 2 ^ p.w < (lenField w).toNat))

/-- A byte of the window that no write may cover, CMD apart (R64). -/
def ReadOnly : WinByte → Prop
  | .status _ => True
  | .config _ => True
  | .rom _ => True
  | _ => False

/-- The access conditions of R64 that reads and writes share: wrong width, misaligned, or an unmapped byte. -/
def BadAccess (p : Params) (a : BitVec 13) (n : Nat) : Prop :=
  (n ≠ 1 ∧ n ≠ 2 ∧ n ≠ 4) ∨ a.toNat % n ≠ 0 ∨ ∃ i, i < n ∧ winByte p (a.toNat + i) = .unmapped

/-- The accesses that R64 and R65 refuse with `BUS_ERROR`. -/
def RefusedAccess (p : Params) : HostOp → Prop
  | .read a n => BadAccess p a n
  | .write a n _ => BadAccess p a n
      ∨ (∃ i, i < n ∧ ReadOnly (winByte p (a.toNat + i)))
      ∨ ((∃ i lane, i < n ∧ winByte p (a.toNat + i) = .cmd lane) ∧ ¬(n = 4 ∧ a = 0#13))
  | .platformReset => False

/-- The element exists in the core: DATA has `NMAX` bytes (R29). -/
def ElemName.exists (p : Params) : ElemName → Prop
  | .data i => i < p.nmax
  | _ => True

/-- The window offset of an element's lowest byte (R61). -/
def ElemName.offset : ElemName → Nat
  | .data i => 0x1000 + i
  | .recc j => 0x0010 + j
  | .tecc j => 0x0014 + j
  | .roth .col => 0x0020
  | .roth .lp => 0x0024
  | .roth .lpp => 0x0028
  | .toth .col => 0x0030
  | .toth .lp => 0x0034
  | .toth .lpp => 0x0038
  | .rpar j => 0x0040 + 2 * j
  | .tpar j => 0x0048 + 2 * j
  | .sym k => 0x0060 + k

/-- The number of bytes of an element's slot (R61). -/
def ElemName.bytes : ElemName → Nat
  | .data _ => 1
  | .recc _ => 1
  | .tecc _ => 1
  | .roth _ => 4
  | .toth _ => 4
  | .rpar _ => 2
  | .tpar _ => 2
  | .sym _ => 1

/-! ## The spec's closed forms -/

/-- XOR of `f 0 … f (n−1)`. -/
def xorSum {w : Nat} : Nat → (Nat → BitVec w) → BitVec w
  | 0, _ => 0#w
  | n + 1, f => xorSum n f ^^^ f n

/-- The byte has an odd number of set bits (R120). -/
def oddByte (b : Byte) : Bool := popcount b % 2 == 1

/-- The line parity of R130 and R160: the XOR of the indices of the odd-parity bytes. -/
def lineParity (w n : Nat) (d : Nat → Byte) : BitVec w :=
  xorSum n (fun i => if oddByte (d i) then BitVec.ofNat w i else 0#w)

/-- The line parity prime of R130 and R160: the XOR of the `w`-bit complements of those indices. -/
def lineParityPrime (w n : Nat) (d : Nat → Byte) : BitVec w :=
  xorSum n (fun i => if oddByte (d i) then ~~~(BitVec.ofNat w i) else 0#w)

/-- Column-parity bit CPk of a region (R120, R130): the parity, over all its bytes, of the data bits that feed CPk. -/
def columnParity (n : Nat) (d : Nat → Byte) (k : Nat) : Bool :=
  (xorSum n (fun i => colTab (d i))).getLsbD (k + 2)

/-- The number of odd-parity bytes of a region (R172). -/
def oddCount (n : Nat) (d : Nat → Byte) : Nat := ((List.range n).filter (fun i => oddByte (d i))).length

/-- Byte `j` of the fixed-block check value before any swap, as the table of R100 gives it bit by bit. -/
def r100Byte (d : Nat → Byte) (j bit : Nat) : Bool :=
  if j = 2 then (if bit < 2 then true else !(columnParity 256 d (bit - 2)))
  else if bit % 2 = 1 then !((lineParity 8 256 d).getLsbD (4 * j + bit / 2))
  else !((lineParityPrime 8 256 d).getLsbD (4 * j + bit / 2))

/-- The row of R100 that stored byte `j` holds (R101). -/
def storedRow (swap : Bool) (j : Nat) : Nat := if swap && decide (j < 2) then 1 - j else j

/-- The bytes `d` with bit `k` of byte `j` flipped (R15). -/
def flipBit (d : Nat → Byte) (j k : Nat) (i : Nat) : Byte := if i = j then d i ^^^ (1#8 <<< k) else d i

/-- The 128-bit little-endian integer Σ d[i]·2^(8i) of R190. -/
def leInt (d : Nat → Byte) : Nat := ((List.range 16).map (fun i => (d i).toNat * 2 ^ (8 * i))).sum

/-- The 130-bit value Z = 4·Σ d[i]·2^(8(15−i)) of R190. -/
def beInt (d : Nat → Byte) : Nat := 4 * ((List.range 16).map (fun i => (d i).toNat * 2 ^ (8 * (15 - i)))).sum

/-- PACKSYM in the closed form of R190. -/
def packClosed (o : PackOrder) (d : Nat → Byte) (k : Nat) : Nat :=
  match o with
  | .lsbFirst => leInt d / 2 ^ (5 * k) % 32
  | .msbFirst => beInt d / 2 ^ (5 * (25 - k)) % 32

/-- The value at α^i of the codeword polynomial with data symbols `y` and parity symbols `q` (R204). -/
def codewordAt (y : Nat → Sym) (q : Fin 4 → Sym) (i : Nat) : Sym :=
  xorSum 26 (fun k => gfMul (y k) (alphaPow (i * (29 - k))))
    ^^^ xorSum 4 (fun j => gfMul (q (Fin.ofNat 4 j)) (alphaPow (i * (3 - j))))

/-- S[i] of R207. -/
def State.syndrome (s : State) (i : Nat) : Sym :=
  xorSum 4 (fun j => gfMul (s.rparSym (Fin.ofNat 4 j) ^^^ s.tparSym (Fin.ofNat 4 j)) (alphaPow (i * (3 - j))))

/-- An error pattern of R208: distinct degrees in 0..29 and nonzero values. -/
def Pattern.Valid (e : Pattern) : Prop := (e.map Prod.fst).Nodup ∧ ∀ x ∈ e, x.1 < 30 ∧ x.2 ≠ 0#5

/-- The syndromes of an error pattern: Σ value · alpha^(i·degree) (R208). -/
def Pattern.syndrome (e : Pattern) (i : Nat) : Sym :=
  e.foldr (fun x r => gfMul x.2 (alphaPow (i * x.1)) ^^^ r) 0#5

/-- The pattern explains the state's parity delta (R208). -/
def Explains (e : Pattern) (s : State) : Prop := ∀ i, i < 4 → Pattern.syndrome e i = s.syndrome i

/-- How many of the 26 symbols of two symbol arrays differ. -/
def symbolDistance (y z : Nat → Sym) : Nat := ((List.range 26).filter (fun k => y k != z k)).length

end Sys2Proof.Machine
end

