-- ==== Sys2Proof/Certificates/Slice0/Obligations.lean ====
section
/-!
DEFINITION. The statements of this model, for the provers (OBLIGATIONS.json says which rule of spec/ each formalises).
Where a statement speaks of a command's meaning it speaks of `exec`; where it speaks of a run it speaks of `step`.
In the statements about a host access, the queue `host` and the port's answer `resp` are the model's own fields (log 1);
`freeCount` counts the uses of free values (log 5). No statement rests on the value of a free value.
-/

open Sys2Proof Sys2Proof.Machine

/-! ## Encoding (spec/30_encoding.md) -/

/-- R90 to R94: the decoder and the encoder are inverse to each other on every word and every command, so no bit of an
encoding is dropped and no refused word has a second reading. -/
def Obligations.DecodeInvertsEncode : Prop :=
  ∀ (w : Word) (i : Instr), decodeWord w = .ok i ↔ w = encode i

/-- R91, R99: the command word of every command, LEN in bits 31:16 and OP in bits 3:0. -/
def Obligations.EncodedWords : Prop :=
  encode .calc256 = 0x00000001#32 ∧ encode .corr256 = 0x00000002#32 ∧ encode .calcrs = 0x00000005#32
  ∧ encode .corrrs = 0x00000006#32 ∧ encode .pack = 0x00000007#32 ∧ encode .unpack = 0x00000008#32
  ∧ (∀ n : BitVec 16, encode (.calcn n) = (n.setWidth 32 <<< 16) ||| 0x3#32)
  ∧ (∀ n : BitVec 16, encode (.corrn n) = (n.setWidth 32 <<< 16) ||| 0x4#32)

/-- R91, R98: words written out from the encoding table decode to the commands they stand for. -/
def Obligations.SampleWordsDecode : Prop :=
  decodeWord 0x00000001#32 = .ok .calc256 ∧ decodeWord 0x00000002#32 = .ok .corr256
  ∧ decodeWord 0x000C0003#32 = .ok (.calcn 12#16) ∧ decodeWord 0x01000004#32 = .ok (.corrn 256#16)
  ∧ decodeWord 0x00000005#32 = .ok .calcrs ∧ decodeWord 0x00000006#32 = .ok .corrrs
  ∧ decodeWord 0x00000007#32 = .ok .pack ∧ decodeWord 0x00000008#32 = .ok .unpack
  ∧ decodeWord 0x00000000#32 = .error .reservedOp ∧ decodeWord 0x00000011#32 = .error .reservedBits
  ∧ decodeWord 0x00010001#32 = .error .lenNotAllowed

/-- R95, R96, R97: a word is not refused exactly when it decodes to a command that is well formed for the build. -/
def Obligations.AcceptedWordIsWellFormedCommand : Prop :=
  ∀ (p : Params) (w : Word), ¬RefusedWord p w ↔ ∃ i, decodeWord w = .ok i ∧ i.wf p = true

/-- R97, R20, R25: a 32-bit write to CMD whose word decodes to a command stores the word and runs that command in the
same step. -/
def Obligations.StepRunsDecodedCommand : Prop :=
  ∀ (s : State) (w : Word) (i : Instr) (rest : List HostOp),
    s.host = .write 0#13 4 w :: rest → decodeWord w = .ok i →
    step s = exec i (((s.setHost rest).setResp .wrote).setCmd w)

/-- R243: a refused command word writes CMD and STATUS = 0x00000100 | (w[3:0] << 12), and nothing else happens. -/
def Obligations.RefusedWordWritesOnlyCmdAndStatus : Prop :=
  ∀ (s : State) (w : Word) (rest : List HostOp),
    s.host = .write 0#13 4 w :: rest → RefusedWord s.params w →
    step s = .next ((((s.setHost rest).setResp .wrote).setCmd w).setStatus
      (0x00000100#32 ||| ((w &&& 0xF#32) <<< 12)))

/-- R95, R96, R243: a command that is not well formed for the build writes the STATUS of a refused word and nothing else.
That `exec` itself refuses it is the model's place for these checks (log 9, DEDUCED). -/
def Obligations.IllFormedCommandRefused : Prop :=
  ∀ (i : Instr) (s : State), i.wf s.params = false →
    exec i s = .next (s.setStatus (0x00000100#32 ||| (i.opcode.setWidth 32 <<< 12)))

/-! ## Reset and the invariant (spec/10_state.md, spec/70_reset_and_hazards.md) -/

/-- R40, R41, R270: what reset leaves, at construction and at a platform reset during a run. CONFIG and COLTAB are read
through the host window. The model's own choices: a platform reset is an entry of the host queue, and keeps the queue and
the counter of free values (log 1, log 11); it leaves the state of `resetWith`, which holds 0 in the elements whose
contents R40 leaves unspecified (log 4). -/
def Obligations.ResetLeavesSpecifiedValues : Prop :=
  ∀ p : Params,
    (State.resetWith p).params = p ∧ (State.resetWith p).cmd = 0x00000000#32
    ∧ (State.resetWith p).status = 0x00000000#32 ∧ (∀ e, (State.resetWith p).written e = false)
    ∧ step ((State.resetWith p).setHost [.read 0x0008#13 4])
        = .next ((State.resetWith p).setResp (.value 4 (configWord p)))
    ∧ (∀ b : Byte, step ((State.resetWith p).setHost [.read (0x0100#13 + b.setWidth 13) 1])
        = .next ((State.resetWith p).setResp (.value 1 ((colTab b).setWidth 32))))
    ∧ ∀ (s : State) (rest : List HostOp), s.host = .platformReset :: rest → s.params = p →
        step s = .next { State.resetWith p with host := rest, freeCount := s.freeCount }

/-- The reset state of every legal build is legal. -/
def Obligations.ResetStateIsLegal : Prop :=
  ∀ p : Params, p.wf = true → (State.resetWith p).Inv

/-- R26, R27, R28, R29, R37: every step keeps the legal states: DATA stays canonical and inside NMAX, LP and LPP stay W
bits wide, and STATUS stays one of the words R28 and R243 allow for the OP of the last command word. -/
def Obligations.StepKeepsLegalState : Prop :=
  ∀ s t : State, s.Inv → step s = .next t → t.Inv

/-- R23: no host access or command writes a construction-time parameter. -/
def Obligations.StepKeepsParameters : Prop :=
  ∀ s t : State, step s = .next t → t.params = s.params

/-- R62, D29: no rule depends on ECC_BASE: a step of a core at another base address does the same. -/
def Obligations.PlatformBaseChangesNothing : Prop :=
  ∀ (s : State) (b : Nat),
    step { s with params := { s.params with eccBase := b } } =
      match step s with
      | .next t => .next { t with params := { t.params with eccBase := b } }
      | .fault f => .fault f
      | .refused r => .refused r

/-- R24: the fields of CONFIG, and its reserved bits, which read 0. -/
def Obligations.ConfigReportsParameters : Prop :=
  ∀ p : Params, p.wf = true →
    (configWord p).getLsbD 0 = p.swapCompat
    ∧ (configWord p).getLsbD 1 = decide (p.otherVariant = .rs)
    ∧ (configWord p).getLsbD 2 = decide (p.packOrder = .msbFirst)
    ∧ (configWord p).extractLsb' 3 5 = 0#5
    ∧ ((configWord p).extractLsb' 8 6).toNat = p.w
    ∧ (configWord p).extractLsb' 14 2 = 0#2
    ∧ ((configWord p).extractLsb' 16 13).toNat = p.nmax
    ∧ (configWord p).extractLsb' 29 3 = 0#3

/-- R26, R27: the fields of the STATUS that an accepted command writes, and its reserved bits, which read 0. -/
def Obligations.StatusFields : Prop :=
  ∀ (op : BitVec 4) (count : BitVec 2) (chk dat : Bool) (r : Result),
    statusResult (statusWord op count chk dat r) = r.code
    ∧ statusDatafix (statusWord op count chk dat r) = dat ∧ statusChkfix (statusWord op count chk dat r) = chk
    ∧ statusRscount (statusWord op count chk dat r) = count ∧ statusIllegal (statusWord op count chk dat r) = false
    ∧ statusLastop (statusWord op count chk dat r) = op
    ∧ (statusWord op count chk dat r).extractLsb' 6 2 = 0#2 ∧ (statusWord op count chk dat r).extractLsb' 9 3 = 0#3
    ∧ (statusWord op count chk dat r).extractLsb' 16 16 = 0#16
    ∧ Result.code .clean = 0b00#2 ∧ Result.code .corrected = 0b01#2 ∧ Result.code .uncorrectable = 0b11#2

/-! ## Host accesses (spec/20_memory.md, spec/60_exceptions.md) -/

/-- R61: the host window, row by row; every offset that no row lists is unmapped. -/
def Obligations.WindowMap : Prop :=
  ∀ p : Params, p.wf = true →
    (∀ i, i < 4 → winByte p (0x0000 + i) = .cmd i ∧ winByte p (0x0004 + i) = .status i
      ∧ winByte p (0x0008 + i) = .config i)
    ∧ (∀ e : ElemName, e.exists p → ∀ lane, lane < e.bytes → winByte p (e.offset + lane) = .elem e lane)
    ∧ (winByte p 0x0013 = .padding ∧ winByte p 0x0017 = .padding ∧ winByte p 0x007A = .padding
      ∧ winByte p 0x007B = .padding)
    ∧ (∀ b : Byte, winByte p (0x0100 + b.toNat) = .rom b)
    ∧ (∀ off, off < 0x2000 → 0x000C ≤ off →
        (∀ e : ElemName, e.exists p → ¬(e.offset ≤ off ∧ off < e.offset + e.bytes)) →
        off ≠ 0x0013 → off ≠ 0x0017 → off ≠ 0x007A → off ≠ 0x007B → ¬(0x0100 ≤ off ∧ off < 0x0200) →
        winByte p off = .unmapped)

/-- R64, R65, R244: a refused access is not performed: the port answers `BUS_ERROR` and no state of the core changes. -/
def Obligations.RefusedAccessChangesNothing : Prop :=
  ∀ (s : State) (op : HostOp) (rest : List HostOp), s.host = op :: rest → RefusedAccess s.params op →
    step s = .next ((s.setHost rest).setResp .busError)

/-- R64, R245, R246: an access that is not refused never answers `BUS_ERROR`. -/
def Obligations.OnlyRefusedAccessesAnswerBusError : Prop :=
  ∀ (s t : State) (op : HostOp) (rest : List HostOp), s.host = op :: rest → step s = .next t → t.resp = .busError →
    RefusedAccess s.params op

/-- R25, R26, R61, R63, R66: an accepted read of written elements returns the covered bytes, lane by lane: of CMD, STATUS
and the CONFIG word, of the element's current bits, of the ROM; padding and the bits above the access are 0. Nothing else
changes. -/
def Obligations.ReadReturnsCoveredBytes : Prop :=
  ∀ (s : State) (a : BitVec 13) (n : Nat) (rest : List HostOp), s.host = .read a n :: rest →
    ¬RefusedAccess s.params (.read a n) →
    (∀ i e lane, i < n → winByte s.params (a.toNat + i) = .elem e lane → s.written e = true) →
    ∃ v : Word, step s = .next ((s.setHost rest).setResp (.value n v))
      ∧ v.toNat < 2 ^ (8 * n)
      ∧ ∀ i, i < n →
          (∀ lane, winByte s.params (a.toNat + i) = .cmd lane →
            v.extractLsb' (8 * i) 8 = s.cmd.extractLsb' (8 * lane) 8)
          ∧ (∀ lane, winByte s.params (a.toNat + i) = .status lane →
            v.extractLsb' (8 * i) 8 = s.status.extractLsb' (8 * lane) 8)
          ∧ (∀ lane, winByte s.params (a.toNat + i) = .config lane →
            v.extractLsb' (8 * i) 8 = (configWord s.params).extractLsb' (8 * lane) 8)
          ∧ (∀ e lane, winByte s.params (a.toNat + i) = .elem e lane →
            v.extractLsb' (8 * i) 8 = (s.get e).extractLsb' (8 * lane) 8)
          ∧ (∀ b, winByte s.params (a.toNat + i) = .rom b → v.extractLsb' (8 * i) 8 = colTab b)
          ∧ (winByte s.params (a.toNat + i) = .padding → v.extractLsb' (8 * i) 8 = 0#8)

/-- R41, R66, R245: an accepted read that covers an element nothing has written faults with `UNINIT_READ` of such an
element; which one, where several are unwritten, is a free value (U2, log 6). -/
def Obligations.UnwrittenReadFaults : Prop :=
  ∀ (s : State) (a : BitVec 13) (n i : Nat) (e : ElemName) (lane : Nat) (rest : List HostOp),
    s.host = .read a n :: rest → ¬RefusedAccess s.params (.read a n) → i < n →
    winByte s.params (a.toNat + i) = .elem e lane → s.written e = false →
    ∃ j f k, j < n ∧ winByte s.params (a.toNat + j) = .elem f k ∧ s.written f = false
      ∧ step s = .fault (.uninitRead f)

/-- R67: no read has a side effect. -/
def Obligations.ReadHasNoSideEffect : Prop :=
  ∀ (s t : State) (a : BitVec 13) (n : Nat) (rest : List HostOp), s.host = .read a n :: rest → step s = .next t →
    t = (s.setHost rest).setResp t.resp

/-- R37, R41, R61, R66: a write of an element's whole slot stores the low bits of the value and sets the written flag,
changes no other element and not STATUS, and a read of the slot that follows returns what was stored. -/
def Obligations.SlotWriteThenReadReturnsLowBits : Prop :=
  ∀ (s : State) (e : ElemName) (v : Word) (rest : List HostOp), s.params.wf = true → e.exists s.params →
    s.host = .write (BitVec.ofNat 13 e.offset) e.bytes v :: .read (BitVec.ofNat 13 e.offset) e.bytes :: rest →
    ∃ t, step s = .next t ∧ t.get e = keepLow (e.width s.params) v ∧ t.written e = true
      ∧ (∀ f, f ≠ e → t.get f = s.get f ∧ t.written f = s.written f) ∧ t.cmd = s.cmd ∧ t.status = s.status
      ∧ step t = .next ((t.setHost rest).setResp (.value e.bytes (keepLow (e.width s.params) v)))

/-- R37, R63, R66: what any accepted store of 8, 16 or 32 bits leaves in each element it covers, bit by bit. Bit k of an
element stands in byte k/8 of its slot. Where the access covers that byte the bit is the access's; elsewhere the bit of a
written element is kept; and no bit stays at or above the element's width. The bits that a store keeps of an element
nothing has written are free values (log 5), and nothing is said of them. -/
def Obligations.StoreReplacesCoveredBits : Prop :=
  ∀ (s : State) (a : BitVec 13) (n : Nat) (v : Word) (rest : List HostOp), s.host = .write a n v :: rest →
    ¬RefusedAccess s.params (.write a n v) → ¬(n = 4 ∧ a = 0#13) →
    ∃ t, step s = .next t
      ∧ ∀ i e lane, i < n → winByte s.params (a.toNat + i) = .elem e lane →
          ∀ k,
            (a.toNat ≤ e.offset + k / 8 → e.offset + k / 8 < a.toNat + n →
              (t.get e).getLsbD k =
                (decide (k < e.width s.params) && v.getLsbD (8 * (e.offset + k / 8 - a.toNat) + k % 8)))
            ∧ (s.written e = true → ¬(a.toNat ≤ e.offset + k / 8 ∧ e.offset + k / 8 < a.toNat + n) →
              (t.get e).getLsbD k = (decide (k < e.width s.params) && (s.get e).getLsbD k))

/-- R66, R67: a write that is neither refused nor a command changes no element it does not cover, and neither CMD nor
STATUS; the parameters stay. It sets the flag of every covered element (R41); that it does so where it covers only
read-as-zero bits of the element's slot is the model's reading (log 8, DEDUCED). -/
def Obligations.StoreChangesOnlyCoveredElements : Prop :=
  ∀ (s : State) (a : BitVec 13) (n : Nat) (v : Word) (rest : List HostOp), s.host = .write a n v :: rest →
    ¬RefusedAccess s.params (.write a n v) → ¬(n = 4 ∧ a = 0#13) →
    ∃ t, step s = .next t ∧ t.cmd = s.cmd ∧ t.status = s.status ∧ t.params = s.params ∧ t.host = rest
      ∧ t.resp = .wrote
      ∧ (∀ i e lane, i < n → winByte s.params (a.toNat + i) = .elem e lane → t.written e = true)
      ∧ ∀ e, (∀ i lane, i < n → winByte s.params (a.toNat + i) ≠ .elem e lane) →
          t.get e = s.get e ∧ t.written e = s.written e

/-- R41, R270: no step but a platform reset clears a written flag. -/
def Obligations.OnlyPlatformResetClearsWrittenFlags : Prop :=
  ∀ (s t : State) (e : ElemName), (∀ rest, s.host ≠ .platformReset :: rest) → step s = .next t →
    s.written e = true → t.written e = true

/-- R40, R41, R245: nothing a run can show rests on what an element held at reset: two states that differ only in the
bits of elements nothing has written fault alike or step to two such states. -/
def Obligations.ResetContentsAreUnobservable : Prop :=
  ∀ s t : State, SameButUnwritten s t → Indistinguishable (step s) (step t)

/-- R256, R272: with no host access to come the core holds all its storage. That such a step exists, and changes nothing,
is the model's choice (log 7). -/
def Obligations.IdleCoreHoldsItsState : Prop :=
  ∀ s : State, s.host = [] → step s = .next s

/-! ## All commands (spec/10_state.md R42, R43, spec/60_exceptions.md R240 to R246) -/

/-- R240, R245, R273: a command stops only where it would read an element nothing has written, and then nothing is
written; otherwise it completes. No command is refused a meaning. -/
def Obligations.CommandsStopOnlyOnUnwrittenReads : Prop :=
  ∀ (i : Instr) (s : State),
    (∃ t, exec i s = .next t)
    ∨ (i.wf s.params = true ∧ ∃ e ∈ mayRead i, s.written e = false ∧ exec i s = .fault (.uninitRead e))

/-- R41, R245, R273: an accepted command that would read an element nothing has written faults with `UNINIT_READ` of such
an element. Among what CORR256 and CORRN read is, on the data path, the byte of DATA they decode (R139, R166). -/
def Obligations.UnwrittenOperandFaults : Prop :=
  ∀ (i : Instr) (s : State) (e : ElemName), i.wf s.params = true → e ∈ commandReads s i → s.written e = false →
    ∃ f ∈ commandReads s i, s.written f = false ∧ exec i s = .fault (.uninitRead f)

/-- R42: a command changes only the storage the table lists, and STATUS. The byte of DATA that CORR256 and CORRN write
is the one their meanings decode. -/
def Obligations.CommandsChangeOnlyTheirOutputs : Prop :=
  ∀ (i : Instr) (s t : State), i.wf s.params = true → exec i s = .next t → Frame s t (commandWrites s i)

/-- R42, "reads": a command reads only the storage the table lists. Two states of one build that agree on those elements
fault alike, or complete with the same STATUS and the same outputs, whatever else they hold. -/
def Obligations.CommandsReadOnlyTheirInputs : Prop :=
  ∀ (i : Instr) (s t : State), i.wf s.params = true → t.params = s.params → t.freeCount = s.freeCount →
    (∀ e ∈ commandReads s i, t.get e = s.get e ∧ t.written e = s.written e) →
    (∀ f, exec i s = .fault f → exec i t = .fault f)
    ∧ ∀ s', exec i s = .next s' → ∃ t', exec i t = .next t' ∧ t'.status = s'.status
        ∧ commandWrites t i = commandWrites s i
        ∧ ∀ e ∈ commandWrites s i, t'.get e = s'.get e ∧ t'.written e = true ∧ s'.written e = true

/-- R43: no command reads STATUS, and every command overwrites all of it. -/
def Obligations.NoCommandReadsStatus : Prop :=
  ∀ (i : Instr) (s : State) (x : Word), exec i (s.setStatus x) = exec i s

/-! ## The column-parity ROM (spec/40_column_parity_rom.md) -/

/-- R122: the complete contents of the ROM. -/
def Obligations.RomContents : Prop :=
  ∀ b : Byte, colTab b =
    (([0x00#8, 0x55#8, 0x59#8, 0x0C#8, 0x65#8, 0x30#8, 0x3C#8, 0x69#8, 0x69#8, 0x3C#8, 0x30#8, 0x65#8, 0x0C#8, 0x59#8, 0x55#8, 0x00#8]
    ++ [0x95#8, 0xC0#8, 0xCC#8, 0x99#8, 0xF0#8, 0xA5#8, 0xA9#8, 0xFC#8, 0xFC#8, 0xA9#8, 0xA5#8, 0xF0#8, 0x99#8, 0xCC#8, 0xC0#8, 0x95#8]
    ++ [0x99#8, 0xCC#8, 0xC0#8, 0x95#8, 0xFC#8, 0xA9#8, 0xA5#8, 0xF0#8, 0xF0#8, 0xA5#8, 0xA9#8, 0xFC#8, 0x95#8, 0xC0#8, 0xCC#8, 0x99#8]
    ++ [0x0C#8, 0x59#8, 0x55#8, 0x00#8, 0x69#8, 0x3C#8, 0x30#8, 0x65#8, 0x65#8, 0x30#8, 0x3C#8, 0x69#8, 0x00#8, 0x55#8, 0x59#8, 0x0C#8]
    ++ [0xA5#8, 0xF0#8, 0xFC#8, 0xA9#8, 0xC0#8, 0x95#8, 0x99#8, 0xCC#8, 0xCC#8, 0x99#8, 0x95#8, 0xC0#8, 0xA9#8, 0xFC#8, 0xF0#8, 0xA5#8]
    ++ [0x30#8, 0x65#8, 0x69#8, 0x3C#8, 0x55#8, 0x00#8, 0x0C#8, 0x59#8, 0x59#8, 0x0C#8, 0x00#8, 0x55#8, 0x3C#8, 0x69#8, 0x65#8, 0x30#8]
    ++ [0x3C#8, 0x69#8, 0x65#8, 0x30#8, 0x59#8, 0x0C#8, 0x00#8, 0x55#8, 0x55#8, 0x00#8, 0x0C#8, 0x59#8, 0x30#8, 0x65#8, 0x69#8, 0x3C#8]
    ++ [0xA9#8, 0xFC#8, 0xF0#8, 0xA5#8, 0xCC#8, 0x99#8, 0x95#8, 0xC0#8, 0xC0#8, 0x95#8, 0x99#8, 0xCC#8, 0xA5#8, 0xF0#8, 0xFC#8, 0xA9#8]
    ++ [0xA9#8, 0xFC#8, 0xF0#8, 0xA5#8, 0xCC#8, 0x99#8, 0x95#8, 0xC0#8, 0xC0#8, 0x95#8, 0x99#8, 0xCC#8, 0xA5#8, 0xF0#8, 0xFC#8, 0xA9#8]
    ++ [0x3C#8, 0x69#8, 0x65#8, 0x30#8, 0x59#8, 0x0C#8, 0x00#8, 0x55#8, 0x55#8, 0x00#8, 0x0C#8, 0x59#8, 0x30#8, 0x65#8, 0x69#8, 0x3C#8]
    ++ [0x30#8, 0x65#8, 0x69#8, 0x3C#8, 0x55#8, 0x00#8, 0x0C#8, 0x59#8, 0x59#8, 0x0C#8, 0x00#8, 0x55#8, 0x3C#8, 0x69#8, 0x65#8, 0x30#8]
    ++ [0xA5#8, 0xF0#8, 0xFC#8, 0xA9#8, 0xC0#8, 0x95#8, 0x99#8, 0xCC#8, 0xCC#8, 0x99#8, 0x95#8, 0xC0#8, 0xA9#8, 0xFC#8, 0xF0#8, 0xA5#8]
    ++ [0x0C#8, 0x59#8, 0x55#8, 0x00#8, 0x69#8, 0x3C#8, 0x30#8, 0x65#8, 0x65#8, 0x30#8, 0x3C#8, 0x69#8, 0x00#8, 0x55#8, 0x59#8, 0x0C#8]
    ++ [0x99#8, 0xCC#8, 0xC0#8, 0x95#8, 0xFC#8, 0xA9#8, 0xA5#8, 0xF0#8, 0xF0#8, 0xA5#8, 0xA9#8, 0xFC#8, 0x95#8, 0xC0#8, 0xCC#8, 0x99#8]
    ++ [0x95#8, 0xC0#8, 0xCC#8, 0x99#8, 0xF0#8, 0xA5#8, 0xA9#8, 0xFC#8, 0xFC#8, 0xA9#8, 0xA5#8, 0xF0#8, 0x99#8, 0xCC#8, 0xC0#8, 0x95#8]
    ++ [0x00#8, 0x55#8, 0x59#8, 0x0C#8, 0x65#8, 0x30#8, 0x3C#8, 0x69#8, 0x69#8, 0x3C#8, 0x30#8, 0x65#8, 0x0C#8, 0x59#8, 0x55#8, 0x00#8])
    : List Byte).getD b.toNat 0x02#8

/-- R124: the laws of the ROM: it is linear, its bit 0 is the byte's parity, its bit 1 is 0, and it reads the same from
either end. -/
def Obligations.RomIsLinear : Prop :=
  ∀ a b : Byte,
    colTab (a ^^^ b) = colTab a ^^^ colTab b
    ∧ (colTab b).getLsbD 0 = (popcount b % 2 == 1) ∧ (colTab b).getLsbD 1 = false
    ∧ colTab 0xFF#8 = 0x00#8 ∧ colTab (~~~b) = colTab b ^^^ colTab 0xFF#8 ∧ colTab (~~~b) = colTab b
    ∧ colTab (255#8 - b) = colTab b ∧ colTab 0xF0#8 = 0x00#8
    ∧ (b.toNat < 16 → colTab (0xF0#8 + b) = colTab b)

/-! ## The fixed-block Hamming commands (spec/41_fixed_hamming.md) -/

/-- R100, R101, R130, R131, R132: over a written block CALC256 completes: TECC holds the rows of R100 for the block's
parities, exchanged as R101 says, STATUS is 0x00001000, and nothing else changes. -/
def Obligations.Calc256ComputesCheckValue : Prop :=
  ∀ s : State, s.Written (dataNames 256) →
    ∃ t, exec .calc256 s = .next t
      ∧ (∀ (j : Fin 3) (k : Nat), k < 8 →
          (t.teccByte j).getLsbD k = r100Byte s.dataByte (storedRow s.params.swapCompat j) k)
      ∧ t.Written teccNames ∧ t.status = 0x00001000#32 ∧ Frame s t teccNames

/-- R133, R134: equal check values are clean: nothing but STATUS is written, whatever DATA holds. -/
def Obligations.Corr256Clean : Prop :=
  ∀ s : State, s.Written (reccNames ++ teccNames) → (∀ j, s.reccByte j = s.teccByte j) →
    ∃ t, exec .corr256 s = .next t ∧ t.status = 0x00002000#32 ∧ Frame s t []

/-- R133, R135, R136: where every pair of the deltas differs (pairs 7:6 to 1:0 of d0 and d1, pairs 7:6 to 3:2 of d2),
the bit that bits 7, 5, 3 of d2 give, in the byte that the odd bits of d1 and d0 give after the swap is undone, is
flipped; STATUS is 0x00002005, and nothing else changes. -/
def Obligations.Corr256FlipsDecodedBit : Prop :=
  ∀ (s : State) (d0 d1 d2 : Byte) (byte bit : Nat), s.Written (reccNames ++ teccNames) →
    d0 = s.reccByte 0 ^^^ s.teccByte 0 → d1 = s.reccByte 1 ^^^ s.teccByte 1 → d2 = s.reccByte 2 ^^^ s.teccByte 2 →
    (∀ m, m < 4 → d0.getLsbD (2 * m + 1) ≠ d0.getLsbD (2 * m) ∧ d1.getLsbD (2 * m + 1) ≠ d1.getLsbD (2 * m)) →
    (∀ m, 1 ≤ m → m < 4 → d2.getLsbD (2 * m + 1) ≠ d2.getLsbD (2 * m)) →
    byte < 256 → bit < 8 →
    (∀ m, m < 4 → byte.testBit m = (if s.params.swapCompat then d1 else d0).getLsbD (2 * m + 1)
      ∧ byte.testBit (m + 4) = (if s.params.swapCompat then d0 else d1).getLsbD (2 * m + 1)) →
    (∀ m, m < 3 → bit.testBit m = d2.getLsbD (2 * m + 3)) →
    s.written (.data byte) = true →
    ∃ t, exec .corr256 s = .next t ∧ t.dataByte byte = s.dataByte byte ^^^ (1#8 <<< bit)
      ∧ t.written (.data byte) = true ∧ t.status = 0x00002005#32 ∧ Frame s t [.data byte]

/-- R137: where exactly one of the 24 delta bits is set, RECC is replaced by TECC and DATA is not written; STATUS is
0x00002009. -/
def Obligations.Corr256ReplacesCheckValue : Prop :=
  ∀ s : State, s.Written (reccNames ++ teccNames) →
    popcount (s.reccByte 0 ^^^ s.teccByte 0) + popcount (s.reccByte 1 ^^^ s.teccByte 1)
      + popcount (s.reccByte 2 ^^^ s.teccByte 2) = 1 →
    ∃ t, exec .corr256 s = .next t ∧ (∀ j, t.reccByte j = s.teccByte j) ∧ t.Written reccNames
      ∧ t.status = 0x00002009#32 ∧ Frame s t reccNames

/-- R138: where some tested pair of the deltas agrees and two or more delta bits are set, the outcome is uncorrectable:
STATUS is 0x00002003 and nothing else is written. -/
def Obligations.Corr256Uncorrectable : Prop :=
  ∀ s : State, s.Written (reccNames ++ teccNames) →
    ((∃ m, m < 4 ∧ (s.reccByte 0 ^^^ s.teccByte 0).getLsbD (2 * m + 1) = (s.reccByte 0 ^^^ s.teccByte 0).getLsbD (2 * m))
      ∨ (∃ m, m < 4 ∧ (s.reccByte 1 ^^^ s.teccByte 1).getLsbD (2 * m + 1) = (s.reccByte 1 ^^^ s.teccByte 1).getLsbD (2 * m))
      ∨ (∃ m, 1 ≤ m ∧ m < 4
          ∧ (s.reccByte 2 ^^^ s.teccByte 2).getLsbD (2 * m + 1) = (s.reccByte 2 ^^^ s.teccByte 2).getLsbD (2 * m))) →
    2 ≤ popcount (s.reccByte 0 ^^^ s.teccByte 0) + popcount (s.reccByte 1 ^^^ s.teccByte 1)
      + popcount (s.reccByte 2 ^^^ s.teccByte 2) →
    ∃ t, exec .corr256 s = .next t ∧ t.status = 0x00002003#32 ∧ Frame s t []

/-- R140 (3), R136: every single data-bit error is repaired. `s` holds the block and its check value; `u` is a later
state of a core of the same build that holds the block with one bit flipped and the stored check value. -/
def Obligations.SingleDataBitErrorRepaired256 : Prop :=
  ∀ (s t u : State) (j k : Nat), exec .calc256 s = .next t → u.params = s.params →
    u.Written (dataNames 256 ++ reccNames) → (∀ i, u.reccByte i = t.teccByte i) → j < 256 → k < 8 →
    (∀ i, i < 256 → u.dataByte i = flipBit s.dataByte j k i) →
    ∃ v w, exec .calc256 u = .next v ∧ exec .corr256 v = .next w
      ∧ (∀ i, i < 256 → w.dataByte i = s.dataByte i) ∧ w.status = 0x00002005#32 ∧ Frame u w (teccNames ++ [.data j])

/-- R140 (4): every single wrong bit of the stored check value is repaired, with DATA unchanged. -/
def Obligations.SingleCheckBitErrorRepaired256 : Prop :=
  ∀ (s t u : State) (j : Fin 3) (k : Nat), exec .calc256 s = .next t → u.params = s.params →
    u.Written (dataNames 256 ++ reccNames) → k < 8 →
    (∀ i, u.reccByte i = if i = j then t.teccByte i ^^^ (1#8 <<< k) else t.teccByte i) →
    (∀ i, i < 256 → u.dataByte i = s.dataByte i) →
    ∃ v w, exec .calc256 u = .next v ∧ exec .corr256 v = .next w
      ∧ (∀ i, w.reccByte i = t.teccByte i) ∧ w.status = 0x00002009#32 ∧ Frame u w (teccNames ++ reccNames)

/-- R142: two wrong data bits with a right stored check value are always reported uncorrectable, and nothing is
corrected. -/
def Obligations.DoubleDataBitErrorDetected256 : Prop :=
  ∀ (s t u : State) (j1 k1 j2 k2 : Nat), exec .calc256 s = .next t → u.params = s.params →
    u.Written (dataNames 256 ++ reccNames) → (∀ i, u.reccByte i = t.teccByte i) →
    j1 < 256 → k1 < 8 → j2 < 256 → k2 < 8 → (j1 ≠ j2 ∨ k1 ≠ k2) →
    (∀ i, i < 256 → u.dataByte i = flipBit (flipBit s.dataByte j1 k1) j2 k2 i) →
    ∃ v w, exec .calc256 u = .next v ∧ exec .corr256 v = .next w ∧ w.status = 0x00002003#32 ∧ Frame u w teccNames

/-- R145: a check value stored by a core with the other `SWAP_COMPAT` over unchanged data is clean where bytes 0 and 1
agree and uncorrectable where they differ. -/
def Obligations.MixedSwapSettings256 : Prop :=
  ∀ s t u : State, exec .calc256 s = .next t → u.params.swapCompat = !s.params.swapCompat →
    u.Written (dataNames 256 ++ reccNames) → (∀ i, u.reccByte i = t.teccByte i) →
    (∀ i, i < 256 → u.dataByte i = s.dataByte i) →
    ∃ v w, exec .calc256 u = .next v ∧ exec .corr256 v = .next w ∧ Frame u w teccNames
      ∧ w.status = if t.teccByte 0 = t.teccByte 1 then 0x00002000#32 else 0x00002003#32

/-- R283: a data correction by CORR256 leaves the test value stale: a second CORR256 sees the same deltas, reports
CORRECTED again and flips the same bit back. -/
def Obligations.RepeatedCorrection256FlipsBack : Prop :=
  ∀ (s t : State), exec .corr256 s = .next t → t.status = 0x00002005#32 →
    ∃ w, exec .corr256 t = .next w ∧ w.status = 0x00002005#32 ∧ ∀ e, w.get e = s.get e

/-! ## The variable-length Hamming commands (spec/42_variable_hamming.md) -/

/-- R102, R160, R161: over a written region CALCN n completes in the Hamming build: TOTH holds the column parity, the
line parity and its prime at width W, STATUS is 0x00003000, and nothing else changes. n = 0 is included. -/
def Obligations.CalcnComputesCheckValue : Prop :=
  ∀ (s : State) (n : BitVec 16), s.params.wf = true → (Instr.calcn n).wf s.params = true →
    s.Written (dataNames n.toNat) →
    ∃ t, exec (.calcn n) s = .next t
      ∧ (∀ k, k < 6 → (t.get (.toth .col)).getLsbD k = columnParity n.toNat s.dataByte k)
      ∧ t.get (.toth .lp) = (lineParity s.params.w n.toNat s.dataByte).setWidth 32
      ∧ t.get (.toth .lpp) = (lineParityPrime s.params.w n.toNat s.dataByte).setWidth 32
      ∧ t.Written tothNames ∧ t.status = 0x00003000#32 ∧ Frame s t tothNames

/-- R163: equal check values are clean: nothing but STATUS is written. -/
def Obligations.CorrnClean : Prop :=
  ∀ (s : State) (n : BitVec 16), (Instr.corrn n).wf s.params = true → s.Written (rothNames ++ tothNames) →
    (∀ f, s.get (.roth f) = s.get (.toth f)) →
    ∃ t, exec (.corrn n) s = .next t ∧ t.status = 0x00004000#32 ∧ Frame s t []

/-- R162, R164: where lDelta is the W-bit complement of lDeltaPrime and every pair of cDelta differs, bit {c[5], c[3],
c[1]} of DATA[lDelta] is flipped if lDelta < n, and the outcome is uncorrectable with nothing written if lDelta ≥ n. -/
def Obligations.CorrnFlipsBitInsideRegion : Prop :=
  ∀ (s : State) (n : BitVec 16) (c l q : Word) (bit : Nat), s.Inv → (Instr.corrn n).wf s.params = true →
    s.Written (rothNames ++ tothNames) →
    c = s.get (.roth .col) ^^^ s.get (.toth .col) → l = s.get (.roth .lp) ^^^ s.get (.toth .lp) →
    q = s.get (.roth .lpp) ^^^ s.get (.toth .lpp) →
    l.toNat + q.toNat = 2 ^ s.params.w - 1 →
    (∀ m, m < 3 → c.getLsbD (2 * m + 1) ≠ c.getLsbD (2 * m)) →
    bit < 8 → (∀ m, m < 3 → bit.testBit m = c.getLsbD (2 * m + 1)) →
    (n.toNat ≤ l.toNat → ∃ t, exec (.corrn n) s = .next t ∧ t.status = 0x00004003#32 ∧ Frame s t [])
    ∧ (l.toNat < n.toNat → s.written (.data l.toNat) = true →
        ∃ t, exec (.corrn n) s = .next t ∧ t.dataByte l.toNat = s.dataByte l.toNat ^^^ (1#8 <<< bit)
          ∧ t.written (.data l.toNat) = true ∧ t.status = 0x00004005#32 ∧ Frame s t [.data l.toNat])

/-- R165: where exactly one of the 6 + 2·W delta bits is set, ROTH is replaced by TOTH and DATA is not written. -/
def Obligations.CorrnReplacesCheckValue : Prop :=
  ∀ (s : State) (n : BitVec 16), s.Inv → (Instr.corrn n).wf s.params = true →
    s.Written (rothNames ++ tothNames) →
    popcount (s.get (.roth .col) ^^^ s.get (.toth .col)) + popcount (s.get (.roth .lp) ^^^ s.get (.toth .lp))
      + popcount (s.get (.roth .lpp) ^^^ s.get (.toth .lpp)) = 1 →
    ∃ t, exec (.corrn n) s = .next t ∧ (∀ f, t.get (.roth f) = s.get (.toth f)) ∧ t.Written rothNames
      ∧ t.status = 0x00004009#32 ∧ Frame s t rothNames

/-- R167: where the signature of R164 fails and two or more delta bits are set, the outcome is uncorrectable and nothing
else is written. -/
def Obligations.CorrnUncorrectable : Prop :=
  ∀ (s : State) (n : BitVec 16) (c l q : Word), s.Inv → (Instr.corrn n).wf s.params = true →
    s.Written (rothNames ++ tothNames) →
    c = s.get (.roth .col) ^^^ s.get (.toth .col) → l = s.get (.roth .lp) ^^^ s.get (.toth .lp) →
    q = s.get (.roth .lpp) ^^^ s.get (.toth .lpp) →
    (l.toNat + q.toNat ≠ 2 ^ s.params.w - 1 ∨ ∃ m, m < 3 ∧ c.getLsbD (2 * m + 1) = c.getLsbD (2 * m)) →
    2 ≤ popcount c + popcount l + popcount q →
    ∃ t, exec (.corrn n) s = .next t ∧ t.status = 0x00004003#32 ∧ Frame s t []

/-- R169 (3), R164: every single data-bit error of a region is repaired. `s` holds the region and its check value; `u` is
a later state of a core of the same build that holds the region with one bit flipped and the stored check value. -/
def Obligations.SingleDataBitErrorRepairedN : Prop :=
  ∀ (s t u : State) (n : BitVec 16) (j k : Nat), s.params.wf = true → (Instr.calcn n).wf s.params = true →
    exec (.calcn n) s = .next t → u.params = s.params → u.Written (dataNames n.toNat ++ rothNames) →
    (∀ f, u.get (.roth f) = t.get (.toth f)) → j < n.toNat → k < 8 →
    (∀ i, i < n.toNat → u.dataByte i = flipBit s.dataByte j k i) →
    ∃ v w, exec (.calcn n) u = .next v ∧ exec (.corrn n) v = .next w
      ∧ (∀ i, i < n.toNat → w.dataByte i = s.dataByte i) ∧ w.status = 0x00004005#32
      ∧ Frame u w (tothNames ++ [.data j])

/-- R173: two wrong data bits of a region with a right stored check value are always reported uncorrectable. -/
def Obligations.DoubleDataBitErrorDetectedN : Prop :=
  ∀ (s t u : State) (n : BitVec 16) (j1 k1 j2 k2 : Nat), s.params.wf = true → (Instr.calcn n).wf s.params = true →
    exec (.calcn n) s = .next t → u.params = s.params → u.Written (dataNames n.toNat ++ rothNames) →
    (∀ f, u.get (.roth f) = t.get (.toth f)) →
    j1 < n.toNat → k1 < 8 → j2 < n.toNat → k2 < 8 → (j1 ≠ j2 ∨ k1 ≠ k2) →
    (∀ i, i < n.toNat → u.dataByte i = flipBit (flipBit s.dataByte j1 k1) j2 k2 i) →
    ∃ v w, exec (.calcn n) u = .next v ∧ exec (.corrn n) v = .next w ∧ w.status = 0x00004003#32
      ∧ Frame u w tothNames

/-- R172: CALCN leaves LPP equal to LP where the number of odd-parity bytes is even, and to its W-bit complement where it
is odd. -/
def Obligations.LineParityPrimeFollowsLineParity : Prop :=
  ∀ (s t : State) (n : BitVec 16), s.params.wf = true → (Instr.calcn n).wf s.params = true →
    exec (.calcn n) s = .next t →
    (oddCount n.toNat s.dataByte % 2 = 0 → t.get (.toth .lpp) = t.get (.toth .lp))
    ∧ (oddCount n.toNat s.dataByte % 2 = 1 →
        (t.get (.toth .lp)).toNat + (t.get (.toth .lpp)).toNat = 2 ^ s.params.w - 1)

/-! ## Symbol packing (spec/43_symbol_packing.md) -/

/-- R190, R192: PACK completes in the Reed–Solomon build over 16 written bytes: SYM holds the closed form of R190 in
either order, STATUS is 0x00007000, and nothing else changes. -/
def Obligations.PackComputesClosedForm : Prop :=
  ∀ s : State, s.params.otherVariant = .rs → s.Written (dataNames 16) →
    ∃ t, exec .pack s = .next t
      ∧ (∀ k, k < 26 → (t.symAt k).toNat = packClosed s.params.packOrder s.dataByte k)
      ∧ t.Written symNames ∧ t.status = 0x00007000#32 ∧ Frame s t symNames

/-- R191, R193: UNPACK completes in the Reed–Solomon build over 26 written symbols: stream bit m = 8·i + b of the symbols
is bit b of DATA[i] (`LSB_FIRST`) or bit 7 − b (`MSB_FIRST`), the padding bits are ignored, STATUS is 0x00008000, and
nothing else changes. -/
def Obligations.UnpackReadsSymbolStream : Prop :=
  ∀ s : State, s.params.otherVariant = .rs → s.Written symNames →
    ∃ t, exec .unpack s = .next t
      ∧ (∀ i b, i < 16 → b < 8 →
          (s.params.packOrder = .lsbFirst →
            (t.dataByte i).getLsbD b = (s.symAt ((8 * i + b) / 5)).getLsbD ((8 * i + b) % 5))
          ∧ (s.params.packOrder = .msbFirst →
            (t.dataByte i).getLsbD (7 - b) = (s.symAt ((8 * i + b) / 5)).getLsbD (4 - (8 * i + b) % 5)))
      ∧ t.Written (dataNames 16) ∧ t.status = 0x00008000#32 ∧ Frame s t (dataNames 16)

/-- R194: the round trips. UNPACK of a PACK gives the 16 bytes back, whatever DATA held meanwhile; PACK after UNPACK gives
the 26 symbols back, with the padding bits of SYM[25] cleared. -/
def Obligations.PackingRoundTrips : Prop :=
  (∀ s t u : State, s.params.otherVariant = .rs → exec .pack s = .next t → u.params = s.params → u.Written symNames →
    (∀ k, k < 26 → u.symAt k = t.symAt k) →
    ∃ v, exec .unpack u = .next v ∧ ∀ i, i < 16 → v.dataByte i = s.dataByte i)
  ∧ (∀ s t : State, s.params.otherVariant = .rs → exec .unpack s = .next t →
    ∃ v, exec .pack t = .next v ∧ (∀ k, k < 25 → v.symAt k = s.symAt k)
      ∧ v.symAt 25 = s.symAt 25 &&& (match s.params.packOrder with | .lsbFirst => 0x07#5 | .msbFirst => 0x1C#5))

/-! ## The Reed–Solomon commands (spec/44_reed_solomon.md) -/

/-- R200 to R203: the exponents and logarithms of α, and multiplication and inversion through them. -/
def Obligations.FieldTables : Prop :=
  alphaPow 0 = 1#5 ∧ (∀ k, alphaPow (k + 1) = gfMul (alphaPow k) 0x02#5) ∧ (∀ k, alphaPow (k + 31) = alphaPow k)
  ∧ (∀ k, k < 31 → gfLog (alphaPow k) = k) ∧ (∀ v : Sym, v ≠ 0#5 → gfLog v < 31 ∧ alphaPow (gfLog v) = v)
  ∧ (∀ a b : Sym, gfMul a b = if a = 0#5 ∨ b = 0#5 then 0#5 else alphaPow ((gfLog a + gfLog b) % 31))
  ∧ (∀ a : Sym, a ≠ 0#5 → gfInv a = alphaPow ((31 - gfLog a) % 31) ∧ gfMul a (gfInv a) = 1#5)

/-- R204, R205, R206: CALCRS completes in the Reed–Solomon build over 16 written bytes: with the parity it leaves in TPAR
the codeword of the packed data is a multiple of g(x), its value at α^0 to α^3 being 0; STATUS is 0x00005000, and nothing
else changes. -/
def Obligations.CalcrsMakesCodeword : Prop :=
  ∀ s : State, s.params.otherVariant = .rs → s.Written (dataNames 16) →
    ∃ t, exec .calcrs s = .next t ∧ (∀ i, i < 4 → codewordAt s.packed t.tparSym i = 0#5)
      ∧ t.Written tparNames ∧ t.status = 0x00005000#32 ∧ Frame s t tparNames

/-- R207, R208: equal parities are clean: nothing but STATUS is written, whatever DATA holds. -/
def Obligations.CorrrsClean : Prop :=
  ∀ s : State, s.params.otherVariant = .rs → s.Written (dataNames 16 ++ rparNames ++ tparNames) →
    (∀ j, s.rparSym j = s.tparSym j) →
    ∃ t, exec .corrrs s = .next t ∧ t.status = 0x00006000#32 ∧ Frame s t []

/-- R207, R208, R210, R211: where a pattern of 1 or 2 errors explains the syndromes, CORRRS applies it: parity symbol
3 − d is corrected at a degree d < 4 and data symbol 29 − d at a degree d ≥ 4, DATA is unpacked from the corrected symbols,
and STATUS counts the pairs and says which side was fixed. -/
def Obligations.CorrrsAppliesExplainingPattern : Prop :=
  ∀ (s : State) (e : Pattern), s.params.otherVariant = .rs → s.Written (dataNames 16 ++ rparNames ++ tparNames) →
    Pattern.Valid e → (e.length = 1 ∨ e.length = 2) → Explains e s →
    ∃ t, exec .corrrs s = .next t
      ∧ (∀ j : Fin 4, t.rparSym j = s.rparSym j ^^^ Pattern.at e (3 - j))
      ∧ (Pattern.hasData e = true → ∀ i, i < 16 →
          t.dataByte i = unpackSym s.params.packOrder (fun k => s.packed k ^^^ Pattern.at e (29 - k)) i)
      ∧ t.status = statusWord 0x6#4 (BitVec.ofNat 2 e.length) (Pattern.hasParity e) (Pattern.hasData e) .corrected
      ∧ Frame s t (patternWrites (some e))

/-- R208: where the syndromes are not all 0 and no pattern of 1 or 2 errors explains them, the outcome is uncorrectable:
STATUS is 0x00006003 and nothing else is written. -/
def Obligations.CorrrsUncorrectable : Prop :=
  ∀ s : State, s.params.otherVariant = .rs → s.Written (dataNames 16 ++ rparNames ++ tparNames) →
    (∃ i, i < 4 ∧ s.syndrome i ≠ 0#5) →
    (∀ e : Pattern, Pattern.Valid e → (e.length = 1 ∨ e.length = 2) → ¬Explains e s) →
    ∃ t, exec .corrrs s = .next t ∧ t.status = 0x00006003#32 ∧ Frame s t []

/-- R213, first half: at most 2 wrong data symbols with the right stored parity are restored exactly, RSCOUNT is their
number (0: clean), and only TPAR and DATA[0..15] change. `s` holds the data and its parity; `u` is a later state of a core
of the same build. -/
def Obligations.TwoSymbolErrorsRepaired : Prop :=
  ∀ s t u : State, s.params.otherVariant = .rs → exec .calcrs s = .next t → u.params = s.params →
    u.Written (dataNames 16 ++ rparNames) → (∀ j, u.rparSym j = t.tparSym j) → symbolDistance u.packed s.packed ≤ 2 →
    ∃ v w, exec .calcrs u = .next v ∧ exec .corrrs v = .next w
      ∧ (∀ i, i < 16 → w.dataByte i = s.dataByte i)
      ∧ w.status = (if symbolDistance u.packed s.packed = 0 then 0x00006000#32
          else statusWord 0x6#4 (BitVec.ofNat 2 (symbolDistance u.packed s.packed)) false true .corrected)
      ∧ Frame u w (tparNames ++ dataNames 16)
end

