-- ==== Sys2Proof/Laws/Memory.lean ====
section
/-!
SUPPORT. DATA as a list of cells: a read after a write, the canonical form and its bound (spec/10_state.md R29, R41).
-/

namespace Sys2Proof.Machine

/-- A read after a write gives the byte written, and every other byte reads as before. -/
theorem Memory.read_write (m : Memory) (i j : Nat) (v : Byte) :
    (m.write i v).read j = if j = i then some v else m.read j := by
  induction m with
  | nil => by_cases h : i = j <;> simp [Memory.write, Memory.read, h, eq_comm]
  | cons c rest ih =>
    obtain ⟨k, u⟩ := c
    unfold Memory.write
    split
    · by_cases h : i = j <;> simp [Memory.read, h, eq_comm]
    · split
      · rename_i h2
        subst h2
        by_cases h : i = j <;> simp [Memory.read, h, eq_comm]
      · rename_i h2
        simp only [Memory.read, ih]
        by_cases h : k = j
        · subst h
          simp [Ne.symm h2]
        · simp [h]

/-- The indices after a write are those before and the one written. -/
theorem Memory.mem_write (m : Memory) (i : Nat) (v : Byte) (x : Host.Cell) (h : x ∈ m.write i v) :
    x = (i, v) ∨ x ∈ m := by
  induction m with
  | nil => simpa [Memory.write] using h
  | cons c rest ih =>
    obtain ⟨k, u⟩ := c
    unfold Memory.write at h
    split at h
    · simpa using h
    · split at h
      · rcases List.mem_cons.mp h with h | h
        · exact .inl h
        · exact .inr (List.mem_cons_of_mem _ h)
      · rcases List.mem_cons.mp h with h | h
        · exact .inr (h ▸ List.mem_cons_self ..)
        · exact (ih h).imp id (List.mem_cons_of_mem _)

/-- A write keeps the canonical form. -/
theorem Memory.wf_write (m : Memory) (i : Nat) (v : Byte) (h : m.wf = true) : (m.write i v).wf = true := by
  simp only [Memory.wf, decide_eq_true_eq] at h ⊢
  induction m with
  | nil => simp [Memory.write]
  | cons c rest ih =>
    obtain ⟨k, u⟩ := c
    obtain ⟨hk, hrest⟩ := List.pairwise_cons.mp h
    unfold Memory.write
    split
    · rename_i hlt
      refine List.pairwise_cons.mpr ⟨fun x hx => ?_, h⟩
      rcases List.mem_cons.mp hx with rfl | hx
      · exact hlt
      · exact Nat.lt_trans hlt (hk x hx)
    · split
      · rename_i heq
        subst heq
        exact List.pairwise_cons.mpr ⟨hk, hrest⟩
      · refine List.pairwise_cons.mpr ⟨fun x hx => ?_, ih hrest⟩
        rcases Memory.mem_write rest i v x hx with rfl | hx
        · simp only
          omega
        · exact hk x hx

/-- A write below the bound keeps every index below it. -/
theorem Memory.bounded_write (m : Memory) (i n : Nat) (v : Byte) (hi : i < n) (h : ∀ x ∈ m, x.1 < n) :
    ∀ x ∈ m.write i v, x.1 < n := by
  intro x hx
  rcases Memory.mem_write m i v x hx with rfl | hx
  · exact hi
  · exact h x hx

end Sys2Proof.Machine
end

