-- ==== Sys2Proof/Laws/State.lean ====
section
/-!
SUPPORT. One lemma per field of State per update, true by rfl, and the reads of an element after an update that writes
no element. Later proofs cite these and unfold no record update.
-/

namespace Sys2Proof.Machine

/-! ## setStatus -/

@[simp] theorem State.setStatus_params (s : State) (v : Word) : (s.setStatus v).params = s.params := rfl
@[simp] theorem State.setStatus_cmd (s : State) (v : Word) : (s.setStatus v).cmd = s.cmd := rfl
@[simp] theorem State.setStatus_status (s : State) (v : Word) : (s.setStatus v).status = v := rfl
@[simp] theorem State.setStatus_data (s : State) (v : Word) : (s.setStatus v).data = s.data := rfl
@[simp] theorem State.setStatus_recc (s : State) (v : Word) : (s.setStatus v).recc = s.recc := rfl
@[simp] theorem State.setStatus_tecc (s : State) (v : Word) : (s.setStatus v).tecc = s.tecc := rfl
@[simp] theorem State.setStatus_roth (s : State) (v : Word) : (s.setStatus v).roth = s.roth := rfl
@[simp] theorem State.setStatus_toth (s : State) (v : Word) : (s.setStatus v).toth = s.toth := rfl
@[simp] theorem State.setStatus_rpar (s : State) (v : Word) : (s.setStatus v).rpar = s.rpar := rfl
@[simp] theorem State.setStatus_tpar (s : State) (v : Word) : (s.setStatus v).tpar = s.tpar := rfl
@[simp] theorem State.setStatus_sym (s : State) (v : Word) : (s.setStatus v).sym = s.sym := rfl
@[simp] theorem State.setStatus_host (s : State) (v : Word) : (s.setStatus v).host = s.host := rfl
@[simp] theorem State.setStatus_resp (s : State) (v : Word) : (s.setStatus v).resp = s.resp := rfl
@[simp] theorem State.setStatus_freeCount (s : State) (v : Word) : (s.setStatus v).freeCount = s.freeCount := rfl
@[simp] theorem State.setStatus_get (s : State) (v : Word) (e : ElemName) : (s.setStatus v).get e = s.get e := by cases e <;> rfl
@[simp] theorem State.setStatus_written (s : State) (v : Word) (e : ElemName) : (s.setStatus v).written e = s.written e := by
  cases e <;> rfl

/-! ## setCmd -/

@[simp] theorem State.setCmd_params (s : State) (v : Word) : (s.setCmd v).params = s.params := rfl
@[simp] theorem State.setCmd_cmd (s : State) (v : Word) : (s.setCmd v).cmd = v := rfl
@[simp] theorem State.setCmd_status (s : State) (v : Word) : (s.setCmd v).status = s.status := rfl
@[simp] theorem State.setCmd_data (s : State) (v : Word) : (s.setCmd v).data = s.data := rfl
@[simp] theorem State.setCmd_recc (s : State) (v : Word) : (s.setCmd v).recc = s.recc := rfl
@[simp] theorem State.setCmd_tecc (s : State) (v : Word) : (s.setCmd v).tecc = s.tecc := rfl
@[simp] theorem State.setCmd_roth (s : State) (v : Word) : (s.setCmd v).roth = s.roth := rfl
@[simp] theorem State.setCmd_toth (s : State) (v : Word) : (s.setCmd v).toth = s.toth := rfl
@[simp] theorem State.setCmd_rpar (s : State) (v : Word) : (s.setCmd v).rpar = s.rpar := rfl
@[simp] theorem State.setCmd_tpar (s : State) (v : Word) : (s.setCmd v).tpar = s.tpar := rfl
@[simp] theorem State.setCmd_sym (s : State) (v : Word) : (s.setCmd v).sym = s.sym := rfl
@[simp] theorem State.setCmd_host (s : State) (v : Word) : (s.setCmd v).host = s.host := rfl
@[simp] theorem State.setCmd_resp (s : State) (v : Word) : (s.setCmd v).resp = s.resp := rfl
@[simp] theorem State.setCmd_freeCount (s : State) (v : Word) : (s.setCmd v).freeCount = s.freeCount := rfl
@[simp] theorem State.setCmd_get (s : State) (v : Word) (e : ElemName) : (s.setCmd v).get e = s.get e := by cases e <;> rfl
@[simp] theorem State.setCmd_written (s : State) (v : Word) (e : ElemName) : (s.setCmd v).written e = s.written e := by
  cases e <;> rfl

/-! ## setResp -/

@[simp] theorem State.setResp_params (s : State) (r : BusResp) : (s.setResp r).params = s.params := rfl
@[simp] theorem State.setResp_cmd (s : State) (r : BusResp) : (s.setResp r).cmd = s.cmd := rfl
@[simp] theorem State.setResp_status (s : State) (r : BusResp) : (s.setResp r).status = s.status := rfl
@[simp] theorem State.setResp_data (s : State) (r : BusResp) : (s.setResp r).data = s.data := rfl
@[simp] theorem State.setResp_recc (s : State) (r : BusResp) : (s.setResp r).recc = s.recc := rfl
@[simp] theorem State.setResp_tecc (s : State) (r : BusResp) : (s.setResp r).tecc = s.tecc := rfl
@[simp] theorem State.setResp_roth (s : State) (r : BusResp) : (s.setResp r).roth = s.roth := rfl
@[simp] theorem State.setResp_toth (s : State) (r : BusResp) : (s.setResp r).toth = s.toth := rfl
@[simp] theorem State.setResp_rpar (s : State) (r : BusResp) : (s.setResp r).rpar = s.rpar := rfl
@[simp] theorem State.setResp_tpar (s : State) (r : BusResp) : (s.setResp r).tpar = s.tpar := rfl
@[simp] theorem State.setResp_sym (s : State) (r : BusResp) : (s.setResp r).sym = s.sym := rfl
@[simp] theorem State.setResp_host (s : State) (r : BusResp) : (s.setResp r).host = s.host := rfl
@[simp] theorem State.setResp_resp (s : State) (r : BusResp) : (s.setResp r).resp = r := rfl
@[simp] theorem State.setResp_freeCount (s : State) (r : BusResp) : (s.setResp r).freeCount = s.freeCount := rfl
@[simp] theorem State.setResp_get (s : State) (r : BusResp) (e : ElemName) : (s.setResp r).get e = s.get e := by cases e <;> rfl
@[simp] theorem State.setResp_written (s : State) (r : BusResp) (e : ElemName) : (s.setResp r).written e = s.written e := by
  cases e <;> rfl

/-! ## setHost -/

@[simp] theorem State.setHost_params (s : State) (h : List HostOp) : (s.setHost h).params = s.params := rfl
@[simp] theorem State.setHost_cmd (s : State) (h : List HostOp) : (s.setHost h).cmd = s.cmd := rfl
@[simp] theorem State.setHost_status (s : State) (h : List HostOp) : (s.setHost h).status = s.status := rfl
@[simp] theorem State.setHost_data (s : State) (h : List HostOp) : (s.setHost h).data = s.data := rfl
@[simp] theorem State.setHost_recc (s : State) (h : List HostOp) : (s.setHost h).recc = s.recc := rfl
@[simp] theorem State.setHost_tecc (s : State) (h : List HostOp) : (s.setHost h).tecc = s.tecc := rfl
@[simp] theorem State.setHost_roth (s : State) (h : List HostOp) : (s.setHost h).roth = s.roth := rfl
@[simp] theorem State.setHost_toth (s : State) (h : List HostOp) : (s.setHost h).toth = s.toth := rfl
@[simp] theorem State.setHost_rpar (s : State) (h : List HostOp) : (s.setHost h).rpar = s.rpar := rfl
@[simp] theorem State.setHost_tpar (s : State) (h : List HostOp) : (s.setHost h).tpar = s.tpar := rfl
@[simp] theorem State.setHost_sym (s : State) (h : List HostOp) : (s.setHost h).sym = s.sym := rfl
@[simp] theorem State.setHost_host (s : State) (h : List HostOp) : (s.setHost h).host = h := rfl
@[simp] theorem State.setHost_resp (s : State) (h : List HostOp) : (s.setHost h).resp = s.resp := rfl
@[simp] theorem State.setHost_freeCount (s : State) (h : List HostOp) : (s.setHost h).freeCount = s.freeCount := rfl
@[simp] theorem State.setHost_get (s : State) (h : List HostOp) (e : ElemName) : (s.setHost h).get e = s.get e := by cases e <;> rfl
@[simp] theorem State.setHost_written (s : State) (h : List HostOp) (e : ElemName) : (s.setHost h).written e = s.written e := by
  cases e <;> rfl

/-! ## tick -/

@[simp] theorem State.tick_params (s : State) : s.tick.params = s.params := rfl
@[simp] theorem State.tick_cmd (s : State) : s.tick.cmd = s.cmd := rfl
@[simp] theorem State.tick_status (s : State) : s.tick.status = s.status := rfl
@[simp] theorem State.tick_data (s : State) : s.tick.data = s.data := rfl
@[simp] theorem State.tick_recc (s : State) : s.tick.recc = s.recc := rfl
@[simp] theorem State.tick_tecc (s : State) : s.tick.tecc = s.tecc := rfl
@[simp] theorem State.tick_roth (s : State) : s.tick.roth = s.roth := rfl
@[simp] theorem State.tick_toth (s : State) : s.tick.toth = s.toth := rfl
@[simp] theorem State.tick_rpar (s : State) : s.tick.rpar = s.rpar := rfl
@[simp] theorem State.tick_tpar (s : State) : s.tick.tpar = s.tpar := rfl
@[simp] theorem State.tick_sym (s : State) : s.tick.sym = s.sym := rfl
@[simp] theorem State.tick_host (s : State) : s.tick.host = s.host := rfl
@[simp] theorem State.tick_resp (s : State) : s.tick.resp = s.resp := rfl
@[simp] theorem State.tick_freeCount (s : State) : s.tick.freeCount = s.freeCount + 1 := rfl
@[simp] theorem State.tick_get (s : State) (e : ElemName) : s.tick.get e = s.get e := by cases e <;> rfl
@[simp] theorem State.tick_written (s : State) (e : ElemName) : s.tick.written e = s.written e := by
  cases e <;> rfl

/-! ## Reset -/

/-- Reset clears every written flag (R41). -/
@[simp] theorem State.resetWith_written (p : Params) (e : ElemName) : (State.resetWith p).written e = false := by
  cases e with
  | data i => rfl
  | roth f => cases f <;> rfl
  | toth f => cases f <;> rfl
  | _ => simp [State.written, State.resetWith, Elem.unwritten]

@[simp] theorem State.platformReset_params (s : State) : s.platformReset.params = s.params := rfl
@[simp] theorem State.platformReset_cmd (s : State) : s.platformReset.cmd = 0#32 := rfl
@[simp] theorem State.platformReset_status (s : State) : s.platformReset.status = 0#32 := rfl
@[simp] theorem State.platformReset_data (s : State) : s.platformReset.data = [] := rfl
@[simp] theorem State.platformReset_roth (s : State) : s.platformReset.roth = VarCheck.unwritten := rfl
@[simp] theorem State.platformReset_toth (s : State) : s.platformReset.toth = VarCheck.unwritten := rfl
@[simp] theorem State.platformReset_host (s : State) : s.platformReset.host = s.host := rfl
@[simp] theorem State.platformReset_resp (s : State) : s.platformReset.resp = .idle := rfl
@[simp] theorem State.platformReset_freeCount (s : State) : s.platformReset.freeCount = s.freeCount := rfl

@[simp] theorem State.platformReset_get (s : State) (e : ElemName) :
    s.platformReset.get e = (State.resetWith s.params).get e := by cases e <;> rfl

@[simp] theorem State.platformReset_written (s : State) (e : ElemName) : s.platformReset.written e = false := by
  rw [show s.platformReset.written e = (State.resetWith s.params).written e by cases e <;> rfl, State.resetWith_written]

/-! ## put -/

@[simp] theorem State.put_params (s : State) (e : ElemName) (v : Word) : (s.put e v).params = s.params := by cases e <;> rfl
@[simp] theorem State.put_cmd (s : State) (e : ElemName) (v : Word) : (s.put e v).cmd = s.cmd := by cases e <;> rfl
@[simp] theorem State.put_status (s : State) (e : ElemName) (v : Word) : (s.put e v).status = s.status := by cases e <;> rfl
@[simp] theorem State.put_host (s : State) (e : ElemName) (v : Word) : (s.put e v).host = s.host := by cases e <;> rfl
@[simp] theorem State.put_resp (s : State) (e : ElemName) (v : Word) : (s.put e v).resp = s.resp := by cases e <;> rfl
@[simp] theorem State.put_freeCount (s : State) (e : ElemName) (v : Word) : (s.put e v).freeCount = s.freeCount := by cases e <;> rfl

/-! ## putAll -/

@[simp] theorem State.putAll_nil (s : State) : s.putAll [] = s := rfl

@[simp] theorem State.putAll_cons (s : State) (e : ElemName) (v : Word) (ws : List (ElemName × Word)) :
    s.putAll ((e, v) :: ws) = (s.put e v).putAll ws := rfl

@[simp] theorem State.putAll_params (s : State) (ws : List (ElemName × Word)) : (s.putAll ws).params = s.params := by
  induction ws generalizing s with
  | nil => rfl
  | cons x ws ih => obtain ⟨e, v⟩ := x; simp [ih]

@[simp] theorem State.putAll_cmd (s : State) (ws : List (ElemName × Word)) : (s.putAll ws).cmd = s.cmd := by
  induction ws generalizing s with
  | nil => rfl
  | cons x ws ih => obtain ⟨e, v⟩ := x; simp [ih]

@[simp] theorem State.putAll_status (s : State) (ws : List (ElemName × Word)) : (s.putAll ws).status = s.status := by
  induction ws generalizing s with
  | nil => rfl
  | cons x ws ih => obtain ⟨e, v⟩ := x; simp [ih]

@[simp] theorem State.putAll_host (s : State) (ws : List (ElemName × Word)) : (s.putAll ws).host = s.host := by
  induction ws generalizing s with
  | nil => rfl
  | cons x ws ih => obtain ⟨e, v⟩ := x; simp [ih]

@[simp] theorem State.putAll_resp (s : State) (ws : List (ElemName × Word)) : (s.putAll ws).resp = s.resp := by
  induction ws generalizing s with
  | nil => rfl
  | cons x ws ih => obtain ⟨e, v⟩ := x; simp [ih]

@[simp] theorem State.putAll_freeCount (s : State) (ws : List (ElemName × Word)) : (s.putAll ws).freeCount = s.freeCount := by
  induction ws generalizing s with
  | nil => rfl
  | cons x ws ih => obtain ⟨e, v⟩ := x; simp [ih]

end Sys2Proof.Machine
end

