-- ==== Sys2Proof/Laws/Ops.lean ====
section
/-!
SUPPORT. One specification lemma per shared operation of Machine/Ops.lean: reading after writing an element
(spec/10_state.md R37, R41), the written-flag check (spec/60_exceptions.md R245), the end of a command, the gate of
R95 and R96. The provers cite these and unfold no operation.
-/

namespace Sys2Proof.Machine

/-! ## keepLow -/

theorem keepLow_getLsbD (w : Nat) (v : Word) (k : Nat) : (keepLow w v).getLsbD k = (decide (k < w) && v.getLsbD k) := by
  by_cases h : k < 32
  · simp [keepLow, BitVec.getLsbD_setWidth, h]
  · simp [keepLow, BitVec.getLsbD_setWidth, h, BitVec.getLsbD_of_ge v k (by omega)]

@[simp] theorem keepLow_keepLow (w : Nat) (v : Word) : keepLow w (keepLow w v) = keepLow w v := by
  apply BitVec.eq_of_getLsbD_eq
  intro k _
  simp [keepLow_getLsbD]

theorem keepLow_of_le (w : Nat) (v : Word) (h : 32 ≤ w) : keepLow w v = v := by
  apply BitVec.eq_of_getLsbD_eq
  intro k hk
  have : k < w := by omega
  simp [keepLow_getLsbD, this]

/-! ## Elements -/

theorem VarCheck.get_put (w : Nat) (c : VarCheck) (f g : VarField) (v : Word) :
    (c.put w f v).get g = if g = f then (match f with | .col => keepLow 6 v | .lp => keepLow w v | .lpp => keepLow w v)
      else c.get g := by
  cases f <;> cases g <;> rfl

theorem VarCheck.written_put (w : Nat) (c : VarCheck) (f g : VarField) (v : Word) :
    (c.put w f v).written g = if g = f then true else c.written g := by
  cases f <;> cases g <;> rfl

/-- A read after a write of an element: it gives the low bits written, and every other element reads as before. -/
theorem State.get_put (s : State) (e f : ElemName) (v : Word) :
    (s.put e v).get f = if f = e then keepLow (e.width s.params) v else s.get f := by
  cases e <;> cases f <;>
    simp [State.put, State.get, Memory.read_write, VarCheck.get_put, Vector.getElem_set, ElemName.width, Elem.of]
  case data.data i j => by_cases h : j = i <;> simp [h, keepLow]
  case recc.recc i j => rcases eq_or_ne i j with rfl | h <;> simp [*, keepLow, Fin.val_inj, Ne.symm]
  case tecc.tecc i j => rcases eq_or_ne i j with rfl | h <;> simp [*, keepLow, Fin.val_inj, Ne.symm]
  case rpar.rpar i j => rcases eq_or_ne i j with rfl | h <;> simp [*, keepLow, Fin.val_inj, Ne.symm]
  case tpar.tpar i j => rcases eq_or_ne i j with rfl | h <;> simp [*, keepLow, Fin.val_inj, Ne.symm]
  case sym.sym i j => rcases eq_or_ne i j with rfl | h <;> simp [*, keepLow, Fin.val_inj, Ne.symm]
  case roth.roth i j => cases i <;> cases j <;> simp
  case toth.toth i j => cases i <;> cases j <;> simp

/-- A write of an element sets its flag and no other. -/
theorem State.written_put (s : State) (e f : ElemName) (v : Word) :
    (s.put e v).written f = if f = e then true else s.written f := by
  cases e <;> cases f <;>
    simp [State.put, State.written, Memory.read_write, VarCheck.written_put, Vector.getElem_set, Elem.of]
  case data.data i j => by_cases h : j = i <;> simp [h]
  case recc.recc i j => rcases eq_or_ne i j with rfl | h <;> simp [*, Fin.val_inj, Ne.symm]
  case tecc.tecc i j => rcases eq_or_ne i j with rfl | h <;> simp [*, Fin.val_inj, Ne.symm]
  case rpar.rpar i j => rcases eq_or_ne i j with rfl | h <;> simp [*, Fin.val_inj, Ne.symm]
  case tpar.tpar i j => rcases eq_or_ne i j with rfl | h <;> simp [*, Fin.val_inj, Ne.symm]
  case sym.sym i j => rcases eq_or_ne i j with rfl | h <;> simp [*, Fin.val_inj, Ne.symm]

theorem State.get_put_self (s : State) (e : ElemName) (v : Word) : (s.put e v).get e = keepLow (e.width s.params) v := by
  simp [State.get_put]

theorem State.get_put_of_ne (s : State) (e f : ElemName) (v : Word) (h : f ≠ e) : (s.put e v).get f = s.get f := by
  simp [State.get_put, h]

theorem State.written_put_of_ne (s : State) (e f : ElemName) (v : Word) (h : f ≠ e) :
    (s.put e v).written f = s.written f := by
  simp [State.written_put, h]

/-- The value that a list of writes leaves in an element, where it writes it: the last one. -/
def lastWrite (ws : List (ElemName × Word)) (e : ElemName) : Option Word :=
  ws.foldl (fun r x => if e = x.1 then some x.2 else r) none

theorem foldl_lastWrite (ws : List (ElemName × Word)) (e : ElemName) (r : Option Word) :
    ws.foldl (fun r x => if e = x.1 then some x.2 else r) r = (lastWrite ws e).or r := by
  unfold lastWrite
  induction ws generalizing r with
  | nil => simp
  | cons x ws ih =>
    simp only [List.foldl_cons]
    rw [ih, ih (if e = x.1 then some x.2 else none)]
    by_cases h : e = x.1 <;> simp [h]

theorem lastWrite_cons (e f : ElemName) (v : Word) (ws : List (ElemName × Word)) :
    lastWrite ((f, v) :: ws) e = (lastWrite ws e).or (if e = f then some v else none) := by
  rw [lastWrite, List.foldl_cons, foldl_lastWrite]

theorem lastWrite_eq_none (ws : List (ElemName × Word)) (e : ElemName) :
    lastWrite ws e = none ↔ e ∉ ws.map Prod.fst := by
  induction ws with
  | nil => simp [lastWrite]
  | cons x ws ih =>
    obtain ⟨f, v⟩ := x
    by_cases h : e = f <;> simp [lastWrite_cons, h, ih]

/-- An element after several writes: the low bits of the last value written to it, or as before. -/
theorem State.get_putAll (s : State) (ws : List (ElemName × Word)) (e : ElemName) :
    (s.putAll ws).get e = ((lastWrite ws e).map (keepLow (e.width s.params))).getD (s.get e) := by
  induction ws generalizing s with
  | nil => simp [lastWrite]
  | cons x ws ih =>
    obtain ⟨f, v⟩ := x
    rw [State.putAll_cons, ih, lastWrite_cons, State.put_params, State.get_put]
    by_cases h : e = f
    · subst h
      cases lastWrite ws e <;> simp
    · simp [h]

theorem State.written_putAll (s : State) (ws : List (ElemName × Word)) (e : ElemName) :
    (s.putAll ws).written e = (decide (e ∈ ws.map Prod.fst) || s.written e) := by
  induction ws generalizing s with
  | nil => simp
  | cons x ws ih =>
    obtain ⟨f, v⟩ := x
    rw [State.putAll_cons, ih, State.written_put]
    by_cases h : e = f <;> simp [h]

/-- An element that no write names is unchanged. -/
theorem State.get_putAll_of_not_mem (s : State) (ws : List (ElemName × Word)) (e : ElemName)
    (h : e ∉ ws.map Prod.fst) : (s.putAll ws).get e = s.get e := by
  rw [State.get_putAll, (lastWrite_eq_none ws e).mpr h]
  rfl

theorem State.written_putAll_of_not_mem (s : State) (ws : List (ElemName × Word)) (e : ElemName)
    (h : e ∉ ws.map Prod.fst) : (s.putAll ws).written e = s.written e := by
  rw [State.written_putAll, decide_eq_false h, Bool.false_or]

/-! ## The check of written flags -/

theorem State.mem_unwrittenOf (s : State) (es : List ElemName) (e : ElemName) :
    e ∈ s.unwrittenOf es ↔ e ∈ es ∧ s.written e = false := by
  simp [State.unwrittenOf]

/-- The fault names an element of the list it is raised over. -/
theorem uninitRead_mem (c : Nat) (e : ElemName) (rest : List ElemName) :
    ∃ f ∈ e :: rest, uninitRead c e rest = .fault (.uninitRead f) := by
  have hlt : Config.freeIndex c % (rest.length + 1) < (e :: rest).length := Nat.mod_lt _ (Nat.succ_pos _)
  exact ⟨_, List.getElem_mem hlt, by rw [uninitRead, List.getD_eq_getElem _ _ hlt]⟩

/-- All of `guardReads`: it goes on when every element is written, and else faults, naming an unwritten one (R245). -/
theorem guardReads_cases (es : List ElemName) (s : State) (k : Out) :
    ((∀ e ∈ es, s.written e = true) ∧ guardReads es s k = k) ∨
    (∃ e ∈ es, s.written e = false ∧ guardReads es s k = .fault (.uninitRead e)) := by
  unfold guardReads
  split
  · rename_i h
    refine .inl ⟨fun e he => ?_, rfl⟩
    by_contra hne
    have : e ∈ s.unwrittenOf es := (s.mem_unwrittenOf es e).mpr ⟨he, by simpa using hne⟩
    simp [h] at this
  · rename_i e rest h
    obtain ⟨f, hf, heq⟩ := uninitRead_mem s.freeCount e rest
    obtain ⟨hmem, hw⟩ := (s.mem_unwrittenOf es f).mp (h ▸ hf)
    exact .inr ⟨f, hmem, hw, heq⟩

theorem guardReads_of_written (es : List ElemName) (s : State) (k : Out) (h : ∀ e ∈ es, s.written e = true) :
    guardReads es s k = k := by
  rcases guardReads_cases es s k with ⟨_, hk⟩ | ⟨e, he, hw, _⟩
  · exact hk
  · simp [h e he] at hw

/-- Where an element is unwritten, the outcome is the fault, whatever would follow (R245). -/
theorem guardReads_of_unwritten (es : List ElemName) (s : State) (k : Out) (e : ElemName) (he : e ∈ es)
    (hw : s.written e = false) : ∃ f ∈ es, s.written f = false ∧ guardReads es s k = .fault (.uninitRead f) := by
  rcases guardReads_cases es s k with ⟨h, _⟩ | h
  · simp [h e he] at hw
  · exact h

theorem guardReads_next (es : List ElemName) (s t : State) (k : Out) (h : guardReads es s k = .next t) :
    (∀ e ∈ es, s.written e = true) ∧ k = .next t := by
  rcases guardReads_cases es s k with ⟨hall, hk⟩ | ⟨e, _, _, hf⟩
  · exact ⟨hall, hk ▸ h⟩
  · simp [hf] at h

/-! ## The gate of R95 and R96 -/

/-- All of `ifAdmitted`: the command goes on, or its word is refused. -/
theorem ifAdmitted_cases (i : Instr) (s : State) (k : Out) :
    (buildRefusal s.params i = none ∧ ifAdmitted i s k = k) ∨
    (buildRefusal s.params i ≠ none ∧ ifAdmitted i s k = .next (illegalCmd i.opcode s)) := by
  unfold ifAdmitted
  cases h : buildRefusal s.params i <;> simp

theorem ifAdmitted_of_admitted (i : Instr) (s : State) (k : Out) (h : buildRefusal s.params i = none) :
    ifAdmitted i s k = k := by
  simp [ifAdmitted, h]

theorem ifAdmitted_of_refused (i : Instr) (s : State) (k : Out) (h : buildRefusal s.params i ≠ none) :
    ifAdmitted i s k = .next (illegalCmd i.opcode s) := by
  rcases ifAdmitted_cases i s k with ⟨h', _⟩ | ⟨_, h'⟩
  · exact absurd h' h
  · exact h'

/-- The gate is well-formedness for the build. -/
theorem buildRefusal_eq_none_iff (p : Params) (i : Instr) : buildRefusal p i = none ↔ i.wf p = true := by
  cases i <;> cases hv : p.otherVariant <;>
    simp [buildRefusal, varLenRefusal, rsRefusal, Instr.available, Instr.wf, Instr.lenLegal, hv]

/-! ## The end of a command -/

theorem complete_eq (ws : List (ElemName × Word)) (st : Word) (s : State) :
    complete ws st s = .next ((s.putAll ws).setStatus st) := rfl

end Sys2Proof.Machine
end

