-- ==== Sys2Proof/Laws/Commands.lean ====
section
/-!
SUPPORT. What an accepted command can do, said once: it faults on an unwritten element it would read, or it completes
with a list of writes and a legal STATUS (spec/10_state.md R28, R42, spec/60_exceptions.md R245). Every frame and
invariant of the commands rests on `commandBody_cases`.
-/

namespace Sys2Proof.Machine

/-- An accepted command: its meaning behind the gate of R95 and R96. -/
def commandBody : Instr → State → Out
  | .calc256, s => guardReads (dataNames 256) s (complete (calc256Writes s) (statusDone .calc256) s)
  | .corr256, s =>
    guardReads (reccNames ++ teccNames) s (finishCorrect .corr256 (corr256Replace s) s.verdict256 s)
  | .calcn n, s => guardReads (dataNames n.toNat) s (complete (calcnWrites n s) (statusDone (.calcn n)) s)
  | .corrn n, s =>
    guardReads (rothNames ++ tothNames) s (finishCorrect (.corrn n) (corrnReplace s) (s.verdictN n.toNat) s)
  | .calcrs, s => guardReads (dataNames 16) s (complete (calcrsWrites s) (statusDone .calcrs) s)
  | .corrrs, s => guardReads (dataNames 16 ++ rparNames ++ tparNames) s (finishCorrrs s.pattern s)
  | .pack, s => guardReads (dataNames 16) s (complete (symWrites s.packed) (statusDone .pack) s)
  | .unpack, s =>
    guardReads symNames s (complete (dataWrites 16 (unpackSym s.params.packOrder s.symAt)) (statusDone .unpack) s)

theorem exec_eq_ifAdmitted (i : Instr) (s : State) : exec i s = ifAdmitted i s (commandBody i s) := by
  cases i <;> rfl

theorem exec_of_admitted (i : Instr) (s : State) (h : buildRefusal s.params i = none) :
    exec i s = commandBody i s := by
  rw [exec_eq_ifAdmitted, ifAdmitted_of_admitted i s _ h]

theorem exec_of_refused (i : Instr) (s : State) (h : buildRefusal s.params i ≠ none) :
    exec i s = .next (illegalCmd i.opcode s) := by
  rw [exec_eq_ifAdmitted, ifAdmitted_of_refused i s _ h]

@[simp] theorem dataWrites_names (n : Nat) (f : Nat → Byte) : (dataWrites n f).map Prod.fst = dataNames n := by
  simp [dataWrites, dataNames, Function.comp_def]

@[simp] theorem symWrites_names (f : Nat → Sym) : (symWrites f).map Prod.fst = symNames := by
  simp [symWrites, symNames, Function.comp_def]

@[simp] theorem mem_dataNames (n : Nat) (e : ElemName) : e ∈ dataNames n ↔ ∃ i, i < n ∧ e = .data i := by
  simp [dataNames, eq_comm]

/-- All that `finishCorrect` can do (R139, R166). -/
theorem finishCorrect_cases (i : Instr) (replace : List (ElemName × Word)) (v : Verdict) (s : State) :
    (∃ byte bit, v = .dataBit byte bit ∧ s.written (.data byte) = false
      ∧ finishCorrect i replace v s = .fault (.uninitRead (.data byte)))
    ∨ (v = .clean ∧ finishCorrect i replace v s = complete [] (statusWord i.opcode 0#2 false false .clean) s)
    ∨ (∃ byte bit, v = .dataBit byte bit ∧ s.written (.data byte) = true
      ∧ finishCorrect i replace v s
          = complete [flipWrite s byte bit] (statusWord i.opcode 0#2 false true .corrected) s)
    ∨ (v = .checkBit ∧ finishCorrect i replace v s = complete replace (statusWord i.opcode 0#2 true false .corrected) s)
    ∨ (v = .uncorrectable
      ∧ finishCorrect i replace v s = complete [] (statusWord i.opcode 0#2 false false .uncorrectable) s) := by
  cases v with
  | clean => exact .inr (.inl ⟨rfl, rfl⟩)
  | dataBit byte bit =>
    rcases guardReads_cases [.data byte] s
      (complete [flipWrite s byte bit] (statusWord i.opcode 0#2 false true .corrected) s) with ⟨hw, h⟩ | ⟨e, he, hw, h⟩
    · exact .inr (.inr (.inl ⟨byte, bit, rfl, hw _ (List.mem_singleton_self _), h⟩))
    · obtain rfl := List.mem_singleton.mp he
      exact .inl ⟨byte, bit, rfl, hw, h⟩
  | checkBit => exact .inr (.inr (.inr (.inl ⟨rfl, rfl⟩)))
  | uncorrectable => exact .inr (.inr (.inr (.inr ⟨rfl, rfl⟩)))

/-- The byte that CORR256 decodes is inside the block (R139). -/
theorem verdict256_byte_lt (swap : Bool) (d : Ecc) (byte : Nat) (bit : BitVec 3)
    (h : verdict256 swap d = .dataBit byte bit) : byte < 256 := by
  unfold verdict256 at h
  split at h
  · simp at h
  · split at h
    · simp only [Verdict.dataBit.injEq] at h
      exact h.1 ▸ (byteOffset (d.swapIf swap)).isLt
    · split at h <;> simp at h

/-- The byte that CORRN decodes is inside the region: the bounds guard (R164). -/
theorem verdictN_byte_lt {w : Nat} (n : Nat) (d : NCheck w) (byte : Nat) (bit : BitVec 3)
    (h : verdictN n d = .dataBit byte bit) : byte < n := by
  unfold verdictN at h
  split at h
  · simp at h
  · split at h
    · split at h
      · simp at h
      · simp only [Verdict.dataBit.injEq] at h
        omega
    · split at h <;> simp at h

/-- A decoded pattern has at most 2 errors (R208, R209). -/
theorem rsDecode_length (s : Syndromes) (e : Pattern) (h : rsDecode s = some e) : e.length ≤ 2 := by
  unfold rsDecode at h
  split at h
  · obtain rfl := Option.some.inj h
    simp
  · split at h
    · rename_i r hr
      subst h
      unfold decodeOne at hr
      simp only at hr
      split at hr
      · split at hr
        · obtain rfl := Option.some.inj (Option.some.inj hr)
          simp
        · simp at hr
      · simp at hr
    · unfold decodeTwo at h
      simp only at h
      split at h
      · simp at h
      · split at h
        · simp at h
        · split at h
          · split at h
            · simp at h
            · unfold errorValues at h
              simp only at h
              split at h
              · simp at h
              · obtain rfl := Option.some.inj h
                simp
          · simp at h

theorem parityWrites_names (s : State) (e : Pattern) :
    (parityWrites s e).map Prod.fst
      = (e.filter (fun x => decide (x.1 < 4))).map (fun x => .rpar (Fin.ofNat 4 (3 - x.1))) := by
  simp [parityWrites, Function.comp_def]

theorem corrrsWrites_names (s : State) (e : Pattern) :
    (corrrsWrites s e).map Prod.fst = patternWrites (some e) := by
  unfold corrrsWrites patternWrites
  rw [List.map_append, parityWrites_names]
  by_cases h : Pattern.hasData e = true
  · simp only [if_pos h, dataWrites_names]
  · simp only [if_neg h, List.map_nil]

/-- Some symbol of a nonempty pattern is a data or a parity symbol (R210). -/
theorem hasParity_or_hasData (x : Nat × Sym) (rest : Pattern) :
    Pattern.hasParity (x :: rest) = true ∨ Pattern.hasData (x :: rest) = true := by
  rcases Nat.lt_or_ge x.1 4 with h | h
  · exact .inl (by simp [Pattern.hasParity, h])
  · exact .inr (by simp [Pattern.hasData, h])

/-- All that an accepted command can do: it faults on an unwritten element it would read, or it writes the elements of
R42 and a STATUS of R28. -/
theorem commandBody_cases (i : Instr) (s : State) :
    (∃ e ∈ mayRead i, s.written e = false ∧ commandBody i s = .fault (.uninitRead e))
    ∨ (s.Written (alwaysReads i) ∧ ∃ ws st, commandBody i s = complete ws st s
        ∧ ws.map Prod.fst = commandWrites s i ∧ StatusLegal i.opcode st) := by
  cases i with
  | calc256 =>
    rcases guardReads_cases (dataNames 256) s (complete (calc256Writes s) (statusDone .calc256) s)
      with ⟨hw, h⟩ | ⟨e, he, hw, h⟩
    · exact .inr ⟨hw, _, _, h, rfl, .clean (by decide) (by decide)⟩
    · exact .inl ⟨e, he, hw, h⟩
  | corr256 =>
    rcases guardReads_cases (reccNames ++ teccNames) s (finishCorrect .corr256 (corr256Replace s) s.verdict256 s)
      with ⟨hw, h⟩ | ⟨e, he, hw, h⟩
    · rcases finishCorrect_cases .corr256 (corr256Replace s) s.verdict256 s with
        ⟨byte, bit, hv, hb, hf⟩ | ⟨hv, hf⟩ | ⟨byte, bit, hv, -, hf⟩ | ⟨hv, hf⟩ | ⟨hv, hf⟩
      · refine .inl ⟨.data byte, ?_, hb, h.trans hf⟩
        simp [mayRead, verdict256_byte_lt _ _ _ _ hv]
      · exact .inr ⟨hw, _, _, h.trans hf, by simp [commandWrites, hv, verdictWrites], .clean (by decide) (by decide)⟩
      · exact .inr ⟨hw, _, _, h.trans hf, by simp [commandWrites, hv, verdictWrites, flipWrite],
          .hamming false (.inl rfl)⟩
      · exact .inr ⟨hw, _, _, h.trans hf, by simp [commandWrites, hv, verdictWrites, corr256Replace, reccNames],
          .hamming true (.inl rfl)⟩
      · exact .inr ⟨hw, _, _, h.trans hf, by simp [commandWrites, hv, verdictWrites], .uncorrectable (.inl rfl)⟩
    · refine .inl ⟨e, ?_, hw, h⟩
      simp only [mayRead, List.mem_append] at he ⊢
      exact .inl he
  | calcn n =>
    rcases guardReads_cases (dataNames n.toNat) s (complete (calcnWrites n s) (statusDone (.calcn n)) s)
      with ⟨hw, h⟩ | ⟨e, he, hw, h⟩
    · exact .inr ⟨hw, _, _, h, rfl, .clean (op := 0x3#4) (by decide) (by decide)⟩
    · exact .inl ⟨e, he, hw, h⟩
  | corrn n =>
    rcases guardReads_cases (rothNames ++ tothNames) s
      (finishCorrect (.corrn n) (corrnReplace s) (s.verdictN n.toNat) s) with ⟨hw, h⟩ | ⟨e, he, hw, h⟩
    · rcases finishCorrect_cases (.corrn n) (corrnReplace s) (s.verdictN n.toNat) s with
        ⟨byte, bit, hv, hb, hf⟩ | ⟨hv, hf⟩ | ⟨byte, bit, hv, -, hf⟩ | ⟨hv, hf⟩ | ⟨hv, hf⟩
      · refine .inl ⟨.data byte, ?_, hb, h.trans hf⟩
        simp [mayRead, verdictN_byte_lt _ _ _ _ hv]
      · exact .inr ⟨hw, _, _, h.trans hf, by simp [commandWrites, hv, verdictWrites],
          .clean (op := 0x4#4) (by decide) (by decide)⟩
      · exact .inr ⟨hw, _, _, h.trans hf, by simp [commandWrites, hv, verdictWrites, flipWrite],
          .hamming (op := 0x4#4) false (.inr rfl)⟩
      · exact .inr ⟨hw, _, _, h.trans hf, by simp [commandWrites, hv, verdictWrites, corrnReplace, rothNames],
          .hamming (op := 0x4#4) true (.inr rfl)⟩
      · exact .inr ⟨hw, _, _, h.trans hf, by simp [commandWrites, hv, verdictWrites],
          .uncorrectable (op := 0x4#4) (.inr (.inl rfl))⟩
    · refine .inl ⟨e, ?_, hw, h⟩
      simp only [mayRead, List.mem_append] at he ⊢
      exact .inl he
  | calcrs =>
    rcases guardReads_cases (dataNames 16) s (complete (calcrsWrites s) (statusDone .calcrs) s)
      with ⟨hw, h⟩ | ⟨e, he, hw, h⟩
    · exact .inr ⟨hw, _, _, h, rfl, .clean (by decide) (by decide)⟩
    · exact .inl ⟨e, he, hw, h⟩
  | corrrs =>
    rcases guardReads_cases (dataNames 16 ++ rparNames ++ tparNames) s (finishCorrrs s.pattern s)
      with ⟨hw, h⟩ | ⟨e, he, hw, h⟩
    · refine .inr ⟨hw, ?_⟩
      cases hp : s.pattern with
      | none =>
        exact ⟨_, _, h.trans (congrArg (finishCorrrs · s) hp), by simp [commandWrites, hp, patternWrites],
          .uncorrectable (.inr (.inr rfl))⟩
      | some e =>
        cases e with
        | nil =>
          exact ⟨_, _, h.trans (congrArg (finishCorrrs · s) hp),
            by simp [commandWrites, hp, patternWrites, Pattern.hasData], .clean (by decide) (by decide)⟩
        | cons x rest =>
          have hlen : rest.length + 1 ≤ 2 := by simpa using rsDecode_length _ _ hp
          refine ⟨_, _, h.trans (congrArg (finishCorrrs · s) hp), by rw [corrrsWrites_names, commandWrites, hp], ?_⟩
          refine .symbols _ _ _ rfl ?_ (hasParity_or_hasData x rest)
          have : rest.length = 0 ∨ rest.length = 1 := by omega
          rcases this with h | h <;> simp [h]
    · exact .inl ⟨e, he, hw, h⟩
  | pack =>
    rcases guardReads_cases (dataNames 16) s (complete (symWrites s.packed) (statusDone .pack) s)
      with ⟨hw, h⟩ | ⟨e, he, hw, h⟩
    · exact .inr ⟨hw, _, _, h, symWrites_names _, .clean (by decide) (by decide)⟩
    · exact .inl ⟨e, he, hw, h⟩
  | unpack =>
    rcases guardReads_cases symNames s
      (complete (dataWrites 16 (unpackSym s.params.packOrder s.symAt)) (statusDone .unpack) s)
      with ⟨hw, h⟩ | ⟨e, he, hw, h⟩
    · exact .inr ⟨hw, _, _, h, dataWrites_names _ _, .clean (by decide) (by decide)⟩
    · exact .inl ⟨e, he, hw, h⟩

/-- A completed command's state: the frame of its list of writes. -/
theorem frame_complete (ws : List (ElemName × Word)) (st : Word) (s : State) :
    Frame s ((s.putAll ws).setStatus st) (ws.map Prod.fst) where
  value e he := by rw [State.setStatus_get, State.get_putAll_of_not_mem s ws e he]
  flag e he := by rw [State.setStatus_written, State.written_putAll_of_not_mem s ws e he]
  params := by simp
  cmd := by simp
  host := by simp
  resp := by simp
  freeCount := by simp

end Sys2Proof.Machine
end

