-- ==== Sys2Proof/Laws/PerInstr.lean ====
section
/-!
SUPPORT. The family `EncodeFields`, one lemma per command: the fields of a command's word are its OP, RSV = 0 and its LEN
(spec/30_encoding.md R90, R91).
-/

namespace Sys2Proof.Laws.EncodeFields

/-- The word of `i` has `i`'s OP, RSV = 0 and `i`'s LEN. -/
def Statement (i : Instr) : Prop :=
  opField (encode i) = i.opcode ∧ rsvField (encode i) = 0#12 ∧ lenField (encode i) = i.lenOf

/-- The fields of LEN, RSV and OP laid side by side are those three. -/
theorem fields_append (len : BitVec 16) (op : BitVec 4) :
    opField (len ++ 0#12 ++ op) = op ∧ rsvField (len ++ 0#12 ++ op) = 0#12 ∧ lenField (len ++ 0#12 ++ op) = len := by
  refine ⟨?_, ?_, ?_⟩ <;> apply BitVec.eq_of_getLsbD_eq <;> intro k hk <;>
    simp only [opField, rsvField, lenField, BitVec.getLsbD_extractLsb', BitVec.getLsbD_append] <;>
    interval_cases k <;> simp

theorem calc256 : Statement .calc256 := fields_append ..

theorem corr256 : Statement .corr256 := fields_append ..

theorem calcn (n : BitVec 16) : Statement (.calcn n) := fields_append ..

theorem corrn (n : BitVec 16) : Statement (.corrn n) := fields_append ..

theorem calcrs : Statement .calcrs := fields_append ..

theorem corrrs : Statement .corrrs := fields_append ..

theorem pack : Statement .pack := fields_append ..

theorem unpack : Statement .unpack := fields_append ..

end Sys2Proof.Laws.EncodeFields
end

