-- ==== Sys2Proof/Laws/Window.lean ====
section
/-!
SUPPORT. What a store into the host window does to one element and to all others (spec/20_memory.md R66), and which
elements a store covers.
-/

namespace Sys2Proof.Machine

/-! ## The map of R61 -/

theorem highWinByte_elem (p : Params) (off lane : Nat) (e : ElemName) (h0 : 0x0060 ≤ off)
    (h : highWinByte p off = .elem e lane) : e.exists p ∧ lane < e.bytes ∧ off = e.offset + lane := by
  unfold highWinByte at h
  repeat' split at h
  all_goals first
    | (cases h; done)
    | (injection h with he hl; subst he hl
       simp only [ElemName.exists, ElemName.bytes, ElemName.offset, Fin.val_ofNat, true_and]; omega)

theorem midWinByte_elem (p : Params) (off lane : Nat) (e : ElemName) (h0 : 0x0020 ≤ off)
    (h : midWinByte off = .elem e lane) : e.exists p ∧ lane < e.bytes ∧ off = e.offset + lane := by
  unfold midWinByte at h
  repeat' split at h
  all_goals first
    | (cases h; done)
    | (injection h with he hl; subst he hl
       simp only [ElemName.exists, ElemName.bytes, ElemName.offset, Fin.val_ofNat, true_and]; omega)

theorem lowWinByte_elem (p : Params) (off lane : Nat) (e : ElemName) (h : lowWinByte off = .elem e lane) :
    e.exists p ∧ lane < e.bytes ∧ off = e.offset + lane := by
  unfold lowWinByte at h
  repeat' split at h
  all_goals first
    | (cases h; done)
    | (injection h with he hl; subst he hl
       simp only [ElemName.exists, ElemName.bytes, ElemName.offset, Fin.val_ofNat, true_and]; omega)

theorem winByte_of_elem (p : Params) (lane : Nat) (e : ElemName) (h1 : e.exists p) (h2 : lane < e.bytes) :
    winByte p (e.offset + lane) = .elem e lane := by
  cases e with
  | data k =>
    simp only [ElemName.exists, ElemName.bytes, ElemName.offset] at *
    obtain rfl : lane = 0 := by omega
    unfold winByte highWinByte
    rw [if_pos (by omega), if_pos (by omega), if_pos (by omega)]
    simp
  | recc j => obtain rfl : lane = 0 := Nat.lt_one_iff.mp h2; fin_cases j <;> rfl
  | tecc j => obtain rfl : lane = 0 := Nat.lt_one_iff.mp h2; fin_cases j <;> rfl
  | sym j => obtain rfl : lane = 0 := Nat.lt_one_iff.mp h2; fin_cases j <;> rfl
  | roth f => cases f <;> (simp only [ElemName.bytes] at h2; interval_cases lane <;> rfl)
  | toth f => cases f <;> (simp only [ElemName.bytes] at h2; interval_cases lane <;> rfl)
  | rpar j => fin_cases j <;> (simp only [ElemName.bytes] at h2; interval_cases lane <;> rfl)
  | tpar j => fin_cases j <;> (simp only [ElemName.bytes] at h2; interval_cases lane <;> rfl)

/-- Where the bytes of an element stand in the window, and no other byte is one of its bytes. -/
theorem winByte_eq_elem_iff (p : Params) (off lane : Nat) (e : ElemName) :
    winByte p off = .elem e lane ↔ e.exists p ∧ lane < e.bytes ∧ off = e.offset + lane := by
  refine ⟨fun h => ?_, fun ⟨h1, h2, h3⟩ => h3 ▸ winByte_of_elem p lane e h1 h2⟩
  unfold winByte at h
  split at h
  · exact highWinByte_elem p off lane e ‹_› h
  · split at h
    · exact midWinByte_elem p off lane e ‹_› h
    · exact lowWinByte_elem p off lane e h

/-! ## One element of a store -/

/-- The value a store leaves in an element, before it keeps its low bits: the covered bits are new, the others are the
element's own, or free where nothing has written it (R66). -/
def storedValue (a : BitVec 13) (n : Nat) (v : Word) (s : State) (t : Target) : Word :=
  if coversAll s.params a n t then placeBits a.toNat t.slot (accessBits n v)
  else if s.written t.elem then
    mergeBits (coverMask a n t.slot) (placeBits a.toNat t.slot (accessBits n v)) (s.get t.elem)
  else mergeBits (coverMask a n t.slot) (placeBits a.toNat t.slot (accessBits n v)) (Config.freeBits s.freeCount)

/-- All of `storeTarget`: one element is written, and the counter may move on. -/
theorem storeTarget_eq (a : BitVec 13) (n : Nat) (v : Word) (s : State) (t : Target) :
    storeTarget a n v s t = s.put t.elem (storedValue a n v s t)
    ∨ storeTarget a n v s t = (s.put t.elem (storedValue a n v s t)).tick := by
  unfold storeTarget storedValue
  split
  · exact .inl rfl
  · split
    · exact .inl rfl
    · exact .inr rfl

/-- An access carries its low `8·n` bits (R63). -/
theorem accessBits_getLsbD (n : Nat) (v : Word) (k : Nat) :
    (accessBits n v).getLsbD k = (decide (k < 8 * n) && v.getLsbD k) := keepLow_getLsbD _ _ _

/-- Bit `k` of the slot at `slot` is bit `8·slot + k − 8·a` of an access at `a` (R63). -/
theorem placeBits_getLsbD (a slot : Nat) (v : Word) (k : Nat) (hk : k < 32) :
    (placeBits a slot v).getLsbD k = (decide (8 * a ≤ 8 * slot + k) && v.getLsbD (8 * slot + k - 8 * a)) := by
  unfold placeBits
  split
  · rw [BitVec.getLsbD_shiftLeft, show k - 8 * (a - slot) = 8 * slot + k - 8 * a by omega]
    by_cases h : 8 * a ≤ 8 * slot + k
    · simp [hk, h, show ¬k < 8 * (a - slot) by omega]
    · simp [h, show k < 8 * (a - slot) by omega]
  · rw [BitVec.getLsbD_ushiftRight, show 8 * (slot - a) + k = 8 * slot + k - 8 * a by omega]
    simp [show 8 * a ≤ 8 * slot + k by omega]

/-- The mask has exactly the bits of the covered bytes; bit `k` of a slot stands in its byte `k/8` (R63). -/
theorem coverMask_getLsbD (a : BitVec 13) (n slot k : Nat) (hn : n ≤ 4) (hk : k < 32) :
    (coverMask a n slot).getLsbD k = decide (a.toNat ≤ slot + k / 8 ∧ slot + k / 8 < a.toNat + n) := by
  rw [coverMask, placeBits_getLsbD _ _ _ _ hk, accessBits_getLsbD, BitVec.getLsbD_allOnes]
  rw [Bool.eq_iff_iff]
  simp only [Bool.and_eq_true, decide_eq_true_eq]
  omega

theorem mergeBits_getLsbD (mask new old : Word) (k : Nat) (hk : k < 32) :
    (mergeBits mask new old).getLsbD k = if mask.getLsbD k then new.getLsbD k else old.getLsbD k := by
  rw [mergeBits, BitVec.getLsbD_or, BitVec.getLsbD_and, BitVec.getLsbD_and, BitVec.getLsbD_not]
  cases mask.getLsbD k <;> simp [-BitVec.getLsbD_eq_getElem, hk]

/-- The value a store leaves in an element, bit by bit: the access's bit in a covered byte; elsewhere the element's own
bit, or a free one where nothing has written it (R66, R37). -/
theorem storedValue_getLsbD (a : BitVec 13) (n : Nat) (v : Word) (s : State) (t : Target) (k : Nat) (hn : n ≤ 4)
    (hk : k < 32) :
    (keepLow (t.elem.width s.params) (storedValue a n v s t)).getLsbD k =
      (decide (k < t.elem.width s.params) &&
        if a.toNat ≤ t.slot + k / 8 ∧ t.slot + k / 8 < a.toNat + n then
          v.getLsbD (8 * (t.slot + k / 8 - a.toNat) + k % 8)
        else if s.written t.elem then (s.get t.elem).getLsbD k else (Config.freeBits s.freeCount).getLsbD k) := by
  have hnew (hc : a.toNat ≤ t.slot + k / 8 ∧ t.slot + k / 8 < a.toNat + n) :
      (placeBits a.toNat t.slot (accessBits n v)).getLsbD k = v.getLsbD (8 * (t.slot + k / 8 - a.toNat) + k % 8) := by
    rw [placeBits_getLsbD _ _ _ _ hk, accessBits_getLsbD,
      show 8 * t.slot + k - 8 * a.toNat = 8 * (t.slot + k / 8 - a.toNat) + k % 8 by omega]
    simp only [show 8 * a.toNat ≤ 8 * t.slot + k by omega,
      show 8 * (t.slot + k / 8 - a.toNat) + k % 8 < 8 * n by omega, decide_true, Bool.true_and]
  rw [keepLow_getLsbD]
  by_cases hw : k < t.elem.width s.params
  swap
  · simp [hw]
  unfold storedValue
  split
  · rename_i hall
    have hbit : (coverMask a n t.slot).getLsbD k = true := by
      have h := congrArg (fun x => BitVec.getLsbD x k) (beq_iff_eq.mp hall)
      simpa only [keepLow_getLsbD, BitVec.getLsbD_allOnes, hw, hk, decide_true, Bool.true_and] using h
    rw [coverMask_getLsbD a n t.slot k hn hk, decide_eq_true_iff] at hbit
    rw [if_pos hbit, hnew hbit]
  · split <;> rw [mergeBits_getLsbD _ _ _ _ hk, coverMask_getLsbD a n t.slot k hn hk] <;>
      (simp only [decide_eq_true_eq]; split <;> simp_all)

theorem storeTarget_get (a : BitVec 13) (n : Nat) (v : Word) (s : State) (t : Target) (f : ElemName) :
    (storeTarget a n v s t).get f =
      if f = t.elem then keepLow (t.elem.width s.params) (storedValue a n v s t) else s.get f := by
  rcases storeTarget_eq a n v s t with h | h <;> simp [h, State.get_put]

theorem storeTarget_written (a : BitVec 13) (n : Nat) (v : Word) (s : State) (t : Target) (f : ElemName) :
    (storeTarget a n v s t).written f = if f = t.elem then true else s.written f := by
  rcases storeTarget_eq a n v s t with h | h <;> simp [h, State.written_put]

@[simp] theorem storeTarget_params (a : BitVec 13) (n : Nat) (v : Word) (s : State) (t : Target) :
    (storeTarget a n v s t).params = s.params := by
  rcases storeTarget_eq a n v s t with h | h <;> simp [h]

@[simp] theorem storeTarget_cmd (a : BitVec 13) (n : Nat) (v : Word) (s : State) (t : Target) :
    (storeTarget a n v s t).cmd = s.cmd := by
  rcases storeTarget_eq a n v s t with h | h <;> simp [h]

@[simp] theorem storeTarget_status (a : BitVec 13) (n : Nat) (v : Word) (s : State) (t : Target) :
    (storeTarget a n v s t).status = s.status := by
  rcases storeTarget_eq a n v s t with h | h <;> simp [h]

@[simp] theorem storeTarget_host (a : BitVec 13) (n : Nat) (v : Word) (s : State) (t : Target) :
    (storeTarget a n v s t).host = s.host := by
  rcases storeTarget_eq a n v s t with h | h <;> simp [h]

/-! ## All elements of a store -/

/-- A property that every element's store keeps is kept by the whole store. -/
theorem hostStore_induction (P : State → Prop) (a : BitVec 13) (n : Nat) (v : Word) (s : State)
    (hstore : ∀ r t, t ∈ targets s.params a n → P r → P (storeTarget a n v r t))
    (hresp : ∀ r, P r → P (r.setResp .wrote)) (h : P s) : P (hostStore a n v s) := by
  unfold hostStore
  refine hresp _ ?_
  generalize targets s.params a n = ts at hstore
  induction ts generalizing s with
  | nil => exact h
  | cons t ts ih =>
    exact ih _ (hstore s t (List.mem_cons_self ..) h) (fun r x hx => hstore r x (List.mem_cons_of_mem _ hx))

@[simp] theorem hostStore_params (a : BitVec 13) (n : Nat) (v : Word) (s : State) :
    (hostStore a n v s).params = s.params :=
  hostStore_induction (fun r => r.params = s.params) a n v s (fun r t _ h => by simp [h]) (fun r h => by simp [h]) rfl

@[simp] theorem hostStore_cmd (a : BitVec 13) (n : Nat) (v : Word) (s : State) : (hostStore a n v s).cmd = s.cmd :=
  hostStore_induction (fun r => r.cmd = s.cmd) a n v s (fun r t _ h => by simp [h]) (fun r h => by simp [h]) rfl

@[simp] theorem hostStore_status (a : BitVec 13) (n : Nat) (v : Word) (s : State) :
    (hostStore a n v s).status = s.status :=
  hostStore_induction (fun r => r.status = s.status) a n v s (fun r t _ h => by simp [h]) (fun r h => by simp [h]) rfl

@[simp] theorem hostStore_host (a : BitVec 13) (n : Nat) (v : Word) (s : State) : (hostStore a n v s).host = s.host :=
  hostStore_induction (fun r => r.host = s.host) a n v s (fun r t _ h => by simp [h]) (fun r h => by simp [h]) rfl

@[simp] theorem hostStore_resp (a : BitVec 13) (n : Nat) (v : Word) (s : State) :
    (hostStore a n v s).resp = .wrote := rfl

/-- An element that no target names is unchanged by a store (R66). -/
theorem hostStore_get_of_not_target (a : BitVec 13) (n : Nat) (v : Word) (s : State) (f : ElemName)
    (h : ∀ t ∈ targets s.params a n, t.elem ≠ f) : (hostStore a n v s).get f = s.get f :=
  hostStore_induction (fun r => r.get f = s.get f) a n v s
    (fun r t ht hr => by simp [storeTarget_get, (h t ht).symm, hr]) (fun r hr => by simp [hr]) rfl

theorem hostStore_written_of_not_target (a : BitVec 13) (n : Nat) (v : Word) (s : State) (f : ElemName)
    (h : ∀ t ∈ targets s.params a n, t.elem ≠ f) : (hostStore a n v s).written f = s.written f :=
  hostStore_induction (fun r => r.written f = s.written f) a n v s
    (fun r t ht hr => by simp [storeTarget_written, (h t ht).symm, hr]) (fun r hr => by simp [hr]) rfl

/-- A store clears no written flag. -/
theorem hostStore_written_mono (a : BitVec 13) (n : Nat) (v : Word) (s : State) (f : ElemName)
    (h : s.written f = true) : (hostStore a n v s).written f = true :=
  hostStore_induction (fun r => r.written f = true) a n v s
    (fun r t _ hr => by simp [storeTarget_written, hr]) (fun r hr => by simp [hr]) h

/-- A store sets the flag of every target (R41). -/
theorem hostStore_written_target (a : BitVec 13) (n : Nat) (v : Word) (s : State) (t : Target)
    (ht : t ∈ targets s.params a n) : (hostStore a n v s).written t.elem = true := by
  unfold hostStore
  rw [State.setResp_written]
  generalize targets s.params a n = ts at ht
  induction ts generalizing s with
  | nil => simp at ht
  | cons u ts ih =>
    rcases List.mem_cons.mp ht with rfl | ht
    · rw [List.foldl_cons]
      have hkeep : ∀ (us : List Target) (r : State), r.written t.elem = true →
          (us.foldl (storeTarget a n v) r).written t.elem = true := by
        intro us
        induction us with
        | nil => exact fun r hr => hr
        | cons x us ih' => exact fun r hr => ih' _ (by simp [storeTarget_written, hr])
      exact hkeep ts _ (by simp [storeTarget_written])
    · exact ih _ ht

/-- A target's element is covered by a byte of the access. -/
theorem targets_covered (p : Params) (a : BitVec 13) (n : Nat) (t : Target) (h : t ∈ targets p a n) :
    ∃ i lane, i < n ∧ winByte p (a.toNat + i) = .elem t.elem lane ∧ t.slot = a.toNat + i - lane := by
  obtain ⟨i, hi, ht⟩ := List.mem_filterMap.mp h
  refine ⟨i, ?_⟩
  unfold targetAt at ht
  split at ht
  · rename_i e lane hw
    split at ht
    · obtain rfl := Option.some.inj ht
      exact ⟨lane, List.mem_range.mp hi, hw, rfl⟩
    · simp at ht
  · simp at ht

end Sys2Proof.Machine
end

