-- ==== Sys2Proof/Tests/Slice0.lean ====
section
/-!
SUPPORT. Tests. Words are written out from spec/30_encoding.md R91; the expected results are the vectors of
spec/95_test_vectors.md, named in each comment. The second half shows, for every obligation with hypotheses, a concrete
state and operands that meet all of them.
-/

namespace Sys2Proof.Tests

open Sys2Proof.Machine

set_option Elab.async false

/-! ## Helpers -/

/-- The next state satisfies a check. -/
def nextIs (o : Out) (check : State → Bool) : Bool :=
  match o with
  | .next t => check t
  | .fault _ => false
  | .refused _ => false

/-- DATA[0..n−1] holding `f`. -/
def block (n : Nat) (f : Nat → Byte) : Memory := (List.range' 0 n).map (fun i => (i, f i))

/-- A build with everything written: DATA[0..255] holds `f`, every other element 0. -/
def full (p : Params) (f : Nat → Byte) : State :=
  { State.resetWith p with
    data := block 256 f
    recc := Vector.replicate 3 (Elem.of 0#8)
    tecc := Vector.replicate 3 (Elem.of 0#8)
    roth := { col := Elem.of 0#6, lp := Elem.of 0#32, lpp := Elem.of 0#32 }
    toth := { col := Elem.of 0#6, lp := Elem.of 0#32, lpp := Elem.of 0#32 }
    rpar := Vector.replicate 4 (Elem.of 0#5)
    tpar := Vector.replicate 4 (Elem.of 0#5)
    sym := Vector.replicate 26 (Elem.of 0#5) }

/-- The Reed–Solomon build, LSB_FIRST (spec/95 section 5). -/
def rsBuild : Params := { Params.default with otherVariant := .rs }

/-- The Reed–Solomon build, MSB_FIRST. -/
def rsMsb : Params := { rsBuild with packOrder := .msbFirst }

/-- Block B of spec/95 section 3. -/
def blockB (i : Nat) : Byte :=
  if i = 0x03 then 0x01#8 else if i = 0x5A then 0x80#8 else if i = 0xC4 then 0x3C#8 else if i = 0xFE then 0x07#8 else 0#8

/-- Region D2 of spec/95 section 4. -/
def regionD2 (i : Nat) : Byte :=
  [0x01#8, 0x00#8, 0x03#8, 0x80#8, 0xFE#8, 0x10#8, 0x00#8, 0x07#8, 0x55#8, 0xAA#8, 0x0F#8, 0x40#8].getD i 0#8

/-- DATA[i] = i. -/
def counting (i : Nat) : Byte := BitVec.ofNat 8 i


/-- The state whose next host access is `op`. -/
def asks (s : State) (op : HostOp) : State := s.setHost [op]

/-- A Hamming build with the given stored and test check values over block B (spec/95 section 3.2). -/
def fixedCase (swap : Bool) (r t : Vector (Elem 8) 3) : State :=
  { full { Params.default with swapCompat := swap } blockB with recc := r, tecc := t }

/-- Three written bytes. -/
def bytes3 (a b c : Byte) : Vector (Elem 8) 3 := #v[Elem.of a, Elem.of b, Elem.of c]

/-- A written variable-length check value. -/
def check (c : BitVec 6) (l q : Word) : VarCheck := { col := Elem.of c, lp := Elem.of l, lpp := Elem.of q }

/-- A Hamming build with the given stored and test check values over region D2 (spec/95 section 4.2). -/
def varCase (w : Nat) (r t : VarCheck) : State := { full { Params.default with w := w } regionD2 with roth := r, toth := t }

/-- Four written symbols. -/
def syms4 (a b c d : Sym) : Vector (Elem 5) 4 := #v[Elem.of a, Elem.of b, Elem.of c, Elem.of d]

/-- The Reed–Solomon build with the given data and parities (spec/95 section 6). -/
def rsCase (f : Nat → Byte) (r t : Vector (Elem 5) 4) : State := { full rsBuild f with rpar := r, tpar := t }

/-- The packed symbols of PK3 with the padding bits of SYM[25] set (UP1). -/
def symsUp1 : Vector (Elem 5) 26 :=
  #v[0#5, 8#5, 0#5, 4#5, 16#5, 1#5, 16#5, 0#5, 5#5, 16#5, 1#5, 14#5, 0#5, 4#5, 4#5, 1#5, 10#5, 24#5, 2#5, 24#5, 16#5, 6#5,
    24#5, 1#5, 15#5, 0x18#5].map Elem.of

/-- The data of RS4: two symbols of PK3 corrupted. -/
def dataRs4 (i : Nat) : Byte := if i = 4 then 0xFC#8 else if i = 12 then 0x5C#8 else counting i

/-! ## Decoding: words written out from the fields of R90 and the OP values of R91 -/

theorem test_decode_calc256 : decodeTableWord 32 0b00000000000000000000000000000001 = some .calc256 := by decide
theorem test_decode_corr256 : decodeTableWord 32 0b00000000000000000000000000000010 = some .corr256 := by decide
theorem test_decode_calcn : decodeTableWord 32 0b00000000000011000000000000000011 = some (.calcn 12#16) := by decide
theorem test_decode_corrn : decodeTableWord 32 0b00000001000000000000000000000100 = some (.corrn 256#16) := by decide
theorem test_decode_calcrs : decodeTableWord 32 0b00000000000000000000000000000101 = some .calcrs := by decide
theorem test_decode_corrrs : decodeTableWord 32 0b00000000000000000000000000000110 = some .corrrs := by decide
theorem test_decode_pack : decodeTableWord 32 0b00000000000000000000000000000111 = some .pack := by decide
theorem test_decode_unpack : decodeTableWord 32 0b00000000000000000000000000001000 = some .unpack := by decide

/-- EX1 to EX4: words refused by the checks of R93 and R94. -/
theorem test_decode_refusals :
    decodeTableWord 32 0x00000000 = none ∧ decodeTableWord 32 0x0000000F = none ∧ decodeTableWord 32 0x00000011 = none
    ∧ decodeTableWord 32 0x00010001 = none ∧ decodeTableWord 32 0x00000009 = none := by decide

/-! ## WellFormed: an ill-formed command for each check, which the check refuses, and the last legal one (R95, R96) -/

theorem test_wf_hamming_only : (Instr.calcn 12#16).wf rsBuild = false ∧ (Instr.corrn 12#16).wf rsBuild = false := by decide
theorem test_wf_rs_only :
    Instr.calcrs.wf .default = false ∧ Instr.corrrs.wf .default = false ∧ Instr.pack.wf .default = false
    ∧ Instr.unpack.wf .default = false := by decide
theorem test_wf_nmax : (Instr.calcn 257#16).wf .default = false ∧ (Instr.calcn 256#16).wf .default = true := by decide
theorem test_wf_width :
    (Instr.corrn 257#16).wf { Params.default with w := 8, nmax := 512 } = false
    ∧ (Instr.corrn 256#16).wf { Params.default with w := 8, nmax := 512 } = true := by decide
theorem test_params_wf :
    Params.default.wf = true ∧ Params.wf { Params.default with w := 0 } = false
    ∧ Params.wf { Params.default with w := 33 } = false ∧ Params.wf { Params.default with nmax := 255 } = false
    ∧ Params.wf { Params.default with nmax := 4097 } = false := by decide

/-! ## Commands -/

/-- FX6: the swapped check value of a block with one odd byte. -/
theorem test_ecc256_fx6_swap :
    ecc256 ((List.range 256).map (fun i => if i = 0x5A then 0x80#8 else 0#8)) true
      = { e0 := 0x99#8, e1 := 0x66#8, e2 := 0x57#8 } := by
  decide +kernel

/-- FC16: the swap is undone before the byte offset is read; bit 2 of DATA[0xC4] is flipped (0x3C to 0x38 here). -/
theorem test_corr256_fc16 :
    nextIs (exec .corr256 (fixedCase true (bytes3 0x66#8 0x95#8 0x6B#8) (bytes3 0xC3#8 0xF0#8 0x0F#8))) (fun t =>
      t.dataByte 0xC4 == 0x38#8 && t.status == 0x00002005#32) = true := by
  decide +kernel

/-- FC8: one wrong reserved bit of the stored value. -/
theorem test_corr256_fc8 :
    nextIs (exec .corr256 (fixedCase false (bytes3 0x95#8 0x66#8 0x69#8) (bytes3 0x95#8 0x66#8 0x6B#8))) (fun t =>
      t.reccByte 2 == 0x6B#8 && t.status == 0x00002009#32) = true := by
  decide +kernel

/-- VN2: one odd byte at index 3. -/
theorem test_calcn_vn2 :
    nextIs (exec (.calcn 16#16) (full Params.default (fun i => if i = 3 then 1#8 else 0#8))) (fun t =>
      t.get (.toth .col) == 0x15#32 && t.get (.toth .lp) == 3#32 && t.get (.toth .lpp) == 0xFFFFFFFC#32
      && t.status == 0x00003000#32) = true := by
  decide +kernel

/-- VN3c: region D2 at W = 4. -/
theorem test_calcn_vn3c :
    nextIs (exec (.calcn 12#16) (full { Params.default with w := 4 } regionD2)) (fun t =>
      t.get (.toth .col) == 0x3F#32 && t.get (.toth .lp) == 0xE#32 && t.get (.toth .lpp) == 0xE#32) = true := by
  decide +kernel

/-- VN14: the complement is taken in W = 8 bits; bit 1 of DATA[7] is flipped (0x07 to 0x05 here). -/
theorem test_corrn_vn14 :
    nextIs (exec (.corrn 12#16) (varCase 8 (check 0x3F#6 0xE#32 0xE#32) (check 0x29#6 0x9#32 0xF6#32))) (fun t =>
      t.dataByte 7 == 0x05#8 && t.status == 0x00004005#32) = true := by
  decide +kernel

/-- VN13: the bounds guard, byte 15 of a region of 12. -/
theorem test_corrn_vn13 :
    nextIs (exec (.corrn 12#16) (varCase 32 (check 0x3F#6 0xE#32 0xE#32) (check 0x2A#6 0x1#32 0xFFFFFFFE#32))) (fun t =>
      t.dataByte 11 == 0x40#8 && t.status == 0x00004003#32) = true := by
  decide +kernel

/-- PK3: the parity of DATA[i] = i. -/
theorem test_calcrs_pk3 :
    nextIs (exec .calcrs (full rsBuild counting)) (fun t =>
      t.tparSym 0 == 12#5 && t.tparSym 1 == 15#5 && t.tparSym 2 == 0#5 && t.tparSym 3 == 29#5
      && t.status == 0x00005000#32) = true := by
  decide +kernel

/-- PK2m: the parity in the other packing order. -/
theorem test_calcrs_pk2m :
    nextIs (exec .calcrs (full rsMsb (fun i => if i = 0 then 1#8 else 0#8))) (fun t =>
      t.tparSym 0 == 17#5 && t.tparSym 1 == 31#5 && t.tparSym 2 == 13#5 && t.tparSym 3 == 7#5) = true := by
  decide +kernel

/-- RS4: two data symbols corrected. -/
theorem test_corrrs_rs4 :
    nextIs (exec .corrrs (rsCase dataRs4 (syms4 12#5 15#5 0#5 29#5) (syms4 3#5 26#5 10#5 23#5))) (fun t =>
      t.dataByte 4 == 4#8 && t.dataByte 12 == 12#8 && t.status == 0x00006025#32) = true := by
  decide +kernel

/-- RS6: a data symbol and a parity symbol corrected. -/
theorem test_corrrs_rs6 :
    nextIs (exec .corrrs (rsCase (fun i => if i = 2 then 0x0A#8 else counting i) (syms4 12#5 15#5 0#5 28#5)
        (syms4 23#5 22#5 24#5 23#5))) (fun t =>
      t.dataByte 2 == 2#8 && t.rparSym 3 == 29#5 && t.status == 0x0000602D#32) = true := by
  decide +kernel

/-- PK3. -/
theorem test_pack_pk3 :
    nextIs (exec .pack (full rsBuild counting)) (fun t =>
      t.symAt 1 == 8#5 && t.symAt 11 == 14#5 && t.symAt 24 == 15#5 && t.status == 0x00007000#32) = true := by
  decide +kernel

/-- PK5m: the last bit of the stream. -/
theorem test_pack_pk5m :
    nextIs (exec .pack (full rsMsb (fun i => if i = 15 then 0x80#8 else 0#8))) (fun t =>
      t.symAt 24 == 16#5 && t.symAt 25 == 0#5 && t.symAt 23 == 0#5) = true := by
  decide +kernel

/-- UP1: the padding bits are ignored. -/
theorem test_unpack_up1 :
    nextIs (exec .unpack { full rsBuild (fun _ => 0#8) with sym := symsUp1 }) (fun t =>
      t.dataByte 1 == 1#8 && t.dataByte 7 == 7#8 && t.dataByte 15 == 15#8 && t.status == 0x00008000#32) = true := by
  decide +kernel

/-- RD2: the syndromes of one error at the shortened position fail; RD3: one error at degree 0. -/
theorem test_rsDecode_rd2_rd3 :
    rsDecode { s0 := 1#5, s1 := 18#5, s2 := 9#5, s3 := 22#5 } = none
    ∧ rsDecode { s0 := 1#5, s1 := 1#5, s2 := 1#5, s3 := 1#5 } = some [(0, 1#5)] := by
  decide +kernel

/-! ## Host accesses and refusals -/

/-- EX3: a refused word, RSV bit 4 set. -/
theorem test_step_ex3 :
    nextIs (step (State.reset.withFetchWord 32 0x00000011)) (fun t =>
      t.status == 0x00001100#32 && t.cmd == 0x00000011#32 && !t.written (.tecc 0)) = true := by decide

/-- EX6: CALCN in the Reed–Solomon build. -/
theorem test_step_ex6 :
    nextIs (step ((full rsBuild counting).withFetchWord 32 0x000C0003)) (fun t => t.status == 0x00003100#32) = true := by
  decide

/-- EX10: an 8-bit write to CMD is a bus error. -/
theorem test_step_ex10 :
    nextIs (step (asks State.reset (.write 0x0000#13 1 0x01#32))) (fun t =>
      t.resp == .busError && t.cmd == 0#32 && t.status == 0#32) = true := by decide

/-- EX11, EX12, EX13 and EX14: a write to STATUS, a misaligned read, a read of DATA[256], a write to COLTAB. -/
theorem test_step_ex11_to_ex14 :
    [HostOp.write 0x0004#13 4 0#32, .read 0x0011#13 4, .read 0x1100#13 1, .write 0x0101#13 1 0#32].all (fun op =>
      nextIs (step (asks State.reset op)) (fun t => t.resp == .busError)) = true := by decide

/-- EX15: a read of RECC[0] after reset faults. -/
theorem test_step_ex15 : nextIs (step (asks State.reset (.read 0x0010#13 1))) (fun _ => true) = false := by decide +kernel

/-- EX17: a 32-bit read of RECC[0..2] and padding. -/
theorem test_step_ex17 :
    nextIs (step (asks (fixedCase false (bytes3 0x95#8 0x66#8 0x6B#8) (bytes3 0#8 0#8 0#8)) (.read 0x0010#13 4)))
      (fun t => t.resp == .value 4 0x006B6695#32) = true := by
  decide

/-- EX18: CONFIG of the default build. -/
theorem test_step_ex18 :
    nextIs (step (asks State.reset (.read 0x0008#13 4))) (fun t => t.resp == .value 4 0x01002000#32) = true := by decide

/-- EX16: CALC256 after reset stops. -/
theorem test_step_ex16 : nextIs (step (State.reset.withFetchWord 32 1)) (fun _ => true) = false := by decide +kernel

/-! ## Helper laws for the witnesses -/

theorem read_range (f : Nat → Byte) (n a i : Nat) :
    Memory.read ((List.range' a n).map (fun i => (i, f i))) i = if a ≤ i ∧ i < a + n then some (f i) else none := by
  induction n generalizing a with
  | zero =>
    simp [Memory.read]
  | succ n ih =>
    simp only [List.range'_succ, List.map_cons, Memory.read, ih]
    by_cases h : a = i
    · subst h
      simp
    · have : (a + 1 ≤ i ∧ i < a + 1 + n) ↔ (a ≤ i ∧ i < a + (n + 1)) := by omega
      rw [if_neg h]
      simp only [this]

theorem full_dataByte (p : Params) (f : Nat → Byte) (i : Nat) (h : i < 256) : (full p f).dataByte i = f i := by
  simp only [State.dataByte, State.get, full, block]
  rw [read_range, if_pos (by omega)]
  simp

theorem full_written (p : Params) (f : Nat → Byte) (e : ElemName) (h : ∀ i, e = .data i → i < 256) :
    (full p f).written e = true := by
  cases e with
  | data i =>
    have := h i rfl
    simp only [State.written, full, block]
    rw [read_range, if_pos (by omega)]
    rfl
  | roth g => cases g <;> rfl
  | toth g => cases g <;> rfl
  | recc j => simp [State.written, full, Elem.of]
  | tecc j => simp [State.written, full, Elem.of]
  | rpar j => simp [State.written, full, Elem.of]
  | tpar j => simp [State.written, full, Elem.of]
  | sym j => simp [State.written, full, Elem.of]

/-- A state that differs from `full` in the check values only has the same flags, if they are written. -/
theorem written_of_data (s : State) (es : List ElemName)
    (h : es.all (fun e => s.written e) = true) : s.Written es := by
  simpa [State.Written] using h

theorem full_inv (p : Params) (f : Nat → Byte) (hp : p.wf = true) : (full p f).Inv where
  params := hp
  canonical := decide_eq_true (List.pairwise_map.mpr (List.pairwise_lt_range' (s := 0) (n := 256)))
  bounded := by
    have hn : 256 ≤ p.nmax := by simp [Params.wf] at hp; omega
    intro x hx
    obtain ⟨i, hi, rfl⟩ := List.mem_map.mp hx
    have : i < 256 := by simpa using hi
    exact Nat.lt_of_lt_of_le this hn
  roth := by simp [VarCheck.Narrow, full, Elem.of]
  toth := by simp [VarCheck.Narrow, full, Elem.of]
  status := .reset rfl

/-- The state a command leaves, where it leaves one. -/
def after (i : Instr) (s : State) : State :=
  match exec i s with
  | .next t => t
  | .fault _ => s
  | .refused _ => s

theorem exec_after (i : Instr) (s : State) (h : nextIs (exec i s) (fun _ => true) = true) : exec i s = .next (after i s) := by
  unfold after
  cases hx : exec i s <;> simp [hx, nextIs] at h ⊢

/-- The state a step leaves, where it leaves one. -/
def afterStep (s : State) : State :=
  match step s with
  | .next t => t
  | .fault _ => s
  | .refused _ => s

theorem step_afterStep (s : State) (h : nextIs (step s) (fun _ => true) = true) : step s = .next (afterStep s) := by
  unfold afterStep
  cases hx : step s <;> simp [hx, nextIs] at h ⊢

/-! ## Witnesses: for each obligation with hypotheses, a concrete state and operands that meet all of them -/

/-- `StepRunsDecodedCommand`. -/
theorem wit_StepRunsDecodedCommand :
    (State.reset.withFetchWord 32 0x000C0003).host = .write 0#13 4 0x000C0003#32 :: []
    ∧ decodeWord 0x000C0003#32 = .ok (.calcn 12#16) := by decide

/-- `RefusedWordWritesOnlyCmdAndStatus`: a word for each reason of R97, LEN one above each bound among them. -/
theorem wit_RefusedWordWritesOnlyCmdAndStatus :
    (State.reset.withFetchWord 32 0x00000009).host = .write 0#13 4 0x00000009#32 :: []
    ∧ RefusedWord .default 0x00000009#32 ∧ RefusedWord .default 0x00000000#32 ∧ RefusedWord .default 0x00000011#32
    ∧ RefusedWord .default 0x00010001#32 ∧ RefusedWord rsBuild 0x000C0003#32 ∧ RefusedWord .default 0x00000005#32
    ∧ RefusedWord .default 0x01010003#32 ∧ RefusedWord { Params.default with w := 8, nmax := 512 } 0x01010004#32 := by
  refine ⟨rfl, ?_, ?_, ?_, ?_, ?_, ?_, ?_, ?_⟩ <;> unfold RefusedWord <;> decide

/-- `IllFormedCommandRefused`. -/
theorem wit_IllFormedCommandRefused : (Instr.calcn 257#16).wf State.reset.params = false := by decide

/-- `ResetStateIsLegal`, `ConfigReportsParameters` and `WindowMap`: the ends of the ranges of R11. -/
theorem wit_params :
    Params.default.wf = true ∧ Params.wf { Params.default with w := 1, nmax := 256 } = true
    ∧ Params.wf { Params.default with w := 32, nmax := 4096 } = true := by decide

/-- `WindowMap`: the last byte of DATA, and the first and last unmapped offsets of its clauses. -/
theorem wit_WindowMap :
    ElemName.exists .default (.data 255) ∧ ElemName.offset (.data 255) + 0 = 0x10FF
    ∧ ∀ off ∈ [0x000C, 0x001F, 0x002C, 0x003F, 0x0050, 0x007C, 0x00FF, 0x0200, 0x0FFF, 0x1100, 0x1FFF],
      off < 0x2000 ∧ 0x000C ≤ off ∧ off ≠ 0x0013 ∧ off ≠ 0x0017 ∧ off ≠ 0x007A ∧ off ≠ 0x007B
      ∧ ¬(0x0100 ≤ off ∧ off < 0x0200)
      ∧ ∀ e : ElemName, e.exists .default → ¬(e.offset ≤ off ∧ off < e.offset + e.bytes) := by
  have key : ∀ off, winByte .default off = .unmapped → ∀ e : ElemName, e.exists .default →
      ¬(e.offset ≤ off ∧ off < e.offset + e.bytes) := by
    intro off hu e he ⟨h1, h2⟩
    have h := (winByte_eq_elem_iff .default off (off - e.offset) e).mpr ⟨he, by omega, by omega⟩
    rw [hu] at h
    cases h
  refine ⟨by unfold ElemName.exists; decide, rfl, fun off hoff => ?_⟩
  have hu : winByte .default off = .unmapped ∧ off < 0x2000 ∧ 0x000C ≤ off ∧ off ≠ 0x0013 ∧ off ≠ 0x0017 ∧ off ≠ 0x007A
      ∧ off ≠ 0x007B ∧ ¬(0x0100 ≤ off ∧ off < 0x0200) := by
    revert off
    decide
  obtain ⟨h0, h1, h2, h3, h4, h5, h6, h7⟩ := hu
  exact ⟨h1, h2, h3, h4, h5, h6, h7, key off h0⟩

/-- A legal state whose next access is a store, and one whose next access is a command. -/
theorem wit_StepKeepsLegalState :
    (∃ t, (asks (full .default blockB) (.write 0x0024#13 4 0xFFFFFFFF#32)).Inv
      ∧ step (asks (full .default blockB) (.write 0x0024#13 4 0xFFFFFFFF#32)) = .next t)
    ∧ ∃ t, ((full .default blockB).withFetchWord 32 2).Inv ∧ step ((full .default blockB).withFetchWord 32 2) = .next t := by
  have h := full_inv .default blockB (by decide)
  exact ⟨⟨_, ⟨h.1, h.2, h.3, h.4, h.5, h.6⟩, rfl⟩,
    ⟨_, ⟨h.1, h.2, h.3, h.4, h.5, h.6⟩, step_afterStep _ (by decide +kernel)⟩⟩

/-- `StepKeepsParameters`. -/
theorem wit_StepKeepsParameters : ∃ t, step (State.reset.withFetchWord 32 0x00000003) = .next t :=
  ⟨_, step_afterStep _ (by decide +kernel)⟩

/-- `RefusedAccessChangesNothing`: EX10 to EX14 and a width of 3 bytes. -/
theorem wit_RefusedAccessChangesNothing :
    (asks State.reset (.write 0x0004#13 4 0#32)).host = .write 0x0004#13 4 0#32 :: []
    ∧ RefusedAccess .default (.write 0x0004#13 4 0#32) ∧ RefusedAccess .default (.write 0x0101#13 1 0#32)
    ∧ RefusedAccess .default (.write 0x0000#13 1 1#32) ∧ RefusedAccess .default (.read 0x0011#13 4)
    ∧ RefusedAccess .default (.read 0x1100#13 1) ∧ RefusedAccess .default (.read 0x0000#13 3) :=
  ⟨rfl, .inr (.inl ⟨0, by decide, trivial⟩), .inr (.inl ⟨0, by decide, trivial⟩),
    .inr (.inr ⟨⟨0, 0, by decide, rfl⟩, by decide⟩), .inr (.inl (by decide)), .inr (.inr ⟨0, by decide, rfl⟩),
    .inl (by decide)⟩

/-- `OnlyRefusedAccessesAnswerBusError`. -/
theorem wit_OnlyRefusedAccessesAnswerBusError :
    (asks State.reset (.read 0x1FFF#13 1)).host = .read 0x1FFF#13 1 :: []
    ∧ ∃ t, step (asks State.reset (.read 0x1FFF#13 1)) = .next t ∧ t.resp = .busError := ⟨rfl, _, rfl, rfl⟩

/-- An access that no rule refuses: the reads of RECC[0..2] with padding, of LP, and of the last byte of DATA. -/
theorem accepted_reads :
    ¬RefusedAccess .default (.read 0x0010#13 4) ∧ ¬RefusedAccess .default (.read 0x0024#13 4)
    ∧ ¬RefusedAccess .default (.read 0x10FF#13 1) := by
  unfold RefusedAccess BadAccess
  decide

/-- Reads that no rule refuses: of CMD, STATUS, CONFIG and the ends of COLTAB. -/
theorem accepted_register_reads :
    ¬RefusedAccess .default (.read 0x0000#13 4) ∧ ¬RefusedAccess .default (.read 0x0006#13 2)
    ∧ ¬RefusedAccess .default (.read 0x000B#13 1) ∧ ¬RefusedAccess .default (.read 0x0100#13 4)
    ∧ ¬RefusedAccess .default (.read 0x01FF#13 1) := by
  unfold RefusedAccess BadAccess
  decide

/-- In `full` every element that the window shows has been written. -/
theorem full_written_window (f : Nat → Byte) (off : Nat) (e : ElemName) (lane : Nat)
    (h : winByte .default off = .elem e lane) : (full .default f).written e = true := by
  refine full_written _ _ _ fun j hj => ?_
  subst hj
  exact ((winByte_eq_elem_iff _ _ _ _).mp h).1

/-- `ReadReturnsCoveredBytes`: the state's elements are written, whatever is read; the reads above are accepted; and each
clause has a byte it speaks of. -/
theorem wit_ReadReturnsCoveredBytes :
    (∀ a n, (asks (full .default blockB) (.read a n)).host = .read a n :: []
      ∧ ∀ i e lane, i < n → winByte .default (a.toNat + i) = .elem e lane →
          (asks (full .default blockB) (.read a n)).written e = true)
    ∧ ¬RefusedAccess .default (.read 0x0010#13 4) ∧ ¬RefusedAccess .default (.read 0x0000#13 4)
    ∧ winByte .default ((0x0000#13).toNat + 3) = .cmd 3 ∧ winByte .default ((0x0006#13).toNat + 1) = .status 3
    ∧ winByte .default ((0x000B#13).toNat + 0) = .config 3 ∧ winByte .default ((0x0010#13).toNat + 2) = .elem (.recc 2) 0
    ∧ winByte .default ((0x0024#13).toNat + 3) = .elem (.roth .lp) 3 ∧ winByte .default ((0x0010#13).toNat + 3) = .padding
    ∧ winByte .default ((0x0100#13).toNat + 0) = .rom 0x00#8 ∧ winByte .default ((0x01FF#13).toNat + 0) = .rom 0xFF#8 :=
  ⟨fun _ _ => ⟨rfl, fun _ _ _ _ h => (State.setHost_written ..).trans (full_written_window _ _ _ _ h)⟩,
    accepted_reads.1, accepted_register_reads.1, rfl, rfl, rfl, rfl, rfl, rfl, rfl, rfl⟩

/-- `UnwrittenReadFaults`: EX15, and the last byte of DATA. -/
theorem wit_UnwrittenReadFaults :
    (asks State.reset (.read 0x10FF#13 1)).host = .read 0x10FF#13 1 :: []
    ∧ ¬RefusedAccess State.reset.params (.read 0x10FF#13 1) ∧ ¬RefusedAccess State.reset.params (.read 0x0010#13 4)
    ∧ winByte State.reset.params ((0x10FF#13).toNat + 0) = .elem (.data 255) 0
    ∧ winByte State.reset.params ((0x0010#13).toNat + 2) = .elem (.recc 2) 0
    ∧ State.reset.written (.data 255) = false ∧ State.reset.written (.recc 2) = false :=
  ⟨rfl, accepted_reads.2.2, accepted_reads.1, rfl, rfl, rfl, rfl⟩

/-- `ReadHasNoSideEffect`. -/
theorem wit_ReadHasNoSideEffect :
    (asks State.reset (.read 0x0008#13 4)).host = .read 0x0008#13 4 :: []
    ∧ ∃ t, step (asks State.reset (.read 0x0008#13 4)) = .next t := ⟨rfl, _, rfl⟩

/-- `SlotWriteThenReadReturnsLowBits`: the last byte of DATA, and a line parity narrower than its slot. -/
theorem wit_SlotWriteThenReadReturnsLowBits :
    State.reset.params.wf = true ∧ ElemName.exists State.reset.params (.data 255)
    ∧ (State.reset.setHost [.write 0x10FF#13 1 0x1AB#32, .read 0x10FF#13 1]).host
        = .write (BitVec.ofNat 13 (ElemName.offset (.data 255))) (ElemName.bytes (.data 255)) 0x1AB#32
          :: .read (BitVec.ofNat 13 (ElemName.offset (.data 255))) (ElemName.bytes (.data 255)) :: []
    ∧ Params.wf { Params.default with w := 1 } = true ∧ ElemName.exists { Params.default with w := 1 } (.toth .lpp)
    ∧ ((State.resetWith { Params.default with w := 1 }).setHost [.write 0x0038#13 4 3#32, .read 0x0038#13 4]).host
        = .write (BitVec.ofNat 13 (ElemName.offset (.toth .lpp))) (ElemName.bytes (.toth .lpp)) 3#32
          :: .read (BitVec.ofNat 13 (ElemName.offset (.toth .lpp))) (ElemName.bytes (.toth .lpp)) :: [] :=
  ⟨by decide, by unfold ElemName.exists; decide, rfl, by decide, trivial, rfl⟩

/-- A write is accepted where its shape is right and every byte it covers is an element's or padding. -/
theorem accepted_write (p : Params) (a : BitVec 13) (n : Nat) (v : Word) (hs : aligned a n = true)
    (hb : (covered p a n).all WinByte.storable = true) : ¬RefusedAccess p (.write a n v) := by
  have hst (i : Nat) (hi : i < n) : (winByte p (a.toNat + i)).storable = true :=
    List.all_eq_true.mp hb _ (List.mem_map.mpr ⟨i, List.mem_range.mpr hi, rfl⟩)
  rintro ((h | h | ⟨i, hi, h⟩) | ⟨i, hi, h⟩ | ⟨⟨i, lane, hi, h⟩, -⟩)
  · simp [aligned, h] at hs
  · simp [aligned, h] at hs
  · simpa [h, WinByte.storable] using hst i hi
  · have := hst i hi
    generalize winByte p (a.toNat + i) = b at h this
    cases b <;> first | exact h | simp [WinByte.storable] at this
  · simpa [h, WinByte.storable] using hst i hi

/-- `StoreReplacesCoveredBits`: one 32-bit store over RPAR[0] and RPAR[1], over DATA[252..255] and over a whole LP, a 16-bit
store into the high half of LPP, and 8-bit stores into LP and into the read-as-zero lane of COL. A bit of each kind: covered,
kept, and at the width. -/
theorem wit_StoreReplacesCoveredBits :
    (∀ a n v, (asks (full .default blockB) (.write a n v)).host = .write a n v :: [])
    ∧ (∀ v, ¬RefusedAccess .default (.write 0x0040#13 4 v) ∧ ¬RefusedAccess .default (.write 0x10FC#13 4 v)
      ∧ ¬RefusedAccess .default (.write 0x0024#13 4 v) ∧ ¬RefusedAccess .default (.write 0x002A#13 2 v)
      ∧ ¬RefusedAccess .default (.write 0x0025#13 1 v) ∧ ¬RefusedAccess .default (.write 0x0033#13 1 v))
    ∧ (∀ off e lane, winByte .default off = .elem e lane → (full .default blockB).written e = true)
    ∧ winByte .default ((0x0040#13).toNat + 2) = .elem (.rpar 1) 0
    ∧ winByte .default ((0x10FC#13).toNat + 3) = .elem (.data 255) 0
    ∧ winByte .default ((0x002A#13).toNat + 0) = .elem (.roth .lpp) 2
    ∧ winByte .default ((0x0033#13).toNat + 0) = .elem (.toth .col) 3
    ∧ (0x0040 ≤ ElemName.offset (.rpar 1) + 4 / 8 ∧ ElemName.offset (.rpar 1) + 4 / 8 < 0x0040 + 4)
    ∧ (0x002A ≤ ElemName.offset (.roth .lpp) + 31 / 8 ∧ ElemName.offset (.roth .lpp) + 31 / 8 < 0x002A + 2)
    ∧ ¬(0x002A ≤ ElemName.offset (.roth .lpp) + 15 / 8 ∧ ElemName.offset (.roth .lpp) + 15 / 8 < 0x002A + 2)
    ∧ ¬(0x0033 ≤ ElemName.offset (.toth .col) + 5 / 8 ∧ ElemName.offset (.toth .col) + 5 / 8 < 0x0033 + 1) := by
  refine ⟨fun _ _ _ => rfl, fun v => ?_, full_written_window _, rfl, rfl, rfl, rfl, by decide, by decide, by decide, by decide⟩
  refine ⟨?_, ?_, ?_, ?_, ?_, ?_⟩ <;> exact accepted_write _ _ _ _ (by decide) (by decide)

/-- R66: an 8-bit write to 0x0025 replaces bits 15:8 of ROTH.LP, the rule's own example. -/
theorem test_store_lp_byte :
    nextIs (step (asks ((full .default blockB).put (.roth .lp) 0x11223344#32) (.write 0x0025#13 1 0xFFFFFFA5#32)))
      (fun t => t.get (.roth .lp) == 0x1122A544#32) = true := by decide +kernel

/-- R63, R66, R37: a 32-bit write to 0x0040 stores 5 bits of each half into RPAR[0] and RPAR[1]. -/
theorem test_store_rpar_pair :
    nextIs (step (asks State.reset (.write 0x0040#13 4 0xFFF5FFEA#32)))
      (fun t => t.get (.rpar 0) == 0x0A#32 && t.get (.rpar 1) == 0x15#32 && !t.written (.rpar 2)) = true := by
  decide +kernel

/-- `StoreChangesOnlyCoveredElements`: a 32-bit store to SYM[0..3], and an 8-bit store to padding. -/
theorem wit_StoreChangesOnlyCoveredElements :
    (asks State.reset (.write 0x0060#13 4 0xFFFFFFFF#32)).host = .write 0x0060#13 4 0xFFFFFFFF#32 :: []
    ∧ ¬RefusedAccess State.reset.params (.write 0x0060#13 4 0xFFFFFFFF#32) ∧ ¬(4 = 4 ∧ 0x0060#13 = 0#13)
    ∧ ¬RefusedAccess State.reset.params (.write 0x007B#13 1 1#32) :=
  ⟨rfl, accepted_write _ _ _ _ (by decide) (by decide), by decide, accepted_write _ _ _ _ (by decide) (by decide)⟩

/-- `ResetLeavesSpecifiedValues`: a platform reset of a state with everything written. -/
theorem wit_ResetLeavesSpecifiedValues :
    (asks (full .default blockB) .platformReset).host = .platformReset :: []
    ∧ (asks (full .default blockB) .platformReset).params = .default := ⟨rfl, rfl⟩

/-- `OnlyPlatformResetClearsWrittenFlags`. -/
theorem wit_OnlyPlatformResetClearsWrittenFlags :
    (full .default blockB).written (.data 255) = true
    ∧ (∀ rest, (asks (full .default blockB) (.write 0x10FF#13 1 0#32)).host ≠ .platformReset :: rest)
    ∧ ∃ t, step (asks (full .default blockB) (.write 0x10FF#13 1 0#32)) = .next t :=
  ⟨full_written _ _ _ (by simp), by simp [asks], _, rfl⟩

/-- `ResetContentsAreUnobservable`: two reset states that differ in what RECC holds. -/
theorem wit_ResetContentsAreUnobservable :
    SameButUnwritten State.reset { State.reset with recc := Vector.replicate 3 { val := 1#8, written := false } } where
  flag e := by
    cases e with
    | roth g => cases g <;> rfl
    | toth g => cases g <;> rfl
    | _ => simp [State.written, State.reset, State.resetWith, Elem.unwritten]
  value e h := by
    cases e with
    | roth g => cases g <;> rfl
    | toth g => cases g <;> rfl
    | recc j => simp [State.written, State.reset, State.resetWith, Elem.unwritten] at h
    | _ => rfl
  data := rfl
  params := rfl
  cmd := rfl
  status := rfl
  host := rfl
  resp := rfl
  freeCount := rfl

/-- `IdleCoreHoldsItsState`. -/
theorem wit_IdleCoreHoldsItsState : State.reset.host = [] := rfl

/-- FC16's check values with DATA[0..0xC3] written: the byte they decode, DATA[0xC4], is not. -/
def decodesUnwritten256 : State :=
  { fixedCase true (bytes3 0x66#8 0x95#8 0x6B#8) (bytes3 0xC3#8 0xF0#8 0x0F#8) with data := block 0xC4 blockB }

/-- VN14's check values with DATA[0..6] written: the byte they decode, DATA[7], is not. -/
def decodesUnwrittenN : State :=
  { varCase 8 (check 0x3F#6 0xE#32 0xE#32) (check 0x29#6 0x9#32 0xF6#32) with data := block 7 regionD2 }

/-- `UnwrittenOperandFaults`: EX16, and the data path of CORR256 and of CORRN (R139, R166), where the decoded byte is the only
operand unwritten. -/
theorem wit_UnwrittenOperandFaults :
    (Instr.calc256.wf State.reset.params = true ∧ .data 0 ∈ commandReads State.reset .calc256
      ∧ State.reset.written (.data 0) = false)
    ∧ (Instr.corr256.wf decodesUnwritten256.params = true ∧ .data 0xC4 ∈ commandReads decodesUnwritten256 .corr256
      ∧ decodesUnwritten256.written (.data 0xC4) = false ∧ decodesUnwritten256.Written (alwaysReads .corr256))
    ∧ ((Instr.corrn 12#16).wf decodesUnwrittenN.params = true ∧ .data 7 ∈ commandReads decodesUnwrittenN (.corrn 12#16)
      ∧ decodesUnwrittenN.written (.data 7) = false ∧ decodesUnwrittenN.Written (alwaysReads (.corrn 12#16))) := by
  unfold State.Written
  decide +kernel

/-- `CommandsChangeOnlyTheirOutputs`. -/
theorem wit_CommandsChangeOnlyTheirOutputs :
    Instr.pack.wf (full rsBuild counting).params = true ∧ ∃ t, exec .pack (full rsBuild counting) = .next t :=
  ⟨by decide, _, exec_after _ _ (by decide +kernel)⟩

/-- `CommandsReadOnlyTheirInputs`: PACK in two states that differ in RECC[0]. -/
theorem wit_CommandsReadOnlyTheirInputs :
    Instr.pack.wf (full rsBuild counting).params = true
    ∧ ((full rsBuild counting).put (.recc 0) 7#32).params = (full rsBuild counting).params
    ∧ ((full rsBuild counting).put (.recc 0) 7#32).freeCount = (full rsBuild counting).freeCount
    ∧ (∀ e ∈ commandReads (full rsBuild counting) .pack,
        ((full rsBuild counting).put (.recc 0) 7#32).get e = (full rsBuild counting).get e
        ∧ ((full rsBuild counting).put (.recc 0) 7#32).written e = (full rsBuild counting).written e)
    ∧ ∃ s', exec .pack (full rsBuild counting) = .next s' := by
  refine ⟨by decide, rfl, rfl, fun e he => ?_, _, exec_after _ _ (by decide +kernel)⟩
  obtain ⟨i, -, rfl⟩ := (mem_dataNames _ _).mp he
  exact ⟨State.get_put_of_ne _ _ _ _ (by simp), State.written_put_of_ne _ _ _ _ (by simp)⟩

/-! ### Fixed block -/

theorem full_written_data (p : Params) (f : Nat → Byte) (n : Nat) (h : n ≤ 256) : (full p f).Written (dataNames n) := by
  intro e he
  refine full_written _ _ _ fun i hi => ?_
  subst hi
  obtain ⟨j, hj, hje⟩ := (mem_dataNames n _).mp he
  cases hje
  omega

/-- `Calc256ComputesCheckValue`. -/
theorem wit_Calc256ComputesCheckValue : (full .default blockB).Written (dataNames 256) :=
  full_written_data _ _ _ (by decide)

/-- `Corr256Clean`: FC1. -/
theorem wit_Corr256Clean :
    (fixedCase false (bytes3 0x95#8 0x66#8 0x6B#8) (bytes3 0x95#8 0x66#8 0x6B#8)).Written (reccNames ++ teccNames)
    ∧ ∀ j, (fixedCase false (bytes3 0x95#8 0x66#8 0x6B#8) (bytes3 0x95#8 0x66#8 0x6B#8)).reccByte j
        = (fixedCase false (bytes3 0x95#8 0x66#8 0x6B#8) (bytes3 0x95#8 0x66#8 0x6B#8)).teccByte j :=
  ⟨written_of_data _ _ (by decide +kernel), by decide⟩

/-- What `Corr256FlipsDecodedBit` asks of the deltas. -/
def flipHyps (swap : Bool) (d0 d1 d2 : Byte) (byte bit : Nat) : Prop :=
  (∀ m, m < 4 → d0.getLsbD (2 * m + 1) ≠ d0.getLsbD (2 * m) ∧ d1.getLsbD (2 * m + 1) ≠ d1.getLsbD (2 * m))
  ∧ (∀ m, m < 4 → 1 ≤ m → d2.getLsbD (2 * m + 1) ≠ d2.getLsbD (2 * m))
  ∧ byte < 256 ∧ bit < 8
  ∧ (∀ m, m < 4 → byte.testBit m = (if swap then d1 else d0).getLsbD (2 * m + 1)
      ∧ byte.testBit (m + 4) = (if swap then d0 else d1).getLsbD (2 * m + 1))
  ∧ (∀ m, m < 3 → bit.testBit m = d2.getLsbD (2 * m + 3))

/-- `Corr256FlipsDecodedBit`: FC3, FC4 (the ends of the block), FC13 and FC16 (swapped). -/
theorem wit_Corr256FlipsDecodedBit :
    flipHyps false 0x55#8 0x55#8 0x54#8 0x00 0 ∧ flipHyps false 0xAA#8 0xAA#8 0xA8#8 0xFF 7
    ∧ flipHyps false 0x55#8 0x5A#8 0x95#8 0x30 4 ∧ flipHyps true 0xA5#8 0x65#8 0x64#8 0xC4 2
    ∧ (fixedCase true (bytes3 0x66#8 0x95#8 0x6B#8) (bytes3 0xC3#8 0xF0#8 0x0F#8)).Written (reccNames ++ teccNames)
    ∧ (fixedCase true (bytes3 0x66#8 0x95#8 0x6B#8) (bytes3 0xC3#8 0xF0#8 0x0F#8)).params.swapCompat = true
    ∧ 0xA5#8 = (0x66#8 ^^^ 0xC3#8 : Byte) ∧ 0x65#8 = (0x95#8 ^^^ 0xF0#8 : Byte) ∧ 0x64#8 = (0x6B#8 ^^^ 0x0F#8 : Byte)
    ∧ (fixedCase true (bytes3 0x66#8 0x95#8 0x6B#8) (bytes3 0xC3#8 0xF0#8 0x0F#8)).written (.data 0xC4) = true := by
  refine ⟨?_, ?_, ?_, ?_, written_of_data _ _ (by decide +kernel), rfl, by decide, by decide, by decide,
    full_written { Params.default with swapCompat := true } blockB (.data 0xC4) (by simp)⟩ <;> unfold flipHyps <;> decide

/-- `Corr256ReplacesCheckValue`: FC8 (a reserved bit). -/
theorem wit_Corr256ReplacesCheckValue :
    ∃ s : State, s.Written (reccNames ++ teccNames)
      ∧ popcount (s.reccByte 0 ^^^ s.teccByte 0) + popcount (s.reccByte 1 ^^^ s.teccByte 1)
        + popcount (s.reccByte 2 ^^^ s.teccByte 2) = 1 :=
  ⟨fixedCase false (bytes3 0x95#8 0x66#8 0x69#8) (bytes3 0x95#8 0x66#8 0x6B#8), written_of_data _ _ (by decide +kernel),
    by decide +kernel⟩

/-- `Corr256Uncorrectable`: the deltas 00 0F 00 (FC10), 55 F3 54 and 55 55 0C, one for each byte whose pairs can agree. -/
theorem wit_Corr256Uncorrectable :
    ∃ s s' s'' : State, s.Written (reccNames ++ teccNames) ∧ s'.Written (reccNames ++ teccNames)
      ∧ s''.Written (reccNames ++ teccNames)
      ∧ (s.reccByte 0 ^^^ s.teccByte 0).getLsbD (2 * 3 + 1) = (s.reccByte 0 ^^^ s.teccByte 0).getLsbD (2 * 3)
      ∧ 2 ≤ popcount (s.reccByte 0 ^^^ s.teccByte 0) + popcount (s.reccByte 1 ^^^ s.teccByte 1)
        + popcount (s.reccByte 2 ^^^ s.teccByte 2)
      ∧ (s'.reccByte 1 ^^^ s'.teccByte 1).getLsbD (2 * 0 + 1) = (s'.reccByte 1 ^^^ s'.teccByte 1).getLsbD (2 * 0)
      ∧ 2 ≤ popcount (s'.reccByte 0 ^^^ s'.teccByte 0) + popcount (s'.reccByte 1 ^^^ s'.teccByte 1)
        + popcount (s'.reccByte 2 ^^^ s'.teccByte 2)
      ∧ (s''.reccByte 2 ^^^ s''.teccByte 2).getLsbD (2 * 1 + 1) = (s''.reccByte 2 ^^^ s''.teccByte 2).getLsbD (2 * 1)
      ∧ 2 ≤ popcount (s''.reccByte 0 ^^^ s''.teccByte 0) + popcount (s''.reccByte 1 ^^^ s''.teccByte 1)
        + popcount (s''.reccByte 2 ^^^ s''.teccByte 2) :=
  ⟨fixedCase false (bytes3 0x95#8 0x66#8 0x6B#8) (bytes3 0x95#8 0x69#8 0x6B#8),
    fixedCase false (bytes3 0x55#8 0xF3#8 0x54#8) (bytes3 0#8 0#8 0#8),
    fixedCase false (bytes3 0x55#8 0x55#8 0x0C#8) (bytes3 0#8 0#8 0#8), written_of_data _ _ (by decide +kernel),
    written_of_data _ _ (by decide +kernel), written_of_data _ _ (by decide +kernel), by decide +kernel, by decide +kernel,
    by decide +kernel, by decide +kernel, by decide +kernel, by decide +kernel⟩

/-- The state `s` with the check value TECC of `t` stored in RECC. -/
def withRecc (s t : State) : State := { s with recc := t.tecc }

theorem withRecc_reccByte (s t : State) (j : Fin 3) : (withRecc s t).reccByte j = t.teccByte j := rfl

theorem withRecc_written (s t : State) (j : Fin 3) : (withRecc s t).written (.recc j) = t.written (.tecc j) := rfl

/-- A core of the build `p` with the block `g`, and the check value of the block `f` stored in RECC. -/
def readBack (p : Params) (f g : Nat → Byte) : State := withRecc (full p g) (after .calc256 (full p f))

theorem readBack_reccByte (p : Params) (f g : Nat → Byte) (j : Fin 3) :
    (readBack p f g).reccByte j = (after .calc256 (full p f)).teccByte j := withRecc_reccByte ..

theorem withRecc_writtenData (s t : State) (i : Nat) : (withRecc s t).written (.data i) = s.written (.data i) := rfl

theorem withRecc_dataByte (s t : State) (i : Nat) : (withRecc s t).dataByte i = s.dataByte i := rfl

theorem readBack_dataByte (p : Params) (f g : Nat → Byte) (i : Nat) (h : i < 256) : (readBack p f g).dataByte i = g i :=
  (withRecc_dataByte ..).trans (full_dataByte _ _ _ h)

/-- The state `s` in another build. -/
def withParams (s : State) (p : Params) : State := { s with params := p }

theorem withParams_written (s : State) (p : Params) (e : ElemName) : (withParams s p).written e = s.written e := by
  cases e <;> rfl

theorem withParams_reccByte (s : State) (p : Params) (j : Fin 3) : (withParams s p).reccByte j = s.reccByte j := rfl

theorem withParams_dataByte (s : State) (p : Params) (i : Nat) : (withParams s p).dataByte i = s.dataByte i := rfl

theorem readBack_written (p : Params) (f g : Nat → Byte) (h : (after .calc256 (full p f)).Written teccNames) :
    (readBack p f g).Written (dataNames 256 ++ reccNames) := by
  intro e he
  rcases List.mem_append.mp he with he | he
  · obtain ⟨i, hi, rfl⟩ := (mem_dataNames _ _).mp he
    exact (withRecc_writtenData ..).trans (full_written p g (.data i) (by simpa using hi))
  · simp only [reccNames, List.mem_cons, List.not_mem_nil, or_false] at he
    rcases he with rfl | rfl | rfl
    · exact (withRecc_written ..).trans (h (.tecc 0) (by simp [teccNames]))
    · exact (withRecc_written ..).trans (h (.tecc 1) (by simp [teccNames]))
    · exact (withRecc_written ..).trans (h (.tecc 2) (by simp [teccNames]))

/-- An accepted command that reads nothing unwritten completes. -/
theorem exec_after_of_body (i : Instr) (s : State) (hb : buildRefusal s.params i = none) (es : List ElemName)
    (ws : List (ElemName × Word)) (st : Word) (hi : commandBody i s = guardReads es s (complete ws st s))
    (hw : s.Written es) : exec i s = .next (after i s) := by
  have h : exec i s = complete ws st s := by rw [exec_of_admitted _ _ hb, hi, guardReads_of_written _ _ _ hw]
  unfold after
  rw [h]
  rfl

theorem exec_after_calc256 (p : Params) (f : Nat → Byte) : exec .calc256 (full p f) = .next (after .calc256 (full p f)) :=
  exec_after_of_body .calc256 (full p f) rfl (dataNames 256) (calc256Writes (full p f)) (statusDone .calc256) rfl
    (full_written_data p f 256 (Nat.le_refl 256))

theorem after_calc256_written (p : Params) (f : Nat → Byte) : (after .calc256 (full p f)).Written teccNames := by
  have hx := exec_after_calc256 p f
  rw [exec_of_admitted _ _ rfl] at hx
  rcases commandBody_cases .calc256 (full p f) with ⟨e, -, -, hf⟩ | ⟨-, ws, st, hc, hn, -⟩
  · simp [hf] at hx
  · rw [hc] at hx
    intro e he
    rw [← Host.Outcome.next.inj hx, State.setStatus_written, State.written_putAll, hn]
    simp [commandWrites, he]

theorem full_dataBytes (p : Params) (f : Nat → Byte) : (full p f).dataBytes 256 = (List.range 256).map f :=
  List.map_congr_left fun i hi => full_dataByte p f i (List.mem_range.mp hi)

theorem after_calc256_tecc (p : Params) (f : Nat → Byte) :
    (after .calc256 (full p f)).teccByte 0 = (ecc256 ((List.range 256).map f) p.swapCompat).e0
    ∧ (after .calc256 (full p f)).teccByte 1 = (ecc256 ((List.range 256).map f) p.swapCompat).e1
    ∧ (after .calc256 (full p f)).teccByte 2 = (ecc256 ((List.range 256).map f) p.swapCompat).e2 := by
  have hx := exec_after_calc256 p f
  rw [exec_of_admitted _ _ rfl] at hx
  simp only [commandBody] at hx
  rw [guardReads_of_written _ _ _ (full_written_data p f 256 (Nat.le_refl 256))] at hx
  rw [← Host.Outcome.next.inj hx, ← full_dataBytes p f]
  refine ⟨?_, ?_, ?_⟩ <;> simp [State.teccByte, calc256Writes, State.get_put, keepLow, ElemName.width, full, State.resetWith]

/-- FX8. -/
theorem ecc256_blockB : ecc256 ((List.range 256).map blockB) false = { e0 := 0x95#8, e1 := 0x66#8, e2 := 0x6B#8 } := by
  decide +kernel

/-- FX3. -/
theorem ecc256_counting :
    ecc256 ((List.range 256).map counting) false = { e0 := 0xFF#8, e1 := 0xFF#8, e2 := 0xFF#8 } := by
  decide +kernel

theorem after_blockB :
    (after .calc256 (full .default blockB)).teccByte 0 = 0x95#8 ∧ (after .calc256 (full .default blockB)).teccByte 1 = 0x66#8
    ∧ (after .calc256 (full .default blockB)).teccByte 2 = 0x6B#8 := by
  obtain ⟨h0, h1, h2⟩ := after_calc256_tecc .default blockB
  have he : ecc256 ((List.range 256).map blockB) Params.default.swapCompat = _ := ecc256_blockB
  rw [h0, h1, h2, he]
  exact ⟨rfl, rfl, rfl⟩

/-- FX8: CALC256 of block B completes with the check value 95 66 6B. -/
theorem test_calc256_fx8 :
    exec .calc256 (full .default blockB) = .next (after .calc256 (full .default blockB))
    ∧ (after .calc256 (full .default blockB)).teccByte 0 = 0x95#8 ∧ (after .calc256 (full .default blockB)).teccByte 1 = 0x66#8
    ∧ (after .calc256 (full .default blockB)).teccByte 2 = 0x6B#8 := ⟨exec_after_calc256 _ _, after_blockB⟩

/-- `SingleDataBitErrorRepaired256`: bit 7 of DATA[255] of block B read back wrong. -/
theorem wit_SingleDataBitErrorRepaired256 :
    exec .calc256 (full .default blockB) = .next (after .calc256 (full .default blockB))
    ∧ (readBack .default blockB (flipBit blockB 255 7)).params = (full .default blockB).params
    ∧ (readBack .default blockB (flipBit blockB 255 7)).Written (dataNames 256 ++ reccNames)
    ∧ (∀ i, (readBack .default blockB (flipBit blockB 255 7)).reccByte i
        = (after .calc256 (full .default blockB)).teccByte i)
    ∧ ∀ i, i < 256 → (readBack .default blockB (flipBit blockB 255 7)).dataByte i
        = flipBit (full .default blockB).dataByte 255 7 i := by
  refine ⟨exec_after_calc256 _ _, rfl, readBack_written _ _ _ (after_calc256_written _ _),
    readBack_reccByte _ _ _, fun i hi => ?_⟩
  refine (readBack_dataByte _ _ _ i hi).trans ?_
  unfold flipBit
  rw [full_dataByte _ _ _ hi]

/-- `SingleCheckBitErrorRepaired256`: a reserved bit of byte 2 and the top bit of byte 0. -/
theorem wit_SingleCheckBitErrorRepaired256 :
    ∃ u v : State, exec .calc256 (full .default blockB) = .next (after .calc256 (full .default blockB))
      ∧ u.params = (full .default blockB).params ∧ u.Written (dataNames 256 ++ reccNames)
      ∧ v.params = (full .default blockB).params ∧ v.Written (dataNames 256 ++ reccNames)
      ∧ (∀ i, u.reccByte i = if i = 2 then (after .calc256 (full .default blockB)).teccByte i ^^^ (1#8 <<< 0)
          else (after .calc256 (full .default blockB)).teccByte i)
      ∧ (∀ i, v.reccByte i = if i = 0 then (after .calc256 (full .default blockB)).teccByte i ^^^ (1#8 <<< 7)
          else (after .calc256 (full .default blockB)).teccByte i)
      ∧ (∀ i, i < 256 → u.dataByte i = (full .default blockB).dataByte i)
      ∧ ∀ i, i < 256 → v.dataByte i = (full .default blockB).dataByte i := by
  refine ⟨fixedCase false (bytes3 0x95#8 0x66#8 0x6A#8) (bytes3 0#8 0#8 0#8),
    fixedCase false (bytes3 0x15#8 0x66#8 0x6B#8) (bytes3 0#8 0#8 0#8), exec_after_calc256 _ _, rfl, ?_, rfl, ?_, ?_, ?_,
    fun _ _ => rfl, fun _ _ => rfl⟩
  rotate_left 2
  · obtain ⟨h0, h1, h2⟩ := after_blockB
    intro i
    fin_cases i <;> simp [h0, h1, h2] <;> rfl
  · obtain ⟨h0, h1, h2⟩ := after_blockB
    intro i
    fin_cases i <;> simp [h0, h1, h2] <;> rfl
  all_goals
    intro e he
    rcases List.mem_append.mp he with he | he
    · obtain ⟨i, hi, rfl⟩ := (mem_dataNames _ _).mp he
      exact full_written .default blockB (.data i) (by simpa using hi)
    · exact written_of_data _ reccNames (by decide +kernel) e he

/-- `DoubleDataBitErrorDetected256`: two bits of one byte, and one bit of each end of the block. -/
theorem wit_DoubleDataBitErrorDetected256 :
    ∃ u v : State, exec .calc256 (full .default blockB) = .next (after .calc256 (full .default blockB))
      ∧ u.params = (full .default blockB).params ∧ v.params = (full .default blockB).params
      ∧ u.Written (dataNames 256 ++ reccNames) ∧ v.Written (dataNames 256 ++ reccNames)
      ∧ (∀ i, u.reccByte i = (after .calc256 (full .default blockB)).teccByte i)
      ∧ (∀ i, v.reccByte i = (after .calc256 (full .default blockB)).teccByte i)
      ∧ (∀ i, i < 256 → u.dataByte i = flipBit (flipBit (full .default blockB).dataByte 16 0) 16 1 i)
      ∧ (∀ i, i < 256 → v.dataByte i = flipBit (flipBit (full .default blockB).dataByte 0 3) 255 3 i) := by
  have hw := after_calc256_written .default blockB
  refine ⟨readBack .default blockB (flipBit (flipBit blockB 16 0) 16 1),
    readBack .default blockB (flipBit (flipBit blockB 0 3) 255 3), exec_after_calc256 _ _, rfl, rfl,
    readBack_written _ _ _ hw, readBack_written _ _ _ hw, readBack_reccByte _ _ _, readBack_reccByte _ _ _,
    fun i hi => ?_, fun i hi => ?_⟩
  · refine (readBack_dataByte _ _ _ i hi).trans ?_
    unfold flipBit
    rw [full_dataByte _ _ _ hi]
  · refine (readBack_dataByte _ _ _ i hi).trans ?_
    unfold flipBit
    rw [full_dataByte _ _ _ hi]

/-- `MixedSwapSettings256`: FC18 (bytes 0 and 1 differ) and FC19 (they agree). -/
theorem wit_MixedSwapSettings256 :
    ∃ u v : State, exec .calc256 (full .default blockB) = .next (after .calc256 (full .default blockB))
      ∧ exec .calc256 (full .default counting) = .next (after .calc256 (full .default counting))
      ∧ u.params.swapCompat = !(full .default blockB).params.swapCompat
      ∧ v.params.swapCompat = !(full .default counting).params.swapCompat
      ∧ u.Written (dataNames 256 ++ reccNames) ∧ v.Written (dataNames 256 ++ reccNames)
      ∧ (∀ i, u.reccByte i = (after .calc256 (full .default blockB)).teccByte i)
      ∧ (∀ i, v.reccByte i = (after .calc256 (full .default counting)).teccByte i)
      ∧ (∀ i, i < 256 → u.dataByte i = (full .default blockB).dataByte i)
      ∧ (∀ i, i < 256 → v.dataByte i = (full .default counting).dataByte i)
      ∧ (after .calc256 (full .default blockB)).teccByte 0 ≠ (after .calc256 (full .default blockB)).teccByte 1
      ∧ (after .calc256 (full .default counting)).teccByte 0 = (after .calc256 (full .default counting)).teccByte 1 := by
  refine ⟨withParams (readBack .default blockB blockB) { Params.default with swapCompat := true },
    withParams (readBack .default counting counting) { Params.default with swapCompat := true },
    exec_after_calc256 _ _, exec_after_calc256 _ _, rfl, rfl,
    fun e he => (withParams_written ..).trans (readBack_written _ _ _ (after_calc256_written _ _) e he),
    fun e he => (withParams_written ..).trans (readBack_written _ _ _ (after_calc256_written _ _) e he),
    fun i => (withParams_reccByte ..).trans (readBack_reccByte ..),
    fun i => (withParams_reccByte ..).trans (readBack_reccByte ..), fun i hi => ?_, fun i hi => ?_, ?_, ?_⟩
  · rw [withParams_dataByte, readBack_dataByte _ _ _ _ hi, full_dataByte _ _ _ hi]
  · rw [withParams_dataByte, readBack_dataByte _ _ _ _ hi, full_dataByte _ _ _ hi]
  · rw [after_blockB.1, after_blockB.2.1]
    decide
  · obtain ⟨h0, h1, -⟩ := after_calc256_tecc .default counting
    have he : ecc256 ((List.range 256).map counting) Params.default.swapCompat = _ := ecc256_counting
    rw [h0, h1, he]

/-- `RepeatedCorrection256FlipsBack`: program P2. -/
theorem wit_RepeatedCorrection256FlipsBack :
    ∃ t, exec .corr256 (fixedCase false (bytes3 0x95#8 0x66#8 0x6B#8) (bytes3 0xF0#8 0xC3#8 0x0F#8)) = .next t
      ∧ t.status = 0x00002005#32 :=
  ⟨_, exec_after _ _ (by decide +kernel), by decide +kernel⟩

/-! ### Variable length -/

/-- `CalcnComputesCheckValue`: the empty region, and the longest one of the build. -/
theorem wit_CalcnComputesCheckValue :
    (full .default regionD2).params.wf = true ∧ (Instr.calcn 0#16).wf (full .default regionD2).params = true
    ∧ (Instr.calcn 256#16).wf (full .default regionD2).params = true
    ∧ (full .default regionD2).Written (dataNames 0) ∧ (full .default regionD2).Written (dataNames 256) :=
  ⟨by decide, by decide, by decide, full_written_data _ _ _ (by decide), full_written_data _ _ _ (by decide)⟩

theorem varCase_written (w : Nat) (c l q c' l' q') :
    (varCase w (check c l q) (check c' l' q')).Written (rothNames ++ tothNames) :=
  written_of_data _ _ rfl

theorem varCase_inv (c l q c' l' q') : (varCase 32 (check c l q) (check c' l' q')).Inv where
  params := by rfl
  canonical := (full_inv .default regionD2 rfl).canonical
  bounded := (full_inv .default regionD2 rfl).bounded
  roth := ⟨l.isLt, q.isLt⟩
  toth := ⟨l'.isLt, q'.isLt⟩
  status := .reset rfl

/-- `CorrnClean`: VN4. -/
theorem wit_CorrnClean :
    (Instr.corrn 12#16).wf (varCase 32 (check 0x3F#6 0xE#32 0xE#32) (check 0x3F#6 0xE#32 0xE#32)).params = true
    ∧ (varCase 32 (check 0x3F#6 0xE#32 0xE#32) (check 0x3F#6 0xE#32 0xE#32)).Written (rothNames ++ tothNames)
    ∧ ∀ f, (varCase 32 (check 0x3F#6 0xE#32 0xE#32) (check 0x3F#6 0xE#32 0xE#32)).get (.roth f)
        = (varCase 32 (check 0x3F#6 0xE#32 0xE#32) (check 0x3F#6 0xE#32 0xE#32)).get (.toth f) :=
  ⟨by decide, varCase_written _ _ _ _ _ _ _, fun f => by cases f <;> rfl⟩

/-- `CorrnFlipsBitInsideRegion`: the deltas of VN17 (byte 9 of a region of 10) and of VN18 (byte 0 of an empty region). -/
theorem wit_CorrnFlipsBitInsideRegion :
    ∃ s s' : State, s.Inv ∧ s'.Inv ∧ (Instr.corrn 10#16).wf s.params = true ∧ (Instr.corrn 0#16).wf s'.params = true
      ∧ s.Written (rothNames ++ tothNames) ∧ s'.Written (rothNames ++ tothNames)
      ∧ 0x15#32 = s.get (.roth .col) ^^^ s.get (.toth .col) ∧ 9#32 = s.get (.roth .lp) ^^^ s.get (.toth .lp)
      ∧ 0xFFFFFFF6#32 = s.get (.roth .lpp) ^^^ s.get (.toth .lpp)
      ∧ 0x15#32 = s'.get (.roth .col) ^^^ s'.get (.toth .col) ∧ 0#32 = s'.get (.roth .lp) ^^^ s'.get (.toth .lp)
      ∧ 0xFFFFFFFF#32 = s'.get (.roth .lpp) ^^^ s'.get (.toth .lpp)
      ∧ (9#32).toNat + (0xFFFFFFF6#32).toNat = 2 ^ s.params.w - 1
      ∧ (0#32).toNat + (0xFFFFFFFF#32).toNat = 2 ^ s'.params.w - 1
      ∧ (∀ m, m < 3 → (0x15#32).getLsbD (2 * m + 1) ≠ (0x15#32).getLsbD (2 * m))
      ∧ (∀ m, m < 3 → Nat.testBit 0 m = (0x15#32).getLsbD (2 * m + 1))
      ∧ (9#32).toNat < (10#16).toNat ∧ (0#16).toNat ≤ (0#32).toNat ∧ s.written (.data 9) = true :=
  ⟨varCase 32 (check 0x15#6 9#32 0xFFFFFFF6#32) (check 0#6 0#32 0#32),
    varCase 32 (check 0x15#6 0#32 0xFFFFFFFF#32) (check 0#6 0#32 0#32), varCase_inv .., varCase_inv .., by decide,
    by decide, varCase_written _ _ _ _ _ _ _, varCase_written _ _ _ _ _ _ _, by decide, by decide, by decide, by decide, by decide, by decide,
    by decide, by decide, by decide, by decide, by decide, by decide,
    full_written .default regionD2 (.data 9) (by simp)⟩

/-- `CorrnReplacesCheckValue`: VN9, the top bit of LP. -/
theorem wit_CorrnReplacesCheckValue :
    ∃ s : State, s.Inv ∧ (Instr.corrn 12#16).wf s.params = true ∧ s.Written (rothNames ++ tothNames)
      ∧ popcount (s.get (.roth .col) ^^^ s.get (.toth .col)) + popcount (s.get (.roth .lp) ^^^ s.get (.toth .lp))
          + popcount (s.get (.roth .lpp) ^^^ s.get (.toth .lpp)) = 1 :=
  ⟨varCase 32 (check 0x3F#6 0x8000000E#32 0xE#32) (check 0x3F#6 0xE#32 0xE#32), varCase_inv .., by decide,
    varCase_written _ _ _ _ _ _ _, by decide +kernel⟩

/-- `CorrnUncorrectable`: VN11 (the line deltas are no complements) and deltas {0C, 0, FFFFFFFF} (a pair agrees). -/
theorem wit_CorrnUncorrectable :
    ∃ s s' : State, s.Inv ∧ s'.Inv ∧ (Instr.corrn 12#16).wf s.params = true ∧ (Instr.corrn 12#16).wf s'.params = true
      ∧ s.Written (rothNames ++ tothNames) ∧ s'.Written (rothNames ++ tothNames)
      ∧ 0#32 = s.get (.roth .col) ^^^ s.get (.toth .col) ∧ 3#32 = s.get (.roth .lp) ^^^ s.get (.toth .lp)
      ∧ 3#32 = s.get (.roth .lpp) ^^^ s.get (.toth .lpp) ∧ (3#32).toNat + (3#32).toNat ≠ 2 ^ s.params.w - 1
      ∧ 2 ≤ popcount 0#32 + popcount 3#32 + popcount 3#32
      ∧ 0x0C#32 = s'.get (.roth .col) ^^^ s'.get (.toth .col) ∧ 0#32 = s'.get (.roth .lp) ^^^ s'.get (.toth .lp)
      ∧ 0xFFFFFFFF#32 = s'.get (.roth .lpp) ^^^ s'.get (.toth .lpp)
      ∧ (∃ m, m < 3 ∧ (0x0C#32).getLsbD (2 * m + 1) = (0x0C#32).getLsbD (2 * m))
      ∧ 2 ≤ popcount 0x0C#32 + popcount 0#32 + popcount 0xFFFFFFFF#32 :=
  ⟨varCase 32 (check 0x3F#6 0xE#32 0xE#32) (check 0x3F#6 0xD#32 0xD#32),
    varCase 32 (check 0x0C#6 0#32 0xFFFFFFFF#32) (check 0#6 0#32 0#32), varCase_inv .., varCase_inv .., by decide,
    by decide, varCase_written _ _ _ _ _ _ _, varCase_written _ _ _ _ _ _ _, by decide, by decide, by decide, by decide, by decide +kernel,
    by decide, by decide, by decide, ⟨0, by decide⟩, by decide +kernel⟩

/-- A core with the region `g`, and the check value of the first `n` bytes of `f` stored in ROTH. -/
def readBackN (n : BitVec 16) (f g : Nat → Byte) : State :=
  { full .default g with roth := (after (.calcn n) (full .default f)).toth }

theorem readBackN_written (n : BitVec 16) (f g : Nat → Byte) (m : Nat) (hm : m ≤ 256)
    (h : (readBackN n f g).Written rothNames) : (readBackN n f g).Written (dataNames m ++ rothNames) := by
  intro e he
  rcases List.mem_append.mp he with he | he
  · obtain ⟨i, hi, rfl⟩ := (mem_dataNames _ _).mp he
    exact full_written .default g (.data i) (by simp; omega)
  · exact h e he

/-- `SingleDataBitErrorRepairedN`, `DoubleDataBitErrorDetectedN` and `LineParityPrimeFollowsLineParity`: region D2, VN6 and
VN11. -/
theorem wit_variable_length_repairs :
    ∃ u v : State, exec (.calcn 12#16) (full .default regionD2) = .next (after (.calcn 12#16) (full .default regionD2))
      ∧ (full .default regionD2).params.wf = true ∧ (Instr.calcn 12#16).wf (full .default regionD2).params = true
      ∧ u.params = (full .default regionD2).params ∧ v.params = (full .default regionD2).params
      ∧ u.Written (dataNames (12#16).toNat ++ rothNames) ∧ v.Written (dataNames (12#16).toNat ++ rothNames)
      ∧ (∀ f, u.get (.roth f) = (after (.calcn 12#16) (full .default regionD2)).get (.toth f))
      ∧ (∀ f, v.get (.roth f) = (after (.calcn 12#16) (full .default regionD2)).get (.toth f))
      ∧ (∀ i, i < (12#16).toNat → u.dataByte i = flipBit (full .default regionD2).dataByte 11 0 i)
      ∧ (∀ i, i < (12#16).toNat → v.dataByte i = flipBit (flipBit (full .default regionD2).dataByte 1 0) 2 0 i)
      ∧ oddCount 12 (full .default regionD2).dataByte % 2 = 0
      ∧ ∃ t, exec (.calcn 4#16) (full .default blockB) = .next t ∧ oddCount 4 (full .default blockB).dataByte % 2 = 1 := by
  have h : nextIs (exec (.calcn 12#16) (full .default regionD2)) (fun _ => true) = true := by decide +kernel
  refine ⟨readBackN 12#16 regionD2 (flipBit regionD2 11 0), readBackN 12#16 regionD2 (flipBit (flipBit regionD2 1 0) 2 0),
    exec_after _ _ h, by decide, by decide, rfl, rfl,
    readBackN_written _ _ _ _ (by decide) (written_of_data _ _ (by decide +kernel)),
    readBackN_written _ _ _ _ (by decide) (written_of_data _ _ (by decide +kernel)), fun f => by cases f <;> rfl,
    fun f => by cases f <;> rfl, fun i hi => ?_, fun i hi => ?_, by decide +kernel, _, exec_after _ _ (by decide +kernel),
    by decide +kernel⟩
  · have hi : i < 256 := Nat.lt_trans hi (by decide)
    refine (full_dataByte .default (flipBit regionD2 11 0) i hi).trans ?_
    unfold flipBit
    rw [full_dataByte _ _ _ hi]
  · have hi : i < 256 := Nat.lt_trans hi (by decide)
    refine (full_dataByte .default (flipBit (flipBit regionD2 1 0) 2 0) i hi).trans ?_
    unfold flipBit
    rw [full_dataByte _ _ _ hi]

/-! ### Symbols -/

/-- `PackComputesClosedForm`, `UnpackReadsSymbolStream` and `CalcrsMakesCodeword`, in both packing orders. -/
theorem wit_packing :
    (full rsBuild counting).params.otherVariant = .rs ∧ (full rsMsb counting).params.otherVariant = .rs
    ∧ (full rsBuild counting).Written (dataNames 16) ∧ (full rsMsb counting).Written (dataNames 16)
    ∧ (full rsBuild counting).Written symNames ∧ (full rsMsb counting).Written symNames :=
  ⟨rfl, rfl, full_written_data _ _ _ (by decide), full_written_data _ _ _ (by decide), written_of_data _ _ (by decide +kernel),
    written_of_data _ _ (by decide +kernel)⟩

/-- `PackingRoundTrips`: both halves. -/
theorem wit_PackingRoundTrips :
    ∃ t u v : State, (full rsBuild counting).params.otherVariant = .rs ∧ exec .pack (full rsBuild counting) = .next t
      ∧ u.params = (full rsBuild counting).params ∧ u.Written symNames ∧ (∀ k, k < 26 → u.symAt k = t.symAt k)
      ∧ exec .unpack (full rsBuild counting) = .next v :=
  ⟨_, { full rsBuild blockB with sym := (after .pack (full rsBuild counting)).sym }, _, rfl, exec_after _ _ (by decide +kernel),
    rfl, written_of_data _ _ (by decide +kernel), fun _ _ => rfl, exec_after _ _ (by decide +kernel)⟩

/-! ### Reed–Solomon -/

theorem rsCase_written (f : Nat → Byte) (r t : Vector (Elem 5) 4)
    (h : (rsCase f r t).Written (rparNames ++ tparNames)) :
    (rsCase f r t).Written (dataNames 16 ++ rparNames ++ tparNames) := by
  intro e he
  rw [List.append_assoc] at he
  rcases List.mem_append.mp he with he | he
  · obtain ⟨i, hi, rfl⟩ := (mem_dataNames _ _).mp he
    exact full_written rsBuild f (.data i) (by simp; omega)
  · exact h e he

/-- `CorrrsClean`: RS1. -/
theorem wit_CorrrsClean :
    (rsCase counting (syms4 12#5 15#5 0#5 29#5) (syms4 12#5 15#5 0#5 29#5)).params.otherVariant = .rs
    ∧ (rsCase counting (syms4 12#5 15#5 0#5 29#5) (syms4 12#5 15#5 0#5 29#5)).Written
        (dataNames 16 ++ rparNames ++ tparNames)
    ∧ ∀ j, (rsCase counting (syms4 12#5 15#5 0#5 29#5) (syms4 12#5 15#5 0#5 29#5)).rparSym j
        = (rsCase counting (syms4 12#5 15#5 0#5 29#5) (syms4 12#5 15#5 0#5 29#5)).tparSym j :=
  ⟨rfl, rsCase_written _ _ _ (written_of_data _ _ (by decide +kernel)), by decide⟩

/-- What `CorrrsAppliesExplainingPattern` asks of a pattern. -/
def patternHyps (e : Pattern) (s : State) : Prop :=
  s.params.otherVariant = .rs ∧ s.Written (rparNames ++ tparNames) ∧ Pattern.Valid e ∧ (e.length = 1 ∨ e.length = 2)
    ∧ Explains e s

theorem patternHyps_of (e : Pattern) (s : State) (hv : s.params.otherVariant = .rs)
    (hw : (rparNames ++ tparNames).all (fun x => s.written x) = true)
    (h : (e.map Prod.fst).Nodup ∧ (∀ x ∈ e, x.1 < 30 ∧ x.2 ≠ 0#5) ∧ (e.length = 1 ∨ e.length = 2)
      ∧ ∀ i, i < 4 → Pattern.syndrome e i = s.syndrome i) : patternHyps e s :=
  ⟨hv, written_of_data _ _ hw, ⟨h.1, h.2.1⟩, h.2.2.1, h.2.2.2⟩

/-- `CorrrsAppliesExplainingPattern`: RS2 and RS3 (the ends of the data), RS5 and RS7 (parity only), RS6 (both). -/
theorem wit_CorrrsAppliesExplainingPattern :
    patternHyps [(29, 1#5)] (rsCase counting (syms4 12#5 15#5 0#5 29#5) (syms4 17#5 28#5 18#5 0#5))
    ∧ patternHyps [(4, 7#5)] (rsCase counting (syms4 12#5 15#5 0#5 29#5) (syms4 4#5 25#5 10#5 14#5))
    ∧ patternHyps [(3, 3#5)] (rsCase counting (syms4 15#5 15#5 0#5 29#5) (syms4 12#5 15#5 0#5 29#5))
    ∧ patternHyps [(1, 4#5), (2, 9#5)] (rsCase counting (syms4 12#5 6#5 4#5 29#5) (syms4 12#5 15#5 0#5 29#5))
    ∧ patternHyps [(26, 16#5), (0, 1#5)] (rsCase counting (syms4 12#5 15#5 0#5 28#5) (syms4 23#5 22#5 24#5 23#5)) :=
  ⟨patternHyps_of _ _ rfl (by decide +kernel) (by decide +kernel), patternHyps_of _ _ rfl (by decide +kernel) (by decide +kernel),
    patternHyps_of _ _ rfl (by decide +kernel) (by decide +kernel), patternHyps_of _ _ rfl (by decide +kernel) (by decide +kernel),
    patternHyps_of _ _ rfl (by decide +kernel) (by decide +kernel)⟩

theorem gfMul_inv_cancel : ∀ v x : Sym, v ≠ 0#5 → gfMul (gfInv v) (gfMul v x) = x := by decide +kernel

theorem alphaPow_inj : ∀ a b : Fin 30, alphaPow a = alphaPow b → a = b := by decide +kernel

/-- Multiples of distinct powers of α by one nonzero symbol are distinct. -/
theorem scaled_powers_inj (v : Sym) (a b : Nat) (hv : v ≠ 0#5) (ha : a < 30) (hb : b < 30)
    (h : gfMul v (alphaPow a) = gfMul v (alphaPow b)) : a = b := by
  have h' := congrArg (gfMul (gfInv v)) h
  rw [gfMul_inv_cancel _ _ hv, gfMul_inv_cancel _ _ hv] at h'
  exact congrArg Fin.val (alphaPow_inj ⟨a, ha⟩ ⟨b, hb⟩ h')

theorem gfMul_alphaPow_zero (v : Sym) : gfMul v (alphaPow 0) = v := by revert v; decide +kernel

/-- No pattern of 1 or 2 errors has the syndromes 0, 0, 0, 1 (RD4). -/
theorem rd4_unexplained (e : Pattern) (hv : Pattern.Valid e) (hl : e.length = 1 ∨ e.length = 2)
    (h0 : Pattern.syndrome e 0 = 0#5) (h1 : Pattern.syndrome e 1 = 0#5) : False := by
  rcases e with _ | ⟨⟨d1, v1⟩, _ | ⟨⟨d2, v2⟩, _ | ⟨_, _⟩⟩⟩
  · simp at hl
  · have := (hv.2 (d1, v1) (by simp)).2
    simp [Pattern.syndrome, gfMul_alphaPow_zero] at h0
    exact this h0
  · obtain ⟨hd1, hv1⟩ := hv.2 (d1, v1) (by simp)
    obtain ⟨hd2, -⟩ := hv.2 (d2, v2) (by simp)
    simp [Pattern.syndrome, gfMul_alphaPow_zero] at h0 h1
    subst h0
    have := scaled_powers_inj _ _ _ hv1 hd1 hd2 h1
    have hne : d1 ≠ d2 := by simpa using hv.1
    exact hne this
  · simp at hl

/-- `CorrrsUncorrectable`: RD4, a parity delta whose syndromes are 0, 0, 0, 1. -/
theorem wit_CorrrsUncorrectable :
    ∃ s : State, s.params.otherVariant = .rs ∧ s.Written (dataNames 16 ++ rparNames ++ tparNames)
      ∧ (∃ i, i < 4 ∧ s.syndrome i ≠ 0#5)
      ∧ ∀ e : Pattern, Pattern.Valid e → (e.length = 1 ∨ e.length = 2) → ¬Explains e s :=
  ⟨rsCase counting (syms4 20#5 3#5 6#5 17#5) (syms4 0#5 0#5 0#5 0#5), rfl,
    rsCase_written _ _ _ (written_of_data _ _ (by decide +kernel)), ⟨3, by decide, by decide +kernel⟩, fun e hv hl hx =>
      rd4_unexplained e hv hl ((hx 0 (by decide)).trans (by decide +kernel)) ((hx 1 (by decide)).trans (by decide +kernel))⟩

/-- `TwoSymbolErrorsRepaired`: RS1 (no error) and RS4 (two). -/
theorem wit_TwoSymbolErrorsRepaired :
    ∃ t u v : State, (full rsBuild counting).params.otherVariant = .rs ∧ exec .calcrs (full rsBuild counting) = .next t
      ∧ u.params = (full rsBuild counting).params ∧ v.params = (full rsBuild counting).params
      ∧ u.Written (dataNames 16 ++ rparNames) ∧ v.Written (dataNames 16 ++ rparNames)
      ∧ (∀ j, u.rparSym j = t.tparSym j) ∧ (∀ j, v.rparSym j = t.tparSym j)
      ∧ symbolDistance u.packed (full rsBuild counting).packed = 0
      ∧ symbolDistance v.packed (full rsBuild counting).packed = 2 := by
  refine ⟨_, rsCase counting (syms4 12#5 15#5 0#5 29#5) (syms4 0#5 0#5 0#5 0#5),
    rsCase dataRs4 (syms4 12#5 15#5 0#5 29#5) (syms4 0#5 0#5 0#5 0#5), rfl, exec_after _ _ (by decide +kernel), rfl, rfl,
    fun e he => rsCase_written _ _ _ (written_of_data _ _ (by decide +kernel)) e (List.mem_append_left _ he),
    fun e he => rsCase_written _ _ _ (written_of_data _ _ (by decide +kernel)) e (List.mem_append_left _ he),
    by decide +kernel, by decide +kernel, by decide +kernel, by decide +kernel⟩

end Sys2Proof.Tests
end

/-!
PROOFS. What one step that answers a next state can do, said once (`step_next_cases`); from it, what every step keeps:
the legal states, the parameters and the written flags (spec/10_state.md R20 to R29, R37, R41).
-/

namespace Sys2Proof.Machine

/-! ## The steps of the machine -/

theorem step_of_host_nil (s : State) (h : s.host = []) : step s = .next s := by simp [step, h]

theorem step_of_host_cons (s : State) (op : HostOp) (rest : List HostOp) (h : s.host = op :: rest) :
    step s = access op (s.setHost rest) := by simp [step, h]

theorem hostWrite_commandWrite (w : Word) (s : State) : hostWrite 0#13 4 w s = runWord w (s.setResp .wrote) := rfl

/-- The only accesses that start a command are the 32-bit writes to CMD (R65). -/
theorem startsCommand_iff (a : BitVec 13) (n : Nat) : startsCommand a n = true ↔ n = 4 ∧ a = 0#13 := by
  simp [startsCommand, and_comm]

theorem noLen_opcode {w : Word} {i j : Instr} (h : noLen w i = .ok j) (hi : opField w = i.opcode) :
    j.opcode = opField w := by
  unfold noLen at h
  split at h
  · exact Except.ok.inj h ▸ hi.symm
  · cases h

theorem decodeOp_opcode (w : Word) (i : Instr) (h : decodeOp w = .ok i) : i.opcode = opField w := by
  unfold decodeOp at h
  split_ifs at h with h1 h2 h3 h4 h5 h6 h7 h8
  · exact noLen_opcode h h1
  · exact noLen_opcode h h2
  · exact Except.ok.inj h ▸ h3.symm
  · exact Except.ok.inj h ▸ h4.symm
  · exact noLen_opcode h h5
  · exact noLen_opcode h h6
  · exact noLen_opcode h h7
  · exact noLen_opcode h h8

/-- A decoded command has the OP of its word (R91). -/
theorem decodeWord_opcode (w : Word) (i : Instr) (h : decodeWord w = .ok i) : i.opcode = opField w := by
  unfold decodeWord at h
  split at h
  · cases h
  · split at h
    · cases h
    · exact decodeOp_opcode w i h

theorem exec_of_wf (i : Instr) (s : State) (h : i.wf s.params = true) : exec i s = commandBody i s :=
  exec_of_admitted i s ((buildRefusal_eq_none_iff _ _).mpr h)

theorem exec_of_not_wf (i : Instr) (s : State) (h : i.wf s.params = false) :
    exec i s = .next (illegalCmd i.opcode s) :=
  exec_of_refused i s (mt (buildRefusal_eq_none_iff _ _).mp (by simp [h]))

/-- All that a command that answers a next state can do: it is refused (R243), or it writes the elements of R42 and a
STATUS of R28. -/
theorem exec_next_cases (i : Instr) (s t : State) (h : exec i s = .next t) :
    (i.wf s.params = false ∧ t = illegalCmd i.opcode s)
    ∨ (i.wf s.params = true ∧ ∃ ws st, t = (s.putAll ws).setStatus st ∧ ws.map Prod.fst = commandWrites s i
        ∧ StatusLegal i.opcode st) := by
  cases hwf : i.wf s.params with
  | false => exact .inl ⟨rfl, (Host.Outcome.next.inj ((exec_of_not_wf i s hwf).symm.trans h)).symm⟩
  | true =>
    rw [exec_of_wf i s hwf] at h
    rcases commandBody_cases i s with ⟨e, -, -, hf⟩ | ⟨-, ws, st, hc, hws, hst⟩
    · simp [hf] at h
    · rw [hc, complete_eq] at h
      exact .inr ⟨rfl, ws, st, (Host.Outcome.next.inj h).symm, hws, hst⟩

/-- All that a command word that answers a next state can do: the word is refused (R243), or its command is accepted and
completes with the writes of R42 and a STATUS of R28. -/
inductive WordStep (w : Word) (s : State) : State → Prop where
  | refused : WordStep w s (illegalCmd (opField w) (s.setCmd w))
  | completed (i : Instr) (ws : List (ElemName × Word)) (st : Word) :
      i.wf s.params = true → ws.map Prod.fst = commandWrites (s.setCmd w) i → StatusLegal (opField w) st →
      WordStep w s (((s.setCmd w).putAll ws).setStatus st)

theorem runWord_next (w : Word) (s t : State) (h : runWord w s = .next t) : WordStep w s t := by
  unfold runWord at h
  split at h
  · rename_i i hi
    have hop := decodeWord_opcode w i hi
    rcases exec_next_cases i _ t h with ⟨-, rfl⟩ | ⟨hwf, ws, st, rfl, hws, hst⟩
    · exact hop ▸ .refused
    · exact .completed i ws st hwf hws (hop ▸ hst)
  · exact Host.Outcome.next.inj h ▸ .refused

/-- All that one host access that answers a next state can do (R63 to R67, R270). -/
inductive AccessStep (s : State) : HostOp → State → Prop where
  | value (a : BitVec 13) (n : Nat) (v : Word) : AccessStep s (.read a n) (s.setResp (.value n v))
  | refused (op : HostOp) : op ≠ .platformReset → AccessStep s op (busError s)
  | ran (w : Word) (t : State) : WordStep w (s.setResp .wrote) t → AccessStep s (.write 0#13 4 w) t
  | stored (a : BitVec 13) (n : Nat) (v : Word) : AccessStep s (.write a n v) (hostStore a n v s)
  | reset : AccessStep s .platformReset s.platformReset

theorem access_next (op : HostOp) (s t : State) (h : access op s = .next t) : AccessStep s op t := by
  cases op with
  | read a n =>
    simp only [access, hostRead] at h
    split at h
    · exact Host.Outcome.next.inj (guardReads_next _ _ _ _ h).2 ▸ .value a n _
    · exact Host.Outcome.next.inj h ▸ .refused _ nofun
  | write a n v =>
    simp only [access, hostWrite] at h
    split at h
    · obtain ⟨rfl, rfl⟩ := (startsCommand_iff a n).mp ‹_›
      exact .ran v t (runWord_next _ _ _ h)
    · split at h
      · exact Host.Outcome.next.inj h ▸ .stored a n v
      · exact Host.Outcome.next.inj h ▸ .refused _ nofun
  | platformReset => exact Host.Outcome.next.inj h ▸ .reset

/-- All that a step that answers a next state can do. -/
theorem step_next_cases (s t : State) (h : step s = .next t) :
    (s.host = [] ∧ t = s) ∨ ∃ op rest, s.host = op :: rest ∧ AccessStep (s.setHost rest) op t := by
  cases hh : s.host with
  | nil => exact .inl ⟨rfl, (Host.Outcome.next.inj ((step_of_host_nil s hh).symm.trans h)).symm⟩
  | cons op rest => exact .inr ⟨op, rest, rfl, access_next _ _ _ ((step_of_host_cons s op rest hh).symm.trans h)⟩

/-! ## The legal states -/

/-- The part of `State.Inv` that speaks of the parameters and the storage, and not of STATUS. -/
structure State.StorageInv (s : State) : Prop where
  params : s.params.wf = true
  canonical : s.data.wf = true
  bounded : ∀ x ∈ s.data, x.1 < s.params.nmax
  roth : s.roth.Narrow s.params.w
  toth : s.toth.Narrow s.params.w

theorem State.inv_iff (s : State) : s.Inv ↔ s.StorageInv ∧ StatusLegal (opField s.cmd) s.status :=
  ⟨fun ⟨h1, h2, h3, h4, h5, h6⟩ => ⟨⟨h1, h2, h3, h4, h5⟩, h6⟩,
    fun ⟨⟨h1, h2, h3, h4, h5⟩, h6⟩ => ⟨h1, h2, h3, h4, h5, h6⟩⟩

theorem Params.wf_iff (p : Params) : p.wf = true ↔ 1 ≤ p.w ∧ p.w ≤ 32 ∧ 256 ≤ p.nmax ∧ p.nmax ≤ 4096 := by
  simp [Params.wf, and_assoc]

theorem keepLow_lt (w : Nat) (v : Word) : (keepLow w v).toNat < 2 ^ w := by
  rw [keepLow, BitVec.toNat_setWidth]
  exact (Nat.mod_le _ _).trans_lt (v.setWidth w).isLt

theorem VarCheck.Narrow.put {w : Nat} {c : VarCheck} (h : c.Narrow w) (f : VarField) (v : Word) :
    (c.put w f v).Narrow w := by
  obtain ⟨hlp, hlpp⟩ := h
  cases f with
  | col => exact ⟨hlp, hlpp⟩
  | lp => exact ⟨keepLow_lt w v, hlpp⟩
  | lpp => exact ⟨hlp, keepLow_lt w v⟩

theorem VarCheck.narrow_unwritten (w : Nat) : VarCheck.unwritten.Narrow w :=
  ⟨Nat.two_pow_pos w, Nat.two_pow_pos w⟩

/-- A write of an element that exists keeps the storage legal (R29, R37). -/
theorem State.StorageInv.put {s : State} (h : s.StorageInv) (e : ElemName) (v : Word) (he : e.exists s.params) :
    (s.put e v).StorageInv := by
  obtain ⟨hp, hc, hb, hr, ht⟩ := h
  cases e with
  | data i => exact ⟨hp, Memory.wf_write _ _ _ hc, Memory.bounded_write _ _ _ _ he hb, hr, ht⟩
  | roth f => exact ⟨hp, hc, hb, hr.put f v, ht⟩
  | toth f => exact ⟨hp, hc, hb, hr, ht.put f v⟩
  | _ => exact ⟨hp, hc, hb, hr, ht⟩

theorem State.StorageInv.putAll {s : State} (h : s.StorageInv) (ws : List (ElemName × Word))
    (he : ∀ e ∈ ws.map Prod.fst, e.exists s.params) : (s.putAll ws).StorageInv := by
  induction ws generalizing s with
  | nil => exact h
  | cons x ws ih =>
    obtain ⟨hx, hws⟩ := List.forall_mem_cons.mp he
    exact ih (h.put x.1 x.2 hx) (by simpa using hws)

theorem State.StorageInv.storeTarget {s : State} (h : s.StorageInv) (a : BitVec 13) (n : Nat) (v : Word) (t : Target)
    (he : t.elem.exists s.params) : (storeTarget a n v s t).StorageInv := by
  rcases storeTarget_eq a n v s t with heq | heq <;> rw [heq]
  · exact h.put _ _ he
  · obtain ⟨hp, hc, hb, hr, ht⟩ := h.put t.elem (storedValue a n v s t) he
    exact ⟨hp, hc, hb, hr, ht⟩

theorem State.StorageInv.hostStore {s : State} (h : s.StorageInv) (a : BitVec 13) (n : Nat) (v : Word) :
    (hostStore a n v s).StorageInv := by
  refine (hostStore_induction (fun r => r.params = s.params ∧ r.StorageInv) a n v s ?_ ?_ ⟨rfl, h⟩).2
  · rintro r t ht ⟨hp, hr⟩
    obtain ⟨i, lane, -, hw, -⟩ := targets_covered _ _ _ _ ht
    have he := ((winByte_eq_elem_iff _ _ _ _).mp hw).1
    exact ⟨by simp [hp], hr.storeTarget a n v t (hp ▸ he)⟩
  · exact fun r ⟨hp, h1, h2, h3, h4, h5⟩ => ⟨hp, h1, h2, h3, h4, h5⟩

theorem State.StorageInv.resetWith (p : Params) (hp : p.wf = true) : (State.resetWith p).StorageInv :=
  ⟨hp, rfl, nofun, VarCheck.narrow_unwritten _, VarCheck.narrow_unwritten _⟩

/-- Every element but a byte of DATA exists in every build (R29). -/
theorem ElemName.exists_of_data_lt (p : Params) (e : ElemName) (h : ∀ i, e = .data i → i < p.nmax) : e.exists p := by
  cases e with
  | data i => exact h i rfl
  | _ => trivial

/-- The bytes of DATA that a command of the build writes are inside `NMAX` (R29, R42, R96). -/
theorem data_lt_of_mem_commandWrites (s : State) (i : Instr) (hp : s.params.wf = true) (hi : i.wf s.params = true)
    (j : Nat) (h : .data j ∈ commandWrites s i) : j < s.params.nmax := by
  obtain ⟨-, -, hmin, -⟩ := (Params.wf_iff _).mp hp
  cases i with
  | corr256 =>
    cases hv : s.verdict256 with
    | dataBit byte bit =>
      obtain rfl : j = byte := by simpa [commandWrites, hv, verdictWrites] using h
      exact (verdict256_byte_lt _ _ _ _ hv).trans_le hmin
    | _ => simp [commandWrites, hv, verdictWrites, reccNames] at h
  | corrn n =>
    cases hv : s.verdictN n.toNat with
    | dataBit byte bit =>
      obtain rfl : j = byte := by simpa [commandWrites, hv, verdictWrites] using h
      have hlen : n.toNat ≤ s.params.nmax := by
        simp only [Instr.wf, Instr.lenLegal, Bool.and_eq_true, decide_eq_true_eq] at hi
        omega
      exact (verdictN_byte_lt _ _ _ _ hv).trans_le hlen
    | _ => simp [commandWrites, hv, verdictWrites, rothNames] at h
  | corrrs =>
    cases hv : s.pattern with
    | none => simp [commandWrites, hv, patternWrites] at h
    | some e =>
      have hj : j < 16 := by
        simp only [commandWrites, hv, patternWrites, List.mem_append, List.mem_map, reduceCtorEq, and_false,
          exists_false, false_or] at h
        split at h
        · simpa using h
        · cases h
      omega
  | unpack =>
    have hj : j < 16 := by simpa [commandWrites] using h
    omega
  | calc256 => simp [commandWrites, teccNames] at h
  | calcn n => simp [commandWrites, tothNames] at h
  | calcrs => simp [commandWrites, tparNames] at h
  | pack => simp [commandWrites, symNames] at h

theorem commandWrites_exist (s : State) (i : Instr) (hp : s.params.wf = true) (hi : i.wf s.params = true) :
    ∀ e ∈ commandWrites s i, e.exists s.params := fun e he =>
  ElemName.exists_of_data_lt _ e fun j hj => data_lt_of_mem_commandWrites s i hp hi j (hj ▸ he)

/-- A command word leaves a legal state, whatever STATUS held (R28, R243). -/
theorem WordStep.inv {w : Word} {s t : State} (h : WordStep w s t) (hs : s.StorageInv) : t.Inv := by
  have hc : (s.setCmd w).StorageInv := ⟨hs.params, hs.canonical, hs.bounded, hs.roth, hs.toth⟩
  rw [State.inv_iff]
  cases h with
  | refused => exact ⟨⟨hc.params, hc.canonical, hc.bounded, hc.roth, hc.toth⟩, .illegal⟩
  | completed i ws st hi hws hst =>
    obtain ⟨h1, h2, h3, h4, h5⟩ := hc.putAll ws (hws ▸ commandWrites_exist _ i hc.params hi)
    exact ⟨⟨h1, h2, h3, h4, h5⟩, by simpa using hst⟩

theorem State.Inv.setResp {s : State} (h : s.Inv) (r : BusResp) : (s.setResp r).Inv :=
  ⟨h.params, h.canonical, h.bounded, h.roth, h.toth, h.status⟩

theorem State.Inv.setHost {s : State} (h : s.Inv) (ops : List HostOp) : (s.setHost ops).Inv :=
  ⟨h.params, h.canonical, h.bounded, h.roth, h.toth, h.status⟩

theorem State.Inv.hostStore {s : State} (h : s.Inv) (a : BitVec 13) (n : Nat) (v : Word) : (hostStore a n v s).Inv := by
  obtain ⟨hs, hst⟩ := s.inv_iff.mp h
  exact (State.inv_iff _).mpr ⟨hs.hostStore a n v, by simpa using hst⟩

theorem State.inv_resetWith (p : Params) (hp : p.wf = true) : (State.resetWith p).Inv :=
  (State.inv_iff _).mpr ⟨.resetWith p hp, .reset rfl⟩

theorem State.Inv.platformReset {s : State} (h : s.Inv) : s.platformReset.Inv := by
  obtain ⟨h1, h2, h3, h4, h5, h6⟩ := State.inv_resetWith s.params h.params
  exact ⟨h1, h2, h3, h4, h5, h6⟩

theorem AccessStep.inv {s t : State} {op : HostOp} (h : AccessStep s op t) (hs : s.Inv) : t.Inv := by
  cases h with
  | value a n v => exact hs.setResp _
  | refused => exact hs.setResp _
  | ran w t hr => exact hr.inv ((State.inv_iff _).mp (hs.setResp _)).1
  | stored a n v => exact hs.hostStore a n v
  | reset => exact hs.platformReset

/-- Settles O10: each operation of a step keeps `State.Inv`. -/
theorem stepKeepsLegalState : Obligations.StepKeepsLegalState := by
  intro s t hs h
  rcases step_next_cases s t h with ⟨-, rfl⟩ | ⟨op, rest, -, ha⟩
  · exact hs
  · exact ha.inv (hs.setHost rest)

/-- Settles O9. -/
theorem resetStateIsLegal : Obligations.ResetStateIsLegal := State.inv_resetWith

/-! ## What no step writes -/

theorem WordStep.params {w : Word} {s t : State} (h : WordStep w s t) : t.params = s.params := by
  cases h with
  | refused => rfl
  | completed => simp

theorem AccessStep.params {s t : State} {op : HostOp} (h : AccessStep s op t) : t.params = s.params := by
  cases h with
  | value a n v => rfl
  | refused => rfl
  | ran w t hr => exact hr.params
  | stored a n v => simp
  | reset => rfl

/-- Settles O11. -/
theorem stepKeepsParameters : Obligations.StepKeepsParameters := by
  intro s t h
  rcases step_next_cases s t h with ⟨-, rfl⟩ | ⟨op, rest, -, ha⟩
  · rfl
  · exact ha.params

theorem WordStep.written {w : Word} {s t : State} (h : WordStep w s t) (e : ElemName) (he : s.written e = true) :
    t.written e = true := by
  cases h with
  | refused => simpa [illegalCmd] using he
  | completed => simp [State.written_putAll, he]

theorem AccessStep.written {s t : State} {op : HostOp} (h : AccessStep s op t) (hop : op ≠ .platformReset) (e : ElemName)
    (he : s.written e = true) : t.written e = true := by
  cases h with
  | value a n v => simpa using he
  | refused => simpa [busError] using he
  | ran w t hr => exact hr.written e (by simpa using he)
  | stored a n v => exact hostStore_written_mono a n v s e he
  | reset => exact absurd rfl hop

/-- Settles O24. -/
theorem onlyPlatformResetClearsWrittenFlags : Obligations.OnlyPlatformResetClearsWrittenFlags := by
  intro s t e hno h he
  rcases step_next_cases s t h with ⟨-, rfl⟩ | ⟨op, rest, hh, ha⟩
  · exact he
  · exact ha.written (fun hop => hno rest (hop ▸ hh)) e (by simpa using he)

/-- Settles O5: a 32-bit write to CMD is `runWord`, and `runWord` of a word that decodes is `exec`. -/
theorem stepRunsDecodedCommand : Obligations.StepRunsDecodedCommand := by
  intro s w i rest hh hi
  rw [step_of_host_cons s _ rest hh, access, hostWrite_commandWrite, runWord, hi]

end Sys2Proof.Machine


/-!
PROOFS. A command as the elements it reads and the output it leaves (`commandBody_eq`); that the output rests only on
what is read (`commandBody_alike`), and the statements that follow (spec/10_state.md R40 to R43).
-/

namespace Sys2Proof.Machine

/-! ## A command as its reads and its outputs (spec/10_state.md R42) -/

/-- The elements a command reads beyond those it always reads: the byte of the data path (R42, R245). -/
def pathReads (s : State) : Instr → List ElemName
  | .corr256 => verdictReads s.verdict256
  | .corrn n => verdictReads (s.verdictN n.toNat)
  | _ => []

theorem commandReads_eq (s : State) (i : Instr) : commandReads s i = alwaysReads i ++ pathReads s i := by
  cases i <;> simp [commandReads, alwaysReads, pathReads]

/-- What a completing command leaves: its writes, in order, and STATUS. -/
structure CommandOutput where
  writes : List (ElemName × Word)
  status : Word

/-- What a Hamming correct command leaves for what it found (R139, R166). -/
def verdictOutput (s : State) (i : Instr) (replace : List (ElemName × Word)) : Verdict → CommandOutput
  | .clean => ⟨[], statusWord i.opcode 0#2 false false .clean⟩
  | .dataBit byte bit => ⟨[flipWrite s byte bit], statusWord i.opcode 0#2 false true .corrected⟩
  | .checkBit => ⟨replace, statusWord i.opcode 0#2 true false .corrected⟩
  | .uncorrectable => ⟨[], statusWord i.opcode 0#2 false false .uncorrectable⟩

/-- What CORRRS leaves for what it decoded (R211). -/
def patternOutput (s : State) : Option Pattern → CommandOutput
  | none => ⟨[], statusWord Instr.corrrs.opcode 0#2 false false .uncorrectable⟩
  | some [] => ⟨[], statusWord Instr.corrrs.opcode 0#2 false false .clean⟩
  | some (x :: rest) =>
    ⟨corrrsWrites s (x :: rest), statusWord Instr.corrrs.opcode (BitVec.ofNat 2 (rest.length + 1))
      (Pattern.hasParity (x :: rest)) (Pattern.hasData (x :: rest)) .corrected⟩

/-- What an accepted command leaves where all it reads has been written. -/
def commandOutput (s : State) : Instr → CommandOutput
  | .calc256 => ⟨calc256Writes s, statusDone .calc256⟩
  | .corr256 => verdictOutput s .corr256 (corr256Replace s) s.verdict256
  | .calcn n => ⟨calcnWrites n s, statusDone (.calcn n)⟩
  | .corrn n => verdictOutput s (.corrn n) (corrnReplace s) (s.verdictN n.toNat)
  | .calcrs => ⟨calcrsWrites s, statusDone .calcrs⟩
  | .corrrs => patternOutput s s.pattern
  | .pack => ⟨symWrites s.packed, statusDone .pack⟩
  | .unpack => ⟨dataWrites 16 (unpackSym s.params.packOrder s.symAt), statusDone .unpack⟩

/-- The state a completing command leaves. -/
def State.apply (s : State) (o : CommandOutput) : State := (s.putAll o.writes).setStatus o.status

theorem finishCorrect_eq (i : Instr) (replace : List (ElemName × Word)) (v : Verdict) (s : State) :
    finishCorrect i replace v s = guardReads (verdictReads v) s (.next (s.apply (verdictOutput s i replace v))) := by
  cases v <;> rfl

theorem finishCorrrs_eq (e : Option Pattern) (s : State) : finishCorrrs e s = .next (s.apply (patternOutput s e)) := by
  rcases e with _ | _ | _ <;> rfl

/-- An accepted command checks what it always reads, then what its path reads, and completes with its output. -/
theorem commandBody_eq (i : Instr) (s : State) :
    commandBody i s
      = guardReads (alwaysReads i) s (guardReads (pathReads s i) s (.next (s.apply (commandOutput s i)))) := by
  cases i with
  | corr256 => simp only [commandBody, finishCorrect_eq]; rfl
  | corrn n => simp only [commandBody, finishCorrect_eq]; rfl
  | corrrs => simp only [commandBody, finishCorrrs_eq]; rfl
  | _ => rfl

/-- The writes of a command are those of R42. -/
theorem commandOutput_names (s : State) (i : Instr) :
    (commandOutput s i).writes.map Prod.fst = commandWrites s i := by
  cases i with
  | corr256 => simp only [commandOutput, commandWrites]; cases s.verdict256 <;> rfl
  | corrn n => simp only [commandOutput, commandWrites]; cases s.verdictN n.toNat <;> rfl
  | corrrs =>
    simp only [commandOutput, commandWrites]
    rcases s.pattern with _ | _ | ⟨x, rest⟩
    · rfl
    · rfl
    · exact corrrsWrites_names s _
  | pack => exact symWrites_names _
  | unpack => exact dataWrites_names _ _
  | _ => rfl

/-! ## A command reads only its inputs (R42) -/

/-- The states hold the same bits in the elements listed, at the same parameters. -/
structure AgreeOn (s t : State) (es : List ElemName) : Prop where
  params : t.params = s.params
  get : ∀ e ∈ es, t.get e = s.get e

section
variable {s t : State}

theorem AgreeOn.of_append {es fs : List ElemName} (h : AgreeOn s t (es ++ fs)) : AgreeOn s t es ∧ AgreeOn s t fs :=
  ⟨⟨h.params, fun e he => h.get e (List.mem_append_left _ he)⟩,
    ⟨h.params, fun e he => h.get e (List.mem_append_right _ he)⟩⟩

theorem AgreeOn.dataByte {n : Nat} (h : AgreeOn s t (dataNames n)) (i : Nat) (hi : i < n) :
    t.dataByte i = s.dataByte i := by
  rw [State.dataByte, State.dataByte, h.get _ ((mem_dataNames n _).mpr ⟨i, hi, rfl⟩)]

theorem AgreeOn.dataBytes {n : Nat} (h : AgreeOn s t (dataNames n)) : t.dataBytes n = s.dataBytes n :=
  List.map_congr_left fun i hi => h.dataByte i (List.mem_range.mp hi)

theorem AgreeOn.recc (h : AgreeOn s t reccNames) (j : Fin 3) : t.get (.recc j) = s.get (.recc j) :=
  h.get _ (by revert j; decide)

theorem AgreeOn.tecc (h : AgreeOn s t teccNames) (j : Fin 3) : t.get (.tecc j) = s.get (.tecc j) :=
  h.get _ (by revert j; decide)

theorem AgreeOn.roth (h : AgreeOn s t rothNames) (f : VarField) : t.get (.roth f) = s.get (.roth f) :=
  h.get _ (by cases f <;> decide)

theorem AgreeOn.toth (h : AgreeOn s t tothNames) (f : VarField) : t.get (.toth f) = s.get (.toth f) :=
  h.get _ (by cases f <;> decide)

theorem AgreeOn.rpar (h : AgreeOn s t rparNames) (j : Fin 4) : t.get (.rpar j) = s.get (.rpar j) :=
  h.get _ (by revert j; decide)

theorem AgreeOn.tpar (h : AgreeOn s t tparNames) (j : Fin 4) : t.get (.tpar j) = s.get (.tpar j) :=
  h.get _ (by revert j; decide)

theorem AgreeOn.symAt (h : AgreeOn s t symNames) : t.symAt = s.symAt := by
  funext k
  have hk : ElemName.sym (Fin.ofNat 26 k) ∈ symNames :=
    List.mem_map.mpr ⟨k % 26, List.mem_range.mpr (Nat.mod_lt _ (by decide)), by simp [Fin.ofNat]⟩
  rw [State.symAt, State.symAt, h.get _ hk]

theorem AgreeOn.verdict256 (hr : AgreeOn s t reccNames) (ht : AgreeOn s t teccNames) :
    t.verdict256 = s.verdict256 := by
  simp only [State.verdict256, State.deltas256, State.reccByte, State.teccByte, hr.recc, ht.tecc, hr.params]

theorem AgreeOn.verdictN (n : Nat) (hr : AgreeOn s t rothNames) (ht : AgreeOn s t tothNames) :
    t.verdictN n = s.verdictN n := by
  simp only [State.verdictN, State.deltasN, hr.roth, ht.toth]
  rw [hr.params]

theorem AgreeOn.calcnWrites (n : BitVec 16) (h : AgreeOn s t (dataNames n.toNat)) : calcnWrites n t = calcnWrites n s := by
  simp only [Machine.calcnWrites, State.accN, h.dataBytes]
  rw [h.params]

/-- PACKSYM reads no byte above the 16th: the stream's last two bits are padding (R190). -/
theorem packStream_congr (o : PackOrder) (d d' : Nat → Byte) (h : ∀ i, i < 16 → d i = d' i) (m : Nat) :
    packStream o d m = packStream o d' m := by
  by_cases hm : 128 ≤ m
  · simp [packStream, hm]
  · simp only [packStream, h (m / 8) (by omega)]

theorem AgreeOn.packed (h : AgreeOn s t (dataNames 16)) : t.packed = s.packed := by
  funext k
  have hstream : ∀ m, packStream s.params.packOrder t.dataByte m = packStream s.params.packOrder s.dataByte m :=
    packStream_congr _ _ _ h.dataByte
  simp only [State.packed, packSym, h.params, hstream]

theorem AgreeOn.pattern (hr : AgreeOn s t rparNames) (ht : AgreeOn s t tparNames) : t.pattern = s.pattern := by
  have hd : t.parityDelta = s.parityDelta := by
    funext j
    simp only [State.parityDelta, State.rparSym, State.tparSym, hr.rpar, ht.tpar]
  rw [State.pattern, State.pattern, hd]

theorem AgreeOn.corrrsWrites (e : Pattern) (hd : AgreeOn s t (dataNames 16)) (hr : AgreeOn s t rparNames) :
    corrrsWrites t e = corrrsWrites s e := by
  have hc : t.corrected e = s.corrected e := by
    funext k
    rw [State.corrected, State.corrected, hd.packed]
  simp only [Machine.corrrsWrites, parityWrites, State.rparSym, hr.rpar, hc, hd.params]

theorem AgreeOn.patternOutput (e : Option Pattern) (hd : AgreeOn s t (dataNames 16)) (hr : AgreeOn s t rparNames) :
    patternOutput t e = patternOutput s e := by
  rcases e with _ | _ | ⟨x, rest⟩
  · rfl
  · rfl
  · rw [Machine.patternOutput, Machine.patternOutput, hd.corrrsWrites _ hr]

theorem AgreeOn.verdictOutput (i : Instr) (replace : List (ElemName × Word)) (v : Verdict)
    (h : AgreeOn s t (verdictReads v)) : verdictOutput t i replace v = verdictOutput s i replace v := by
  cases v with
  | dataBit byte bit =>
    have hb : t.get (.data byte) = s.get (.data byte) := h.get _ (List.mem_singleton_self _)
    simp only [Machine.verdictOutput, flipWrite, State.dataByte, hb]
  | _ => rfl

/-- Which byte the data path reads rests only on what the command always reads. -/
theorem AgreeOn.pathReads (i : Instr) (h : AgreeOn s t (alwaysReads i)) : pathReads t i = pathReads s i := by
  cases i with
  | corr256 =>
    obtain ⟨hr, ht⟩ := h.of_append
    exact congrArg verdictReads (hr.verdict256 ht)
  | corrn n =>
    obtain ⟨hr, ht⟩ := h.of_append
    exact congrArg verdictReads (hr.verdictN n.toNat ht)
  | _ => rfl

/-- What a command leaves rests only on what it reads. -/
theorem AgreeOn.commandOutput (i : Instr) (h : AgreeOn s t (commandReads s i)) :
    commandOutput t i = commandOutput s i := by
  obtain ⟨ha, hpath⟩ := (commandReads_eq s i ▸ h).of_append
  cases i with
  | calc256 => simp only [Machine.commandOutput, calc256Writes, ha.dataBytes, ha.params]
  | corr256 =>
    obtain ⟨hr, ht⟩ := ha.of_append
    simp only [Machine.commandOutput, hr.verdict256 ht, corr256Replace, ht.tecc, hpath.verdictOutput]
  | calcn n => simp only [Machine.commandOutput, ha.calcnWrites]
  | corrn n =>
    obtain ⟨hr, ht⟩ := ha.of_append
    simp only [Machine.commandOutput, hr.verdictN n.toNat ht, corrnReplace, ht.toth, hpath.verdictOutput]
  | calcrs => simp only [Machine.commandOutput, calcrsWrites, State.packedList, ha.packed]
  | corrrs =>
    obtain ⟨hdr, ht⟩ := ha.of_append
    obtain ⟨hd, hr⟩ := hdr.of_append
    simp only [Machine.commandOutput, hr.pattern ht, hd.patternOutput _ hr]
  | pack => simp only [Machine.commandOutput, ha.packed]
  | unpack => simp only [Machine.commandOutput, ha.symAt, ha.params]

/-- The written-flag check does the same in two states with the same flags: it names the same element, or goes on. -/
theorem guardReads_alike (es : List ElemName) (k k' : Out) (hc : t.freeCount = s.freeCount)
    (hw : ∀ e ∈ es, t.written e = s.written e) :
    (∃ f, guardReads es s k = .fault f ∧ guardReads es t k' = .fault f)
    ∨ (s.Written es ∧ guardReads es s k = k ∧ guardReads es t k' = k') := by
  have hu : t.unwrittenOf es = s.unwrittenOf es := List.filter_congr fun e he => by rw [hw e he]
  cases h : s.unwrittenOf es with
  | nil =>
    have hall : s.Written es := fun e he => by
      by_contra hne
      have := (s.mem_unwrittenOf es e).mpr ⟨he, by simpa using hne⟩
      simp [h] at this
    exact .inr ⟨hall, guardReads_of_written es s k hall,
      guardReads_of_written es t k' fun e he => by rw [hw e he, hall e he]⟩
  | cons e rest => exact .inl ⟨_, by rw [guardReads, h]; rfl, by rw [guardReads, hu, h, hc]; rfl⟩

/-- An accepted command does the same in two states that agree on what it reads: it faults alike, or leaves the same
output (R42). Where an element is unwritten its bits need not agree. -/
theorem commandBody_alike (i : Instr) (hp : t.params = s.params) (hc : t.freeCount = s.freeCount)
    (hw : ∀ e ∈ commandReads s i, t.written e = s.written e)
    (hg : ∀ e ∈ commandReads s i, s.written e = true → t.get e = s.get e) :
    (∃ f, commandBody i s = .fault f ∧ commandBody i t = .fault f)
    ∨ (commandOutput t i = commandOutput s i ∧ commandBody i s = .next (s.apply (commandOutput s i))
      ∧ commandBody i t = .next (t.apply (commandOutput s i))) := by
  simp only [commandReads_eq, List.mem_append] at hw hg
  rw [commandBody_eq i s, commandBody_eq i t]
  rcases guardReads_alike (alwaysReads i) _ _ hc fun e he => hw e (.inl he) with hf | ⟨hwa, h1, h1'⟩
  · exact .inl hf
  have ha : AgreeOn s t (alwaysReads i) := ⟨hp, fun e he => hg e (.inl he) (hwa e he)⟩
  rw [h1, h1', ha.pathReads]
  rcases guardReads_alike (pathReads s i) _ _ hc fun e he => hw e (.inr he) with hf | ⟨hwb, h2, h2'⟩
  · exact .inl hf
  have hall : AgreeOn s t (commandReads s i) := by
    refine ⟨hp, fun e he => ?_⟩
    rw [commandReads_eq, List.mem_append] at he
    exact hg e he (he.elim (hwa e) (hwb e))
  have ho := hall.commandOutput i
  exact .inr ⟨ho, h2, by rw [h2', ho]⟩

end

/-- Settles O29: a completed command leaves the frame of its list of writes, which are those of R42. -/
theorem commandsChangeOnlyTheirOutputs : Obligations.CommandsChangeOnlyTheirOutputs := by
  intro i s t hi h
  rcases exec_next_cases i s t h with ⟨hno, -⟩ | ⟨-, ws, st, rfl, hws, -⟩
  · rw [hi] at hno
    cases hno
  · exact hws ▸ frame_complete ws st s

/-- A written element holds what the writes put there, whatever the state held. -/
theorem State.get_apply_of_mem (s t : State) (o : CommandOutput) (e : ElemName) (hp : t.params = s.params)
    (he : e ∈ o.writes.map Prod.fst) : (t.apply o).get e = (s.apply o).get e := by
  have hsome : lastWrite o.writes e ≠ none := mt (lastWrite_eq_none _ _).mp (not_not.mpr he)
  obtain ⟨v, hv⟩ := Option.ne_none_iff_exists'.mp hsome
  simp [State.apply, State.get_putAll, hv, hp]

theorem State.written_apply_of_mem (s : State) (o : CommandOutput) (e : ElemName) (he : e ∈ o.writes.map Prod.fst) :
    (s.apply o).written e = true := by
  rw [State.apply, State.setStatus_written, State.written_putAll, decide_eq_true he, Bool.true_or]

/-- Settles O30: the two commands fault alike, or leave the same output in their states. -/
theorem commandsReadOnlyTheirInputs : Obligations.CommandsReadOnlyTheirInputs := by
  intro i s t hi hp hc h
  rw [exec_of_wf i s hi, exec_of_wf i t (hp ▸ hi)]
  rcases commandBody_alike i hp hc (fun e he => (h e he).2) (fun e he _ => (h e he).1) with
    ⟨f, hs, ht⟩ | ⟨ho, hs, ht⟩
  · rw [hs, ht]
    exact ⟨fun _ h' => h', fun _ h' => (nomatch h')⟩
  · rw [hs, ht]
    refine ⟨fun _ h' => (nomatch h'), fun s' hs' => ?_⟩
    obtain rfl := Host.Outcome.next.inj hs'
    refine ⟨_, rfl, rfl, by rw [← commandOutput_names t, ho, commandOutput_names], fun e he => ?_⟩
    rw [← commandOutput_names] at he
    refine ⟨State.get_apply_of_mem s t _ e hp he, ?_, ?_⟩
    · exact State.written_apply_of_mem t _ e he
    · exact State.written_apply_of_mem s _ e he

theorem State.put_setStatus (s : State) (x : Word) (e : ElemName) (v : Word) :
    (s.setStatus x).put e v = (s.put e v).setStatus x := by cases e <;> rfl

theorem State.putAll_setStatus (s : State) (x : Word) (ws : List (ElemName × Word)) :
    (s.setStatus x).putAll ws = (s.putAll ws).setStatus x := by
  induction ws generalizing s with
  | nil => rfl
  | cons w ws ih => rw [State.putAll_cons, State.put_setStatus, ih, State.putAll_cons]

/-- Settles O31: a completing command and a refused one overwrite STATUS, and neither reads it. -/
theorem noCommandReadsStatus : Obligations.NoCommandReadsStatus := by
  intro i s x
  cases hwf : i.wf s.params with
  | true =>
    rw [exec_of_wf i s hwf, exec_of_wf i (s.setStatus x) hwf]
    rcases commandBody_alike (s := s) (t := s.setStatus x) i rfl rfl (fun e _ => by simp) (fun e _ _ => by simp) with
      ⟨f, hs, ht⟩ | ⟨-, hs, ht⟩
    · rw [hs, ht]
    · rw [hs, ht, State.apply, State.putAll_setStatus]
      rfl
  | false =>
    rw [exec_of_not_wf i s hwf, exec_of_not_wf i (s.setStatus x) hwf]
    rfl

/-! ## What an element held at reset is unobservable (R40, R41, R245) -/

section
variable {s t : State}

theorem SameButUnwritten.setStatus (h : SameButUnwritten s t) (v : Word) :
    SameButUnwritten (s.setStatus v) (t.setStatus v) := by
  obtain ⟨h1, h2, h3, h4, h5, h6, h7, h8, h9⟩ := h
  exact ⟨by simpa using h1, by simpa using h2, h3, h4, h5, rfl, h7, h8, h9⟩

theorem SameButUnwritten.setCmd (h : SameButUnwritten s t) (v : Word) :
    SameButUnwritten (s.setCmd v) (t.setCmd v) := by
  obtain ⟨h1, h2, h3, h4, h5, h6, h7, h8, h9⟩ := h
  exact ⟨by simpa using h1, by simpa using h2, h3, h4, rfl, h6, h7, h8, h9⟩

theorem SameButUnwritten.setHost (h : SameButUnwritten s t) (ops : List HostOp) :
    SameButUnwritten (s.setHost ops) (t.setHost ops) := by
  obtain ⟨h1, h2, h3, h4, h5, h6, h7, h8, h9⟩ := h
  exact ⟨by simpa using h1, by simpa using h2, h3, h4, h5, h6, rfl, h8, h9⟩

theorem SameButUnwritten.setResp (h : SameButUnwritten s t) (r : BusResp) :
    SameButUnwritten (s.setResp r) (t.setResp r) := by
  obtain ⟨h1, h2, h3, h4, h5, h6, h7, h8, h9⟩ := h
  exact ⟨by simpa using h1, by simpa using h2, h3, h4, h5, h6, h7, rfl, h9⟩

theorem SameButUnwritten.tick (h : SameButUnwritten s t) : SameButUnwritten s.tick t.tick := by
  obtain ⟨h1, h2, h3, h4, h5, h6, h7, h8, h9⟩ := h
  exact ⟨by simpa using h1, by simpa using h2, h3, h4, h5, h6, h7, h8, by simp [h9]⟩

theorem SameButUnwritten.put (h : SameButUnwritten s t) (e : ElemName) (v : Word) :
    SameButUnwritten (s.put e v) (t.put e v) where
  flag f := by rw [State.written_put, State.written_put, h.flag]
  value f hf := by
    rw [State.get_put, State.get_put, h.params]
    split
    · rfl
    · rw [State.written_put, if_neg ‹_›] at hf
      exact h.value f hf
  data := by cases e <;> simp [State.put, h.data]
  params := by simp [h.params]
  cmd := by simp [h.cmd]
  status := by simp [h.status]
  host := by simp [h.host]
  resp := by simp [h.resp]
  freeCount := by simp [h.freeCount]

theorem SameButUnwritten.putAll (h : SameButUnwritten s t) (ws : List (ElemName × Word)) :
    SameButUnwritten (s.putAll ws) (t.putAll ws) := by
  induction ws generalizing s t with
  | nil => exact h
  | cons w ws ih => exact ih (h.put w.1 w.2)

theorem SameButUnwritten.exec (h : SameButUnwritten s t) (i : Instr) : Indistinguishable (exec i s) (exec i t) := by
  cases hwf : i.wf s.params with
  | true =>
    rw [exec_of_wf i s hwf, exec_of_wf i t (h.params ▸ hwf)]
    rcases commandBody_alike i h.params h.freeCount (fun e _ => h.flag e) (fun e _ => h.value e) with
      ⟨f, hs, ht⟩ | ⟨-, hs, ht⟩ <;> rw [hs, ht]
    · rfl
    · exact (h.putAll _).setStatus _
  | false =>
    rw [exec_of_not_wf i s hwf, exec_of_not_wf i t (h.params ▸ hwf)]
    exact h.setStatus _

theorem SameButUnwritten.runWord (h : SameButUnwritten s t) (w : Word) :
    Indistinguishable (runWord w s) (runWord w t) := by
  unfold Machine.runWord
  cases decodeWord w with
  | ok i => exact (h.setCmd w).exec i
  | error r => exact (h.setCmd w).setStatus _

/-- A byte of the window reads alike unless it belongs to an unwritten element. -/
theorem SameButUnwritten.winValue (h : SameButUnwritten s t) (b : WinByte)
    (hb : ∀ e, b.element = some e → s.written e = true) : t.winValue b = s.winValue b := by
  cases b with
  | cmd lane => simp only [State.winValue, h.cmd]
  | status lane => simp only [State.winValue, h.status]
  | config lane => simp only [State.winValue, h.params]
  | elem e lane => simp only [State.winValue, h.value e (hb e rfl)]
  | _ => rfl

theorem SameButUnwritten.hostRead (h : SameButUnwritten s t) (a : BitVec 13) (n : Nat) :
    Indistinguishable (hostRead a n s) (hostRead a n t) := by
  unfold Machine.hostRead
  rw [h.params]
  split
  · rcases guardReads_alike ((covered s.params a n).filterMap WinByte.element)
      (.next (s.setResp (.value n (littleEndian ((covered s.params a n).map s.winValue)))))
      (.next (t.setResp (.value n (littleEndian ((covered s.params a n).map t.winValue)))))
      h.freeCount (fun e _ => h.flag e) with ⟨f, hs, ht⟩ | ⟨hw, hs, ht⟩ <;> rw [hs, ht]
    · rfl
    · have hv : (covered s.params a n).map t.winValue = (covered s.params a n).map s.winValue :=
        List.map_congr_left fun b hb => h.winValue b fun e he => hw e (List.mem_filterMap.mpr ⟨b, hb, he⟩)
      rw [hv]
      exact h.setResp _
  · exact h.setResp _

theorem SameButUnwritten.storeTarget (h : SameButUnwritten s t) (a : BitVec 13) (n : Nat) (v : Word) (x : Target) :
    SameButUnwritten (storeTarget a n v s x) (storeTarget a n v t x) := by
  simp only [Machine.storeTarget, h.params, h.flag, h.freeCount]
  split
  · exact h.put _ _
  · split
    · rw [h.value _ ‹_›]
      exact h.put _ _
    · exact (h.put _ _).tick

theorem SameButUnwritten.hostStore (h : SameButUnwritten s t) (a : BitVec 13) (n : Nat) (v : Word) :
    SameButUnwritten (hostStore a n v s) (hostStore a n v t) := by
  unfold Machine.hostStore
  rw [h.params]
  exact (List.foldl_rel h fun x _ _ _ hr => hr.storeTarget a n v x).setResp _

theorem SameButUnwritten.hostWrite (h : SameButUnwritten s t) (a : BitVec 13) (n : Nat) (v : Word) :
    Indistinguishable (hostWrite a n v s) (hostWrite a n v t) := by
  unfold Machine.hostWrite
  rw [h.params]
  split
  · exact (h.setResp _).runWord v
  · split
    · exact h.hostStore a n v
    · exact h.setResp _

theorem SameButUnwritten.platformReset (h : SameButUnwritten s t) : t.platformReset = s.platformReset := by
  simp only [State.platformReset, h.params, h.host, h.freeCount]

theorem SameButUnwritten.refl (s : State) : SameButUnwritten s s :=
  ⟨fun _ => rfl, fun _ _ => rfl, rfl, rfl, rfl, rfl, rfl, rfl, rfl⟩

theorem SameButUnwritten.access (h : SameButUnwritten s t) (op : HostOp) :
    Indistinguishable (access op s) (access op t) := by
  cases op with
  | read a n => exact h.hostRead a n
  | write a n v => exact h.hostWrite a n v
  | platformReset =>
    rw [Machine.access, Machine.access, h.platformReset]
    exact .refl _

end

/-- Settles O25: every operation of a step keeps the relation, and no check of a flag tells the two states apart. -/
theorem resetContentsAreUnobservable : Obligations.ResetContentsAreUnobservable := by
  intro s t h
  cases hh : s.host with
  | nil =>
    rw [step_of_host_nil s hh, step_of_host_nil t (h.host.trans hh)]
    exact h
  | cons op rest =>
    rw [step_of_host_cons s op rest hh, step_of_host_cons t op rest (h.host.trans hh)]
    exact (h.setHost rest).access op

end Sys2Proof.Machine


/-!
PROOFS. Host reads and stores: which accesses are accepted (spec/20_memory.md R64, R65), the value of a read (R63, R66)
and what a store leaves in each element it covers (R66), with the statements on them. Last, what reset leaves
(spec/10_state.md R40) and the layouts of CONFIG and STATUS (R24, R26).
-/

namespace Sys2Proof.Machine

/-! ## Which accesses are accepted (R64, R65) -/

section
variable {p : Params} {a : BitVec 13} {n : Nat}

theorem aligned_iff : aligned a n = true ↔ (n = 1 ∨ n = 2 ∨ n = 4) ∧ a.toNat % n = 0 := by
  simp [aligned, or_assoc]

theorem covered_all_iff (f : WinByte → Bool) :
    (covered p a n).all f = true ↔ ∀ i, i < n → f (winByte p (a.toNat + i)) = true := by
  simp [covered]

theorem WinByte.mapped_iff (b : WinByte) : b.mapped = true ↔ b ≠ .unmapped := by cases b <;> simp [WinByte.mapped]

/-- A byte may be stored to when it is mapped, not read-only and not part of CMD. -/
theorem WinByte.storable_iff (b : WinByte) :
    b.storable = true ↔ b ≠ .unmapped ∧ ¬ReadOnly b ∧ ∀ lane, b ≠ .cmd lane := by
  cases b <;> simp [WinByte.storable, ReadOnly]

theorem readAccepted_iff_not_badAccess : readAccepted p a n = true ↔ ¬BadAccess p a n := by
  simp only [readAccepted, Bool.and_eq_true, aligned_iff, covered_all_iff, WinByte.mapped_iff, BadAccess, not_or,
    not_exists, not_and, not_not, ← and_assoc]
  grind

/-- The reads that are accepted are those that R64 does not refuse. -/
theorem readAccepted_iff : readAccepted p a n = true ↔ ¬RefusedAccess p (.read a n) := readAccepted_iff_not_badAccess

/-- The stores that are accepted are the writes that R64 and R65 do not refuse, but for the write that starts a command. -/
theorem storeAccepted_iff {v : Word} (h : ¬(n = 4 ∧ a = 0#13)) :
    storeAccepted p a n = true ↔ ¬RefusedAccess p (.write a n v) := by
  simp only [RefusedAccess, not_or, ← readAccepted_iff_not_badAccess, readAccepted, storeAccepted, Bool.and_eq_true,
    covered_all_iff, WinByte.mapped_iff, WinByte.storable_iff]
  grind

end

/-! ## The value of a read (R63, R66) -/

theorem littleEndian_getLsbD (bs : List Byte) (k : Nat) (hk : k < 32) :
    (littleEndian bs).getLsbD k = ((bs[k / 8]?).getD 0#8).getLsbD (k % 8) := by
  induction bs generalizing k with
  | nil => simp [littleEndian]
  | cons b bs ih =>
    rw [littleEndian, BitVec.getLsbD_or, BitVec.getLsbD_setWidth, BitVec.getLsbD_shiftLeft]
    by_cases h8 : k < 8
    · simp [h8, hk, Nat.div_eq_of_lt h8, Nat.mod_eq_of_lt h8]
    · obtain ⟨m, rfl⟩ := Nat.exists_eq_add_of_le' (Nat.le_of_not_lt h8)
      simp [hk, ih m (by omega)]

theorem getLsbD_laneByte (v : Word) (lane k : Nat) :
    (laneByte v lane).getLsbD k = (decide (k < 8) && v.getLsbD (8 * lane + k)) := by
  simp [laneByte, BitVec.getLsbD_extractLsb']

/-- Byte `i` of a little-endian value is the list's byte `i`. -/
theorem laneByte_littleEndian (bs : List Byte) (i : Nat) (hi : i < bs.length) (hlen : bs.length ≤ 4) :
    laneByte (littleEndian bs) i = bs[i] := by
  apply BitVec.eq_of_getLsbD_eq
  intro k hk
  rw [getLsbD_laneByte, littleEndian_getLsbD _ _ (by omega), show (8 * i + k) / 8 = i by omega,
    show (8 * i + k) % 8 = k by omega]
  simp [hk, hi]

theorem littleEndian_lt (bs : List Byte) : (littleEndian bs).toNat < 2 ^ (8 * bs.length) := by
  refine Nat.lt_pow_two_of_testBit _ fun k hk => ?_
  rw [BitVec.testBit_toNat]
  by_cases h32 : k < 32
  · rw [littleEndian_getLsbD _ _ h32, List.getElem?_eq_none (by omega)]
    simp
  · exact BitVec.getLsbD_of_ge _ _ (by omega)

/-- The lowest `n` bytes of a word, laid side by side, are its low `8·n` bits. -/
theorem littleEndian_laneBytes (v : Word) (n : Nat) :
    littleEndian ((List.range n).map (laneByte v)) = keepLow (8 * n) v := by
  apply BitVec.eq_of_getLsbD_eq
  intro k hk
  rw [littleEndian_getLsbD _ _ hk, keepLow_getLsbD]
  by_cases h : k < 8 * n
  · have hb : k / 8 < n := by omega
    simp [-BitVec.getLsbD_eq_getElem, hb, h, getLsbD_laneByte, Nat.mod_lt, Nat.div_add_mod]
  · have hb : ¬k / 8 < n := by omega
    simp [-BitVec.getLsbD_eq_getElem, hb, h]

/-- What an accepted read of `n` bytes at `a` returns. -/
def State.readValue (s : State) (a : BitVec 13) (n : Nat) : Word :=
  littleEndian ((covered s.params a n).map s.winValue)

/-- The elements that an access of `n` bytes at `a` covers. -/
def coveredElements (p : Params) (a : BitVec 13) (n : Nat) : List ElemName :=
  (covered p a n).filterMap WinByte.element

theorem mem_coveredElements (p : Params) (a : BitVec 13) (n : Nat) (e : ElemName) :
    e ∈ coveredElements p a n ↔ ∃ i lane, i < n ∧ winByte p (a.toNat + i) = .elem e lane := by
  have helem (b : WinByte) : b.element = some e ↔ ∃ lane, b = .elem e lane := by cases b <;> simp [WinByte.element]
  simp [coveredElements, covered, helem]

theorem hostRead_of_accepted (a : BitVec 13) (n : Nat) (s : State) (h : readAccepted s.params a n = true) :
    hostRead a n s
      = guardReads (coveredElements s.params a n) s (.next (s.setResp (.value n (s.readValue a n)))) := by
  rw [hostRead, if_pos h]
  rfl

/-- Byte `i` of what a read returns is what the window holds at `a + i`. -/
theorem State.laneByte_readValue (s : State) (a : BitVec 13) (n i : Nat) (hn : n ≤ 4) (hi : i < n) :
    laneByte (s.readValue a n) i = s.winValue (winByte s.params (a.toNat + i)) := by
  rw [State.readValue, laneByte_littleEndian _ _ (by simpa [covered] using hi) (by simpa [covered] using hn)]
  simp [covered]

theorem State.readValue_lt (s : State) (a : BitVec 13) (n : Nat) : (s.readValue a n).toNat < 2 ^ (8 * n) := by
  simpa [State.readValue, covered] using littleEndian_lt ((covered s.params a n).map s.winValue)

/-- A read where the window holds the bytes of one word in order returns its low bits. -/
theorem State.readValue_of_lanes (s : State) (a : BitVec 13) (n : Nat) (v : Word)
    (h : ∀ i, i < n → s.winValue (winByte s.params (a.toNat + i)) = laneByte v i) :
    s.readValue a n = keepLow (8 * n) v := by
  have hmap : (covered s.params a n).map s.winValue = (List.range n).map (laneByte v) := by
    rw [covered, List.map_map]
    exact List.map_congr_left fun i hi => h i (List.mem_range.mp hi)
  rw [State.readValue, hmap, littleEndian_laneBytes]

@[simp] theorem State.winValue_setHost (s : State) (ops : List HostOp) (b : WinByte) :
    (s.setHost ops).winValue b = s.winValue b := by cases b <;> simp [State.winValue]

@[simp] theorem State.readValue_setHost (s : State) (ops : List HostOp) (a : BitVec 13) (n : Nat) :
    (s.setHost ops).readValue a n = s.readValue a n := by
  simp [State.readValue, funext (s.winValue_setHost ops)]

theorem step_read_of_accepted (s : State) (a : BitVec 13) (n : Nat) (rest : List HostOp)
    (hh : s.host = .read a n :: rest) (h : readAccepted s.params a n = true) :
    step s = guardReads (coveredElements s.params a n) (s.setHost rest)
      (.next ((s.setHost rest).setResp (.value n (s.readValue a n)))) := by
  rw [step_of_host_cons s _ rest hh, access, hostRead_of_accepted _ _ (s.setHost rest) h, State.readValue_setHost,
    State.setHost_params]

/-- A read of written elements answers its value and changes nothing but the queue (R66, R67). -/
theorem step_read_of_written (s : State) (a : BitVec 13) (n : Nat) (rest : List HostOp)
    (hh : s.host = .read a n :: rest) (h : readAccepted s.params a n = true)
    (hw : ∀ i e lane, i < n → winByte s.params (a.toNat + i) = .elem e lane → s.written e = true) :
    step s = .next ((s.setHost rest).setResp (.value n (s.readValue a n))) := by
  rw [step_read_of_accepted s a n rest hh h]
  refine guardReads_of_written _ _ _ fun e he => ?_
  obtain ⟨i, lane, hi, hb⟩ := (mem_coveredElements _ _ _ _).mp he
  simpa using hw i e lane hi hb

theorem readAccepted_le_four {p : Params} {a : BitVec 13} {n : Nat} (h : readAccepted p a n = true) : n ≤ 4 := by
  obtain ⟨ha, -⟩ := Bool.and_eq_true_iff.mp h
  obtain ⟨hn, -⟩ := aligned_iff.mp ha
  omega

/-- Settles O18: byte `i` of the answer is what the window holds at `a + i`. -/
theorem readReturnsCoveredBytes : Obligations.ReadReturnsCoveredBytes := by
  intro s a n rest hh hok hw
  have hacc := readAccepted_iff.mpr hok
  refine ⟨s.readValue a n, step_read_of_written s a n rest hh hacc hw, s.readValue_lt a n, fun i hi => ?_⟩
  have hbyte := s.laneByte_readValue a n i (readAccepted_le_four hacc) hi
  refine ⟨fun lane h => ?_, fun lane h => ?_, fun lane h => ?_, fun e lane h => ?_, fun b h => ?_, fun h => ?_⟩ <;>
    exact hbyte.trans (congrArg s.winValue h)

/-- Settles O19: the written-flag check of a read names an element that the access covers. -/
theorem unwrittenReadFaults : Obligations.UnwrittenReadFaults := by
  intro s a n i e lane rest hh hok hi hb hw
  rw [step_read_of_accepted s a n rest hh (readAccepted_iff.mpr hok)]
  obtain ⟨f, hf, hfw, hfault⟩ := guardReads_of_unwritten (coveredElements s.params a n) (s.setHost rest)
    (.next ((s.setHost rest).setResp (.value n (s.readValue a n)))) e
    ((mem_coveredElements _ _ _ _).mpr ⟨i, lane, hi, hb⟩) (by simpa using hw)
  obtain ⟨j, k, hj, hfb⟩ := (mem_coveredElements _ _ _ _).mp hf
  exact ⟨j, f, k, hj, hfb, by simpa using hfw, hfault⟩

/-! ## The elements a store covers (R66) -/

theorem targetAt_eq_some_iff (p : Params) (a : BitVec 13) (i : Nat) (t : Target) :
    targetAt p a i = some t
      ↔ t.slot = t.elem.offset ∧ ∃ lane, winByte p (a.toNat + i) = .elem t.elem lane ∧ (lane = 0 ∨ i = 0) := by
  unfold targetAt
  split
  · rename_i e lane hb
    obtain ⟨-, -, hoff⟩ := (winByte_eq_elem_iff _ _ _ _).mp hb
    have hslot : a.toNat + i - lane = e.offset := by omega
    obtain ⟨e', slot⟩ := t
    split
    · simp only [Option.some.injEq, Target.mk.injEq, hslot]
      grind
    · simp only [reduceCtorEq, false_iff]
      grind
  · rename_i hno
    simp only [reduceCtorEq, false_iff, not_and, not_exists]
    exact fun _ lane hb => absurd hb (hno _ _)

/-- An element is a target of a store exactly when a byte of the access is one of its bytes; its slot is its own. -/
theorem mem_targets_iff (p : Params) (a : BitVec 13) (n : Nat) (t : Target) :
    t ∈ targets p a n
      ↔ t.slot = t.elem.offset ∧ ∃ i lane, i < n ∧ winByte p (a.toNat + i) = .elem t.elem lane := by
  simp only [targets, List.mem_filterMap, List.mem_range, targetAt_eq_some_iff]
  constructor
  · rintro ⟨i, hi, hslot, lane, hb, -⟩
    exact ⟨hslot, i, lane, hi, hb⟩
  · rintro ⟨hslot, i, lane, hi, hb⟩
    obtain ⟨he, hlane, hoff⟩ := (winByte_eq_elem_iff _ _ _ _).mp hb
    rcases Nat.le_total lane i with hle | hle
    · exact ⟨i - lane, by omega, hslot, 0, (winByte_eq_elem_iff _ _ _ _).mpr ⟨he, by omega, by omega⟩, .inl rfl⟩
    · exact ⟨0, by omega, hslot, lane - i, (winByte_eq_elem_iff _ _ _ _).mpr ⟨he, by omega, by omega⟩, .inr rfl⟩

/-- A store covers each element once: after the access's first byte a target begins only at an element's lane 0. -/
theorem targets_pairwise_ne (p : Params) (a : BitVec 13) (n : Nat) :
    (targets p a n).Pairwise (fun t u => t.elem ≠ u.elem) := by
  refine List.pairwise_filterMap.mpr (List.pairwise_lt_range.imp fun {i j} hij t ht u hu heq => ?_)
  obtain ⟨-, lane, hb, -⟩ := (targetAt_eq_some_iff _ _ _ _).mp ht
  obtain ⟨-, lane', hb', hopen⟩ := (targetAt_eq_some_iff _ _ _ _).mp hu
  obtain ⟨-, -, hoff⟩ := (winByte_eq_elem_iff _ _ _ _).mp hb
  obtain ⟨-, -, hoff'⟩ := (winByte_eq_elem_iff _ _ _ _).mp hb'
  rw [heq] at hoff
  omega

/-! ## What a store leaves in a covered element -/

theorem foldl_storeTarget_get_of_ne (a : BitVec 13) (n : Nat) (v : Word) (e : ElemName) (ts : List Target) (s : State)
    (h : ∀ t ∈ ts, t.elem ≠ e) : (ts.foldl (storeTarget a n v) s).get e = s.get e := by
  induction ts generalizing s with
  | nil => rfl
  | cons t ts ih =>
    obtain ⟨ht, hts⟩ := List.forall_mem_cons.mp h
    rw [List.foldl_cons, ih _ hts, storeTarget_get, if_neg ht.symm]

/-- The stores of a list of distinct elements leave in each what its own store leaves there, from a state where the
element is as before. -/
theorem foldl_storeTarget_get (a : BitVec 13) (n : Nat) (v : Word) (t : Target) (ts : List Target) (s : State)
    (hne : ts.Pairwise (fun t u => t.elem ≠ u.elem)) (ht : t ∈ ts) :
    ∃ r : State, r.params = s.params ∧ r.get t.elem = s.get t.elem ∧ r.written t.elem = s.written t.elem
      ∧ (ts.foldl (storeTarget a n v) s).get t.elem = keepLow (t.elem.width r.params) (storedValue a n v r t) := by
  induction ts generalizing s with
  | nil => cases ht
  | cons u ts ih =>
    obtain ⟨hu, hts⟩ := List.pairwise_cons.mp hne
    rcases List.mem_cons.mp ht with rfl | htail
    · refine ⟨s, rfl, rfl, rfl, ?_⟩
      rw [List.foldl_cons, foldl_storeTarget_get_of_ne _ _ _ _ _ _ fun x hx => (hu x hx).symm, storeTarget_get,
        if_pos rfl]
    · obtain ⟨r, hp, hg, hw, hr⟩ := ih (storeTarget a n v s u) hts htail
      have hne' : t.elem ≠ u.elem := (hu t htail).symm
      rw [storeTarget_get, if_neg hne'] at hg
      rw [storeTarget_written, if_neg hne'] at hw
      exact ⟨r, by simpa using hp, hg, hw, hr⟩

/-- What a store leaves in a covered element, bit by bit: the access's bit in a covered byte; elsewhere the element's own
bit, or that of a free value where nothing has written it (R66, R37). -/
theorem hostStore_getLsbD (a : BitVec 13) (n : Nat) (v : Word) (s : State) (e : ElemName) (hn : n ≤ 4)
    (he : ∃ i lane, i < n ∧ winByte s.params (a.toNat + i) = .elem e lane) :
    ∃ c, ∀ k, k < 32 → ((hostStore a n v s).get e).getLsbD k =
      (decide (k < e.width s.params) &&
        if a.toNat ≤ e.offset + k / 8 ∧ e.offset + k / 8 < a.toNat + n then
          v.getLsbD (8 * (e.offset + k / 8 - a.toNat) + k % 8)
        else if s.written e then (s.get e).getLsbD k else (Config.freeBits c).getLsbD k) := by
  have ht : (⟨e, e.offset⟩ : Target) ∈ targets s.params a n := (mem_targets_iff _ _ _ _).mpr ⟨rfl, he⟩
  obtain ⟨r, hp, hg, hw, hr⟩ :=
    foldl_storeTarget_get a n v _ (targets s.params a n) s (targets_pairwise_ne _ _ _) ht
  refine ⟨r.freeCount, fun k hk => ?_⟩
  rw [hostStore, State.setResp_get, hr, storedValue_getLsbD a n v r _ k hn hk]
  simp only [hp, hg, hw]

theorem step_store (s : State) (a : BitVec 13) (n : Nat) (v : Word) (rest : List HostOp)
    (hh : s.host = .write a n v :: rest) (hok : storeAccepted s.params a n = true) (hcmd : ¬(n = 4 ∧ a = 0#13)) :
    step s = .next (hostStore a n v (s.setHost rest)) := by
  have hno : ¬startsCommand a n = true := mt (startsCommand_iff a n).mp hcmd
  rw [step_of_host_cons s _ rest hh, access, hostWrite, if_neg hno, State.setHost_params, if_pos hok]

theorem storeAccepted_aligned {p : Params} {a : BitVec 13} {n : Nat} (h : storeAccepted p a n = true) :
    (n = 1 ∨ n = 2 ∨ n = 4) ∧ a.toNat % n = 0 := aligned_iff.mp (Bool.and_eq_true_iff.mp h).1

/-- An aligned access that covers a byte of a four-byte slot stays inside the slot. -/
theorem aligned_inside_slot {a n off i lane : Nat} (hn : n = 1 ∨ n = 2 ∨ n = 4) (ha : a % n = 0) (hoff : off % 4 = 0)
    (hi : i < n) (hlane : lane < 4) (h : a + i = off + lane) : a + n ≤ off + 4 := by
  rcases hn with rfl | rfl | rfl <;> omega

/-- Only the line parities can be wider than a byte, and they have four-byte slots at multiples of 4 (R61). -/
theorem ElemName.width_le_or (p : Params) (e : ElemName) : e.width p ≤ 8 ∨ e.bytes = 4 ∧ e.offset % 4 = 0 := by
  cases e with
  | roth f => cases f <;> simp [ElemName.bytes, ElemName.offset]
  | toth f => cases f <;> simp [ElemName.bytes, ElemName.offset]
  | _ => simp [ElemName.width]

/-- Settles O22: a bit below 32 is `hostStore_getLsbD`'s; no access reaches a bit above a four-byte slot, and a word has
none. -/
theorem storeReplacesCoveredBits : Obligations.StoreReplacesCoveredBits := by
  intro s a n v rest hh hok hcmd
  have hacc := (storeAccepted_iff hcmd).mpr hok
  obtain ⟨hn, ha⟩ := storeAccepted_aligned hacc
  refine ⟨_, step_store s a n v rest hh hacc hcmd, fun i e lane hi hb k => ?_⟩
  obtain ⟨c, hbits⟩ := hostStore_getLsbD a n v (s.setHost rest) e (by omega) ⟨i, lane, hi, hb⟩
  by_cases hk : k < 32
  · rw [hbits k hk, State.setHost_params, State.setHost_get, State.setHost_written]
    exact ⟨fun h1 h2 => by rw [if_pos ⟨h1, h2⟩], fun hw hno => by rw [if_neg hno, if_pos hw]⟩
  · have hge : 32 ≤ k := Nat.le_of_not_lt hk
    rw [BitVec.getLsbD_of_ge _ k hge, BitVec.getLsbD_of_ge (s.get e) k hge]
    refine ⟨fun h1 h2 => ?_, fun _ _ => by rw [Bool.and_false]⟩
    obtain ⟨-, hlane, hoff⟩ := (winByte_eq_elem_iff _ _ _ _).mp hb
    rcases e.width_le_or s.params with hw | ⟨hbytes, hslot⟩
    · rw [decide_eq_false (by omega), Bool.false_and]
    · have := aligned_inside_slot hn ha hslot hi (hbytes ▸ hlane) hoff
      omega

/-! ## A write and a read of an element's whole slot -/

section
variable {p : Params} {e : ElemName}

theorem ElemName.offset_bounds (hp : p.wf = true) (he : e.exists p) : 16 ≤ e.offset ∧ e.offset < 2 ^ 13 := by
  obtain ⟨-, -, -, hmax⟩ := (Params.wf_iff p).mp hp
  cases e with
  | roth f => cases f <;> decide
  | toth f => cases f <;> decide
  | _ => simp only [ElemName.exists, ElemName.offset] at *; omega

theorem ElemName.toNat_offset (hp : p.wf = true) (he : e.exists p) : (BitVec.ofNat 13 e.offset).toNat = e.offset := by
  rw [BitVec.toNat_ofNat, Nat.mod_eq_of_lt (ElemName.offset_bounds hp he).2]

theorem ElemName.width_le_slot (hp : p.wf = true) : e.width p ≤ 8 * e.bytes := by
  obtain ⟨-, hw, -⟩ := (Params.wf_iff p).mp hp
  cases e with
  | roth f => cases f <;> simp [ElemName.width, ElemName.bytes, hw]
  | toth f => cases f <;> simp [ElemName.width, ElemName.bytes, hw]
  | _ => simp [ElemName.width, ElemName.bytes]

theorem ElemName.slot_aligned (e : ElemName) : (e.bytes = 1 ∨ e.bytes = 2 ∨ e.bytes = 4) ∧ e.offset % e.bytes = 0 := by
  cases e with
  | roth f => cases f <;> decide
  | toth f => cases f <;> decide
  | _ => simp [ElemName.bytes, ElemName.offset, Nat.mod_one]

theorem ElemName.winByte_slot (hp : p.wf = true) (he : e.exists p) (i : Nat) (hi : i < e.bytes) :
    winByte p ((BitVec.ofNat 13 e.offset).toNat + i) = .elem e i := by
  rw [ElemName.toNat_offset hp he, winByte_of_elem p i e he hi]

theorem ElemName.slot_readAccepted (hp : p.wf = true) (he : e.exists p) :
    readAccepted p (BitVec.ofNat 13 e.offset) e.bytes = true := by
  refine Bool.and_eq_true_iff.mpr ⟨aligned_iff.mpr ?_, (covered_all_iff _).mpr fun i hi => ?_⟩
  · rw [ElemName.toNat_offset hp he]
    exact e.slot_aligned
  · rw [ElemName.winByte_slot hp he i hi]
    rfl

theorem ElemName.slot_storeAccepted (hp : p.wf = true) (he : e.exists p) :
    storeAccepted p (BitVec.ofNat 13 e.offset) e.bytes = true := by
  refine Bool.and_eq_true_iff.mpr ⟨aligned_iff.mpr ?_, (covered_all_iff _).mpr fun i hi => ?_⟩
  · rw [ElemName.toNat_offset hp he]
    exact e.slot_aligned
  · rw [ElemName.winByte_slot hp he i hi]
    rfl

theorem ElemName.slot_not_command (hp : p.wf = true) (he : e.exists p) : BitVec.ofNat 13 e.offset ≠ 0#13 := fun h => by
  have h0 := congrArg BitVec.toNat h
  rw [ElemName.toNat_offset hp he] at h0
  have := (ElemName.offset_bounds hp he).1
  simp only [BitVec.toNat_ofNat, Nat.zero_mod] at h0
  omega

/-- The write of a slot covers its element and no other. -/
theorem ElemName.mem_targets_slot (hp : p.wf = true) (he : e.exists p) (t : Target)
    (ht : t ∈ targets p (BitVec.ofNat 13 e.offset) e.bytes) : t.elem = e := by
  obtain ⟨-, i, lane, hi, hb⟩ := (mem_targets_iff _ _ _ _).mp ht
  rw [ElemName.winByte_slot hp he i hi] at hb
  exact (WinByte.elem.inj hb).1.symm

/-- A write of the whole slot stores the low bits (R37). -/
theorem hostStore_get_slot (s : State) (v : Word) (hp : s.params.wf = true) (he : e.exists s.params) :
    (hostStore (BitVec.ofNat 13 e.offset) e.bytes v s).get e = keepLow (e.width s.params) v := by
  have hpos : 0 < e.bytes ∧ e.bytes ≤ 4 := by have := e.slot_aligned; omega
  obtain ⟨c, hbits⟩ := hostStore_getLsbD (BitVec.ofNat 13 e.offset) e.bytes v s e hpos.2
    ⟨0, 0, hpos.1, ElemName.winByte_slot hp he 0 hpos.1⟩
  apply BitVec.eq_of_getLsbD_eq
  intro k hk
  rw [hbits k hk, keepLow_getLsbD, ElemName.toNat_offset hp he]
  by_cases hkw : k < e.width s.params
  · have hle := ElemName.width_le_slot (e := e) hp
    rw [if_pos (by omega), show 8 * (e.offset + k / 8 - e.offset) + k % 8 = k by omega]
  · simp [hkw]

theorem hostStore_written_slot (s : State) (v : Word) (hp : s.params.wf = true) (he : e.exists s.params) :
    (hostStore (BitVec.ofNat 13 e.offset) e.bytes v s).written e = true := by
  have hpos : 0 < e.bytes := by have := e.slot_aligned; omega
  exact hostStore_written_target _ _ v s ⟨e, e.offset⟩
    ((mem_targets_iff _ _ _ _).mpr ⟨rfl, 0, 0, hpos, ElemName.winByte_slot hp he 0 hpos⟩)

/-- A write of the whole slot changes no other element (R66). -/
theorem hostStore_slot_of_ne (s : State) (v : Word) (hp : s.params.wf = true) (he : e.exists s.params) (f : ElemName)
    (hf : f ≠ e) : (hostStore (BitVec.ofNat 13 e.offset) e.bytes v s).get f = s.get f
      ∧ (hostStore (BitVec.ofNat 13 e.offset) e.bytes v s).written f = s.written f := by
  have hother : ∀ t ∈ targets s.params (BitVec.ofNat 13 e.offset) e.bytes, t.elem ≠ f :=
    fun t ht heq => hf (heq.symm.trans (ElemName.mem_targets_slot hp he t ht))
  exact ⟨hostStore_get_of_not_target _ _ _ _ _ hother, hostStore_written_of_not_target _ _ _ _ _ hother⟩

theorem keepLow_keepLow_of_le {w w' : Nat} (h : w ≤ w') (v : Word) : keepLow w' (keepLow w v) = keepLow w v := by
  apply BitVec.eq_of_getLsbD_eq
  intro k _
  rw [keepLow_getLsbD, keepLow_getLsbD]
  by_cases hk : k < w
  · rw [decide_eq_true (hk.trans_le h), Bool.true_and]
  · simp [hk]

/-- A read of the whole slot returns the element's bits. -/
theorem State.readValue_slot (s : State) (hp : s.params.wf = true) (he : e.exists s.params) :
    s.readValue (BitVec.ofNat 13 e.offset) e.bytes = keepLow (8 * e.bytes) (s.get e) :=
  s.readValue_of_lanes _ _ _ fun i hi => by rw [ElemName.winByte_slot hp he i hi, State.winValue]

theorem step_read_slot (s : State) (rest : List HostOp) (hp : s.params.wf = true) (he : e.exists s.params)
    (hh : s.host = .read (BitVec.ofNat 13 e.offset) e.bytes :: rest) (hw : s.written e = true) :
    step s = .next ((s.setHost rest).setResp (.value e.bytes (keepLow (8 * e.bytes) (s.get e)))) := by
  rw [step_read_of_written s _ _ rest hh (ElemName.slot_readAccepted hp he), State.readValue_slot s hp he]
  intro i f lane hi hb
  rw [ElemName.winByte_slot hp he i hi] at hb
  exact (WinByte.elem.inj hb).1 ▸ hw

end

/-- Settles O21: the write stores into the element and no other, and the read returns the element's bits. -/
theorem slotWriteThenReadReturnsLowBits : Obligations.SlotWriteThenReadReturnsLowBits := by
  intro s e v rest hp he hh
  have hstep := step_store s _ _ v _ hh (ElemName.slot_storeAccepted hp he) fun h => ElemName.slot_not_command hp he h.2
  have hget := hostStore_get_slot (s.setHost (.read (BitVec.ofNat 13 e.offset) e.bytes :: rest)) v hp he
  have hwritten := hostStore_written_slot (s.setHost (.read (BitVec.ofNat 13 e.offset) e.bytes :: rest)) v hp he
  refine ⟨_, hstep, hget, hwritten, fun f hf => ?_, by simp, by simp, ?_⟩
  · simpa using hostStore_slot_of_ne (s.setHost (.read (BitVec.ofNat 13 e.offset) e.bytes :: rest)) v hp he f hf
  · rw [step_read_slot _ rest (by simpa using hp) (by simpa using he) (by simp) hwritten, hget, State.setHost_params,
      keepLow_keepLow_of_le (ElemName.width_le_slot hp)]

/-! ## Reset (R40, R41, R270) -/

theorem winByte_config (p : Params) (i : Nat) (hi : i < 4) : winByte p ((0x0008#13).toNat + i) = .config i := by
  interval_cases i <;> rfl

theorem winByte_coltab (p : Params) (b : Byte) : winByte p (0x0100#13 + b.setWidth 13).toNat = .rom b := by
  have hb := b.isLt
  have haddr : (0x0100#13 + b.setWidth 13).toNat = 0x0100 + b.toNat := by
    simp only [BitVec.toNat_add, BitVec.toNat_ofNat, BitVec.toNat_setWidth]
    omega
  unfold winByte highWinByte
  rw [haddr, if_pos (by omega), if_neg (by omega), if_neg (by omega), if_pos (by omega)]
  simp

/-- A read of CONFIG returns the encoding of the parameters, whatever the state (R24). -/
theorem step_read_config (s : State) (rest : List HostOp) (hh : s.host = .read 0x0008#13 4 :: rest) :
    step s = .next ((s.setHost rest).setResp (.value 4 (configWord s.params))) := by
  have hval : s.readValue 0x0008#13 4 = configWord s.params := by
    rw [s.readValue_of_lanes _ _ (configWord s.params) fun i hi => congrArg s.winValue (winByte_config s.params i hi),
      keepLow_of_le _ _ (by decide)]
  rw [step_read_of_written s _ _ rest hh rfl, hval]
  exact fun i e lane hi hb => nomatch (winByte_config s.params i hi).symm.trans hb

/-- A read of COLTAB[b] returns the ROM entry, whatever the state (R38). -/
theorem step_read_coltab (s : State) (b : Byte) (rest : List HostOp)
    (hh : s.host = .read (0x0100#13 + b.setWidth 13) 1 :: rest) :
    step s = .next ((s.setHost rest).setResp (.value 1 ((colTab b).setWidth 32))) := by
  have hcov : covered s.params (0x0100#13 + b.setWidth 13) 1 = [.rom b] :=
    congrArg (fun x => [x]) (winByte_coltab s.params b)
  have hacc : readAccepted s.params (0x0100#13 + b.setWidth 13) 1 = true := by
    rw [readAccepted, hcov, aligned_iff.mpr ⟨.inl rfl, Nat.mod_one _⟩]
    rfl
  have hval : s.readValue (0x0100#13 + b.setWidth 13) 1 = (colTab b).setWidth 32 := by
    simp [State.readValue, hcov, State.winValue, littleEndian]
  rw [step_read_of_written s _ _ rest hh hacc, hval]
  intro i e lane hi hb
  obtain rfl : i = 0 := by omega
  exact nomatch (winByte_coltab s.params b).symm.trans hb

/-- Settles O8. -/
theorem resetLeavesSpecifiedValues : Obligations.ResetLeavesSpecifiedValues := by
  intro p
  refine ⟨rfl, rfl, rfl, State.resetWith_written p, step_read_config _ [] rfl, fun b => step_read_coltab _ b [] rfl, ?_⟩
  rintro s rest hh rfl
  exact step_of_host_cons s _ rest hh

/-! ## The layouts of CONFIG and STATUS (R24, R26, R27) -/

/-- A field of a word: `f` stands from bit `lo` up when those bits are `f`'s. -/
theorem extractLsb'_eq_of_getLsbD {w : Nat} (v : Word) (lo : Nat) (f : BitVec w)
    (h : ∀ k, k < w → v.getLsbD (lo + k) = f.getLsbD k) : v.extractLsb' lo w = f :=
  BitVec.eq_of_getLsbD_eq fun k hk => by rw [BitVec.getLsbD_extractLsb', h k hk, decide_eq_true hk, Bool.true_and]

/-- CONFIG, bit by bit (R24). -/
theorem configWord_getLsbD (p : Params) (k : Nat) :
    (configWord p).getLsbD k =
      if k < 1 then p.swapCompat else if k < 2 then p.otherVariant == .rs else if k < 3 then p.packOrder == .msbFirst
      else if k < 8 then false else if k < 14 then (BitVec.ofNat 6 p.w).getLsbD (k - 8)
      else if k < 16 then false else (BitVec.ofNat 13 p.nmax).getLsbD (k - 16) := by
  simp only [configWord, BitVec.getLsbD_append, BitVec.getLsbD_ofBool, BitVec.getLsbD_zero]
  grind

/-- STATUS after an accepted command, bit by bit (R26). -/
theorem statusWord_getLsbD (op : BitVec 4) (count : BitVec 2) (chk dat : Bool) (r : Result) (k : Nat) :
    (statusWord op count chk dat r).getLsbD k =
      if k < 2 then r.code.getLsbD k else if k < 3 then dat else if k < 4 then chk
      else if k < 6 then count.getLsbD (k - 4) else if k < 12 then false else op.getLsbD (k - 12) := by
  simp only [statusWord, BitVec.getLsbD_append, BitVec.getLsbD_ofBool, BitVec.getLsbD_zero]
  grind

theorem configWord_w (p : Params) : (configWord p).extractLsb' 8 6 = BitVec.ofNat 6 p.w :=
  extractLsb'_eq_of_getLsbD _ _ _ fun k hk => by rw [configWord_getLsbD]; grind

theorem configWord_nmax (p : Params) : (configWord p).extractLsb' 16 13 = BitVec.ofNat 13 p.nmax :=
  extractLsb'_eq_of_getLsbD _ _ _ fun k hk => by rw [configWord_getLsbD]; grind

/-- Settles O13: each field lies in one row of `configWord_getLsbD`; W fits 6 bits and NMAX fits 13. -/
theorem configReportsParameters : Obligations.ConfigReportsParameters := by
  intro p hp
  obtain ⟨-, hw, -, hn⟩ := (Params.wf_iff p).mp hp
  have hwlt : p.w < 2 ^ 6 := by omega
  have hnlt : p.nmax < 2 ^ 13 := by omega
  refine ⟨?_, ?_, ?_, extractLsb'_eq_of_getLsbD _ _ _ ?_,
    by rw [configWord_w, BitVec.toNat_ofNat, Nat.mod_eq_of_lt hwlt], extractLsb'_eq_of_getLsbD _ _ _ ?_,
    by rw [configWord_nmax, BitVec.toNat_ofNat, Nat.mod_eq_of_lt hnlt], extractLsb'_eq_of_getLsbD _ _ _ ?_⟩ <;>
    simp only [configWord_getLsbD] <;> grind

/-- Settles O14: each field lies in one row of `statusWord_getLsbD`. -/
theorem statusFields : Obligations.StatusFields := by
  intro op count chk dat r
  refine ⟨extractLsb'_eq_of_getLsbD _ _ _ ?_, ?_, ?_, extractLsb'_eq_of_getLsbD _ _ _ ?_, ?_,
    extractLsb'_eq_of_getLsbD _ _ _ ?_, extractLsb'_eq_of_getLsbD _ _ _ ?_, extractLsb'_eq_of_getLsbD _ _ _ ?_,
    extractLsb'_eq_of_getLsbD _ _ _ ?_, rfl, rfl, rfl⟩ <;>
    simp only [statusDatafix, statusChkfix, statusIllegal, statusWord_getLsbD] <;> grind

end Sys2Proof.Machine


/-!
PROOFS. The host window row by row (spec/20_memory.md R61), which accesses are refused and what the others leave (R64 to
R67, spec/60_exceptions.md R244), and that no operation reads ECC_BASE (R62).
-/

namespace Sys2Proof.Machine

/-! ## No operation reads ECC_BASE (R62) -/

/-- The state of the core at another platform address. -/
def State.withBase (b : Nat) (s : State) : State := { s with params := { s.params with eccBase := b } }

/-- An outcome with `f` applied to its next state. -/
def mapNext (f : State → State) : Out → Out
  | .next s => .next (f s)
  | .fault r => .fault r
  | .refused r => .refused r

section
variable (b : Nat) (s : State)

theorem State.withBase_put (e : ElemName) (v : Word) : (s.withBase b).put e v = (s.put e v).withBase b := by
  cases e <;> rfl

theorem State.withBase_putAll (ws : List (ElemName × Word)) :
    (s.withBase b).putAll ws = (s.putAll ws).withBase b := by
  induction ws generalizing s with
  | nil => rfl
  | cons w ws ih => rw [State.putAll_cons, State.withBase_put, ih, State.putAll_cons]

theorem State.withBase_apply (o : CommandOutput) : (s.withBase b).apply o = (s.apply o).withBase b := by
  rw [State.apply, State.withBase_putAll]
  rfl

theorem buildRefusal_withBase (i : Instr) : buildRefusal (s.withBase b).params i = buildRefusal s.params i := by
  cases i <;> rfl

theorem pathReads_withBase (i : Instr) : pathReads (s.withBase b) i = pathReads s i := by cases i <;> rfl

theorem commandOutput_withBase (i : Instr) : commandOutput (s.withBase b) i = commandOutput s i := by
  cases i <;> rfl

theorem guardReads_withBase (es : List ElemName) (k : Out) :
    guardReads es (s.withBase b) (mapNext (State.withBase b) k) = mapNext (State.withBase b) (guardReads es s k) := by
  have hu : (s.withBase b).unwrittenOf es = s.unwrittenOf es := rfl
  unfold guardReads
  rw [hu]
  cases s.unwrittenOf es <;> rfl

theorem commandBody_withBase (i : Instr) :
    commandBody i (s.withBase b) = mapNext (State.withBase b) (commandBody i s) := by
  rw [commandBody_eq, commandBody_eq, pathReads_withBase, commandOutput_withBase, State.withBase_apply,
    ← guardReads_withBase, ← guardReads_withBase]
  rfl

theorem exec_withBase (i : Instr) : exec i (s.withBase b) = mapNext (State.withBase b) (exec i s) := by
  rw [exec_eq_ifAdmitted, exec_eq_ifAdmitted, commandBody_withBase, ifAdmitted, ifAdmitted, buildRefusal_withBase]
  cases buildRefusal s.params i <;> rfl

theorem runWord_withBase (w : Word) : runWord w (s.withBase b) = mapNext (State.withBase b) (runWord w s) := by
  unfold runWord
  cases decodeWord w with
  | ok i => exact exec_withBase b (s.setCmd w) i
  | error r => rfl

theorem hostRead_withBase (a : BitVec 13) (n : Nat) :
    hostRead a n (s.withBase b) = mapNext (State.withBase b) (hostRead a n s) := by
  have hacc : readAccepted (s.withBase b).params a n = readAccepted s.params a n := rfl
  by_cases h : readAccepted s.params a n = true
  · rw [hostRead_of_accepted a n _ (hacc.trans h), hostRead_of_accepted a n s h, ← guardReads_withBase]
    rfl
  · rw [hostRead, hacc, if_neg h, hostRead, if_neg h]
    rfl

theorem storeTarget_withBase (a : BitVec 13) (n : Nat) (v : Word) (t : Target) :
    storeTarget a n v (s.withBase b) t = (storeTarget a n v s t).withBase b := by
  have hall : coversAll (s.withBase b).params a n t = coversAll s.params a n t := rfl
  have hwritten : (s.withBase b).written t.elem = s.written t.elem := rfl
  unfold storeTarget
  rw [hall, hwritten]
  split
  · exact s.withBase_put b _ _
  · split
    · exact s.withBase_put b _ _
    · exact congrArg State.tick (s.withBase_put b _ _)

theorem hostStore_withBase (a : BitVec 13) (n : Nat) (v : Word) :
    hostStore a n v (s.withBase b) = (hostStore a n v s).withBase b := by
  have hts : targets (s.withBase b).params a n = targets s.params a n := rfl
  rw [hostStore, hts, List.foldl_hom (State.withBase b) fun r t => storeTarget_withBase b r a n v t]
  rfl

theorem hostWrite_withBase (a : BitVec 13) (n : Nat) (v : Word) :
    hostWrite a n v (s.withBase b) = mapNext (State.withBase b) (hostWrite a n v s) := by
  have hacc : storeAccepted (s.withBase b).params a n = storeAccepted s.params a n := rfl
  unfold hostWrite
  rw [hacc]
  split
  · exact runWord_withBase b (s.setResp .wrote) v
  · split
    · exact congrArg Host.Outcome.next (hostStore_withBase b s a n v)
    · rfl

theorem access_withBase (op : HostOp) : access op (s.withBase b) = mapNext (State.withBase b) (access op s) := by
  cases op with
  | read a n => exact hostRead_withBase b s a n
  | write a n v => exact hostWrite_withBase b s a n v
  | platformReset => rfl

theorem step_withBase : step (s.withBase b) = mapNext (State.withBase b) (step s) := by
  cases hh : s.host with
  | nil =>
    rw [step_of_host_nil s hh, step_of_host_nil (s.withBase b) hh]
    rfl
  | cons op rest =>
    rw [step_of_host_cons s op rest hh, step_of_host_cons (s.withBase b) op rest hh]
    exact access_withBase b (s.setHost rest) op

end

/-- Settles O12: every operation of a step commutes with a change of ECC_BASE. -/
theorem platformBaseChangesNothing : Obligations.PlatformBaseChangesNothing := by
  intro s b
  refine (step_withBase b s).trans ?_
  cases step s <;> rfl

/-! ## The host window, row by row (R61) -/

/-- The row of R61 for each kind of byte that belongs to no storage element. -/
def WinByte.InRow (off : Nat) : WinByte → Prop
  | .cmd _ => off < 0x0004
  | .status _ => 0x0004 ≤ off ∧ off < 0x0008
  | .config _ => 0x0008 ≤ off ∧ off < 0x000C
  | .padding => off = 0x0013 ∨ off = 0x0017 ∨ off = 0x007A ∨ off = 0x007B
  | .rom _ => 0x0100 ≤ off ∧ off < 0x0200
  | .elem _ _ => True
  | .unmapped => True

theorem highWinByte_inRow (p : Params) (off : Nat) (h : 0x0060 ≤ off) : (highWinByte p off).InRow off := by
  unfold highWinByte
  repeat' split
  all_goals simp only [WinByte.InRow] <;> omega

theorem midWinByte_inRow (off : Nat) : (midWinByte off).InRow off := by
  unfold midWinByte
  repeat' split
  all_goals exact trivial

theorem lowWinByte_inRow (off : Nat) : (lowWinByte off).InRow off := by
  unfold lowWinByte
  repeat' split
  all_goals simp only [WinByte.InRow] <;> omega

theorem winByte_inRow (p : Params) (off : Nat) : (winByte p off).InRow off := by
  unfold winByte
  split
  · exact highWinByte_inRow p off ‹_›
  · split
    · exact midWinByte_inRow off
    · exact lowWinByte_inRow off

theorem winByte_low_rows (p : Params) (i : Nat) (hi : i < 4) :
    winByte p (0x0000 + i) = .cmd i ∧ winByte p (0x0004 + i) = .status i ∧ winByte p (0x0008 + i) = .config i := by
  interval_cases i <;> exact ⟨rfl, rfl, rfl⟩

theorem winByte_rom (p : Params) (b : Byte) : winByte p (0x0100 + b.toNat) = .rom b := by
  have haddr : (0x0100#13 + b.setWidth 13).toNat = 0x0100 + b.toNat := by bv_omega
  exact haddr ▸ winByte_coltab p b

/-- An offset outside every row is unmapped. -/
theorem winByte_unmapped (p : Params) (off : Nat) (hlow : 0x000C ≤ off)
    (helem : ∀ e : ElemName, e.exists p → ¬(e.offset ≤ off ∧ off < e.offset + e.bytes))
    (h13 : off ≠ 0x0013) (h17 : off ≠ 0x0017) (h7a : off ≠ 0x007A) (h7b : off ≠ 0x007B)
    (hrom : ¬(0x0100 ≤ off ∧ off < 0x0200)) : winByte p off = .unmapped := by
  have hrow := winByte_inRow p off
  cases hb : winByte p off with
  | unmapped => rfl
  | elem e lane =>
    obtain ⟨he, hlane, hoff⟩ := (winByte_eq_elem_iff _ _ _ _).mp hb
    exact absurd ⟨by omega, by omega⟩ (helem e he)
  | _ =>
    simp only [hb, WinByte.InRow] at hrow
    omega

/-- Settles O15. -/
theorem windowMap : Obligations.WindowMap := fun p _ =>
  ⟨winByte_low_rows p, fun e he lane hlane => winByte_of_elem p lane e he hlane, ⟨rfl, rfl, rfl, rfl⟩, winByte_rom p,
    fun off _ => winByte_unmapped p off⟩

/-! ## Refused accesses (R64, R65, R244) -/

/-- The 32-bit write to CMD is not refused (R65). -/
theorem not_refusedAccess_commandWrite (p : Params) (w : Word) : ¬RefusedAccess p (commandWrite w) := by
  have hcmd (i : Nat) (hi : i < 4) : winByte p ((0#13).toNat + i) = .cmd i := (winByte_low_rows p i hi).1
  rintro ((⟨-, -, hwidth⟩ | halign | ⟨i, hi, hb⟩) | ⟨i, hi, hro⟩ | ⟨-, hno⟩)
  · exact hwidth rfl
  · exact halign rfl
  · exact nomatch (hcmd i hi).symm.trans hb
  · rw [hcmd i hi] at hro
    exact hro
  · exact hno ⟨rfl, rfl⟩

/-- A write that R64 or R65 refuse is not the one that starts a command, so it is a store that is not accepted. -/
theorem hostWrite_of_refused (a : BitVec 13) (n : Nat) (v : Word) (s : State)
    (h : RefusedAccess s.params (.write a n v)) : hostWrite a n v s = .next (busError s) := by
  have hcmd : ¬(n = 4 ∧ a = 0#13) := by
    rintro ⟨rfl, rfl⟩
    exact not_refusedAccess_commandWrite _ _ h
  rw [hostWrite, if_neg (mt (startsCommand_iff a n).mp hcmd), if_neg fun hok => (storeAccepted_iff hcmd).mp hok h]

theorem hostRead_of_refused (a : BitVec 13) (n : Nat) (s : State) (h : RefusedAccess s.params (.read a n)) :
    hostRead a n s = .next (busError s) := by
  rw [hostRead, if_neg fun hok => readAccepted_iff.mp hok h]

/-- Settles O16. -/
theorem refusedAccessChangesNothing : Obligations.RefusedAccessChangesNothing := by
  intro s op rest hh href
  rw [step_of_host_cons s op rest hh]
  cases op with
  | read a n => exact hostRead_of_refused a n (s.setHost rest) href
  | write a n v => exact hostWrite_of_refused a n v (s.setHost rest) href
  | platformReset => exact href.elim

theorem WordStep.resp {w : Word} {s t : State} (h : WordStep w s t) : t.resp = s.resp := by
  cases h with
  | refused => rfl
  | completed => simp

/-- The answer to an accepted read that does not fault (R66). -/
theorem step_read_resp (s t : State) (a : BitVec 13) (n : Nat) (rest : List HostOp)
    (hh : s.host = .read a n :: rest) (hok : ¬RefusedAccess s.params (.read a n)) (h : step s = .next t) :
    t.resp = .value n (s.readValue a n) := by
  rw [step_read_of_accepted s a n rest hh (readAccepted_iff.mpr hok)] at h
  obtain rfl := Host.Outcome.next.inj (guardReads_next _ _ _ _ h).2
  rfl

/-- The answer to an accepted write that does not fault: no output of a command changes it (R25, R66). -/
theorem step_write_resp (s t : State) (a : BitVec 13) (n : Nat) (v : Word) (rest : List HostOp)
    (hh : s.host = .write a n v :: rest) (hok : ¬RefusedAccess s.params (.write a n v)) (h : step s = .next t) :
    t.resp = .wrote := by
  by_cases hcmd : n = 4 ∧ a = 0#13
  · obtain ⟨rfl, rfl⟩ := hcmd
    rw [step_of_host_cons s _ rest hh, access, hostWrite_commandWrite] at h
    exact (runWord_next _ _ _ h).resp
  · rw [step_store s a n v rest hh ((storeAccepted_iff hcmd).mpr hok) hcmd] at h
    exact Host.Outcome.next.inj h ▸ hostStore_resp a n v _

/-- Settles O17: an accepted access overwrites the answer with its own, and a platform reset leaves `idle`. -/
theorem onlyRefusedAccessesAnswerBusError : Obligations.OnlyRefusedAccessesAnswerBusError := by
  intro s t op rest hh h hresp
  by_contra hok
  cases op with
  | read a n => exact nomatch (step_read_resp s t a n rest hh hok h).symm.trans hresp
  | write a n v => exact nomatch (step_write_resp s t a n v rest hh hok h).symm.trans hresp
  | platformReset =>
    rw [step_of_host_cons s _ rest hh] at h
    obtain rfl := Host.Outcome.next.inj h
    cases hresp

/-! ## What a read and a store leave unchanged (R66, R67) -/

/-- Settles O20: a read that answers a next state only sets the answer, whether it is accepted or refused. -/
theorem readHasNoSideEffect : Obligations.ReadHasNoSideEffect := by
  intro s t a n rest hh h
  rw [step_of_host_cons s _ rest hh] at h
  cases access_next _ _ _ h with
  | value => rfl
  | refused => rfl

/-- Settles O23: the targets of a store are the elements it covers. -/
theorem storeChangesOnlyCoveredElements : Obligations.StoreChangesOnlyCoveredElements := by
  intro s a n v rest hh hok hcmd
  refine ⟨_, step_store s a n v rest hh ((storeAccepted_iff hcmd).mpr hok) hcmd, by simp, by simp, by simp, by simp,
    by simp, fun i e lane hi hb => ?_, fun e hno => ?_⟩
  · exact hostStore_written_target a n v (s.setHost rest) ⟨e, e.offset⟩
      ((mem_targets_iff _ _ _ _).mpr ⟨rfl, i, lane, hi, hb⟩)
  · have hother : ∀ t ∈ targets (s.setHost rest).params a n, t.elem ≠ e := by
      rintro t ht rfl
      obtain ⟨-, i, lane, hi, hb⟩ := (mem_targets_iff _ _ _ _).mp ht
      exact hno i lane hi hb
    exact ⟨by simpa using hostStore_get_of_not_target a n v _ e hother,
      by simpa using hostStore_written_of_not_target a n v _ e hother⟩

end Sys2Proof.Machine


/-!
PROOFS. The command word (spec/30_encoding.md): a word is its three fields, so the decoder reads a command exactly where
the fields are that command's (`decodeWord_eq_ok_iff`); which words a build refuses (R97), and what a refused word does
(R243).
-/

namespace Sys2Proof.Machine

/-! ## A word is its fields (R90) -/

theorem word_eq_fields (w : Word) : w = lenField w ++ rsvField w ++ opField w := by
  apply BitVec.eq_of_getLsbD_eq
  intro k hk
  simp only [opField, rsvField, lenField, BitVec.getLsbD_append, BitVec.getLsbD_extractLsb']
  grind

theorem encode_fields (i : Instr) :
    opField (encode i) = i.opcode ∧ rsvField (encode i) = 0#12 ∧ lenField (encode i) = i.lenOf :=
  Laws.EncodeFields.fields_append i.lenOf i.opcode

/-- A word is a command's exactly where it has the command's OP and LEN, and RSV = 0 (R90, R91). -/
theorem eq_encode_iff (w : Word) (i : Instr) :
    w = encode i ↔ opField w = i.opcode ∧ rsvField w = 0#12 ∧ lenField w = i.lenOf := by
  constructor
  · rintro rfl
    exact encode_fields i
  · rintro ⟨hop, hrsv, hlen⟩
    rw [word_eq_fields w, hop, hrsv, hlen, encode]

/-- LEN above OP, as R99 writes a word. -/
theorem encode_eq_shiftLeft_or (i : Instr) : encode i = (i.lenOf.setWidth 32 <<< 16) ||| i.opcode.setWidth 32 := by
  apply BitVec.eq_of_getLsbD_eq
  intro k hk
  simp only [encode, BitVec.getLsbD_append, BitVec.getLsbD_or, BitVec.getLsbD_shiftLeft, BitVec.getLsbD_setWidth,
    BitVec.getLsbD_zero]
  grind

/-- The low bits of a word that R243 puts into STATUS are its OP. -/
theorem setWidth_opField (w : Word) : (opField w).setWidth 32 = w &&& 0xF#32 := by
  apply BitVec.eq_of_getLsbD_eq
  intro k hk
  simp only [opField, BitVec.getLsbD_setWidth, BitVec.getLsbD_extractLsb', BitVec.getLsbD_and]
  interval_cases k <;> simp

/-! ## The decoder reads exactly the fields (R91 to R94) -/

theorem decodeOp_of_opField (w : Word) (i : Instr) (hop : opField w = i.opcode) :
    decodeOp w = .ok i ↔ lenField w = i.lenOf := by
  cases i <;> simp [decodeOp, noLen, hop, Instr.opcode, Instr.lenOf]

theorem decodeOp_eq_ok_iff (w : Word) (i : Instr) :
    decodeOp w = .ok i ↔ opField w = i.opcode ∧ lenField w = i.lenOf := by
  constructor
  · intro h
    have hop := (decodeOp_opcode w i h).symm
    exact ⟨hop, (decodeOp_of_opField w i hop).mp h⟩
  · exact fun ⟨hop, hlen⟩ => (decodeOp_of_opField w i hop).mpr hlen

/-- No command has a reserved OP (R94). -/
theorem opcode_not_reserved (i : Instr) : ¬(i.opcode = 0x0#4 ∨ 0x9#4 ≤ i.opcode) := by
  cases i <;> simp only [Instr.opcode] <;> decide

/-- Every other OP is a command's, whose LEN is the word's where R93 does not refuse it. -/
theorem exists_opcode_lenOf (op : BitVec 4) (len : BitVec 16) (h0 : op ≠ 0x0#4) (h9 : ¬0x9#4 ≤ op)
    (hlen : ¬(op ≠ 0x3#4 ∧ op ≠ 0x4#4 ∧ len ≠ 0#16)) : ∃ i : Instr, op = i.opcode ∧ len = i.lenOf := by
  have hop : op = 1#4 ∨ op = 2#4 ∨ op = 3#4 ∨ op = 4#4 ∨ op = 5#4 ∨ op = 6#4 ∨ op = 7#4 ∨ op = 8#4 := by
    clear hlen
    revert op
    decide
  rcases hop with rfl | rfl | rfl | rfl | rfl | rfl | rfl | rfl
  · exact ⟨.calc256, rfl, by simpa [Instr.lenOf] using hlen⟩
  · exact ⟨.corr256, rfl, by simpa [Instr.lenOf] using hlen⟩
  · exact ⟨.calcn len, rfl, rfl⟩
  · exact ⟨.corrn len, rfl, rfl⟩
  · exact ⟨.calcrs, rfl, by simpa [Instr.lenOf] using hlen⟩
  · exact ⟨.corrrs, rfl, by simpa [Instr.lenOf] using hlen⟩
  · exact ⟨.pack, rfl, by simpa [Instr.lenOf] using hlen⟩
  · exact ⟨.unpack, rfl, by simpa [Instr.lenOf] using hlen⟩

theorem decodeWord_eq_ok_iff (w : Word) (i : Instr) :
    decodeWord w = .ok i ↔ opField w = i.opcode ∧ rsvField w = 0#12 ∧ lenField w = i.lenOf := by
  constructor
  · intro h
    unfold decodeWord at h
    split_ifs at h with hop hrsv
    obtain ⟨ho, hl⟩ := (decodeOp_eq_ok_iff w i).mp h
    exact ⟨ho, not_not.mp hrsv, hl⟩
  · rintro ⟨hop, hrsv, hlen⟩
    rw [decodeWord, if_neg (hop ▸ opcode_not_reserved i), if_neg (not_not.mpr hrsv)]
    exact (decodeOp_eq_ok_iff w i).mpr ⟨hop, hlen⟩

/-- Settles O1: both sides say that the fields of the word are the command's. -/
theorem decodeInvertsEncode : Obligations.DecodeInvertsEncode := fun w i =>
  (decodeWord_eq_ok_iff w i).trans (eq_encode_iff w i).symm

/-- Settles O2: the operand-free words are closed, and LEN stands 16 bits above OP in the other two. -/
theorem encodedWords : Obligations.EncodedWords :=
  ⟨rfl, rfl, rfl, rfl, rfl, rfl, fun n => encode_eq_shiftLeft_or (.calcn n),
    fun n => encode_eq_shiftLeft_or (.corrn n)⟩

/-- Settles O3: eight words are encodings, and three show a reason to refuse. -/
theorem sampleWordsDecode : Obligations.SampleWordsDecode := by
  have hdec {w : Word} {i : Instr} (h : w = encode i) : decodeWord w = .ok i := (decodeInvertsEncode w i).mpr h
  exact ⟨hdec rfl, hdec rfl, hdec rfl, hdec rfl, hdec rfl, hdec rfl, hdec rfl, hdec rfl, rfl, rfl, rfl⟩

/-! ## The refused words (R93 to R97, R243) -/

/-- The word of a command is refused exactly where the build does not admit the command (R95, R96). -/
theorem refusedWord_encode_iff (p : Params) (i : Instr) : RefusedWord p (encode i) ↔ i.wf p = false := by
  obtain ⟨hop, hrsv, hlen⟩ := encode_fields i
  have hrange (n : Nat) : p.nmax < n ∨ 2 ^ p.w < n ↔ ¬n ≤ min p.nmax (2 ^ p.w) := by
    rw [Nat.le_min, not_and_or, Nat.not_le, Nat.not_le]
  rw [RefusedWord, hop, hrsv, hlen, Instr.wf]
  cases i with
  | calcn n | corrn n =>
    cases hv : p.otherVariant <;> simp [Instr.opcode, Instr.lenOf, Instr.available, Instr.lenLegal, hv, hrange]
  | _ => cases hv : p.otherVariant <;> simp [Instr.opcode, Instr.lenOf, Instr.available, Instr.lenLegal, hv]

/-- A word that encodes no command is refused by every build (R93, R94). -/
theorem refusedWord_of_decodeWord_error (p : Params) (w : Word) (r : Reject) (h : decodeWord w = .error r) :
    RefusedWord p w := by
  by_contra hno
  simp only [RefusedWord, not_or] at hno
  obtain ⟨h0, h9, hrsv, hlen, -⟩ := hno
  obtain ⟨i, hop, hlenOf⟩ := exists_opcode_lenOf _ _ h0 h9 hlen
  exact nomatch h.symm.trans ((decodeWord_eq_ok_iff w i).mpr ⟨hop, not_not.mp hrsv, hlenOf⟩)

/-- Settles O4: a word that encodes no command is refused, and an encoded one where the build does not admit it. -/
theorem acceptedWordIsWellFormedCommand : Obligations.AcceptedWordIsWellFormedCommand := by
  intro p w
  cases hd : decodeWord w with
  | error r => simp [refusedWord_of_decodeWord_error p w r hd]
  | ok i =>
    obtain rfl := (decodeInvertsEncode w i).mp hd
    simp [refusedWord_encode_iff]

theorem runWord_of_refused (w : Word) (s : State) (h : RefusedWord s.params w) :
    runWord w s = .next (illegalCmd (opField w) (s.setCmd w)) := by
  cases hd : decodeWord w with
  | error r => rw [runWord, hd]
  | ok i =>
    have hwf : i.wf s.params = false := by
      rw [← refusedWord_encode_iff, ← (decodeInvertsEncode w i).mp hd]
      exact h
    rw [runWord, hd, ← decodeWord_opcode w i hd]
    exact exec_of_not_wf i (s.setCmd w) hwf

/-- Settles O6: a 32-bit write to CMD is `runWord`, which refuses the word. -/
theorem refusedWordWritesOnlyCmdAndStatus : Obligations.RefusedWordWritesOnlyCmdAndStatus := by
  intro s w rest hh href
  have hrun := runWord_of_refused w ((s.setHost rest).setResp .wrote) href
  rw [step_of_host_cons s _ rest hh, access, hostWrite_commandWrite, hrun, illegalCmd, illegalStatus, setWidth_opField]

/-- Settles O7: the gate of `exec` is well-formedness for the build. -/
theorem illFormedCommandRefused : Obligations.IllFormedCommandRefused := exec_of_not_wf

end Sys2Proof.Machine


/-!
PROOFS. CALC256 and CALCN over a written region: an accepted command whose inputs are written completes with its output
(`exec_of_written`), the accumulators of R130 and R160 are the spec's closed forms (`acc_eq`), and the check values
follow (spec/41_fixed_hamming.md R130 to R132, spec/42_variable_hamming.md R160, R161).
-/

namespace Sys2Proof.Machine

/-! ## A command whose inputs are written (R42, R245) -/

theorem exec_of_written (i : Instr) (s : State) (hi : i.wf s.params = true) (hw : s.Written (commandReads s i)) :
    exec i s = .next (s.apply (commandOutput s i)) := by
  rw [commandReads_eq] at hw
  rw [exec_of_wf i s hi, commandBody_eq,
    guardReads_of_written _ _ _ fun e he => hw e (List.mem_append_left _ he),
    guardReads_of_written _ _ _ fun e he => hw e (List.mem_append_right _ he)]

theorem frame_commandOutput (s : State) (i : Instr) : Frame s (s.apply (commandOutput s i)) (commandWrites s i) :=
  commandOutput_names s i ▸ frame_complete _ _ s

theorem written_commandOutput (s : State) (i : Instr) : (s.apply (commandOutput s i)).Written (commandWrites s i) :=
  fun e he => State.written_apply_of_mem s _ e (commandOutput_names s i ▸ he)

/-- A zero-extended value keeps all its bits in an element of its width (R37). -/
@[simp] theorem keepLow_setWidth {w : Nat} (x : BitVec w) : keepLow w (x.setWidth 32) = x.setWidth 32 := by
  apply BitVec.eq_of_getLsbD_eq
  intro k _
  by_cases hk : k < w
  · simp [keepLow_getLsbD, hk]
  · simp [keepLow_getLsbD, hk, BitVec.getLsbD_of_ge x k (by omega)]

/-! ## The accumulators in closed form (R120, R130, R160) -/

/-- Bit 0 of a ROM entry is the byte's parity (R120). -/
theorem colTab_getLsbD_zero (b : Byte) : (colTab b).getLsbD 0 = oddByte b := by
  revert b
  decide

theorem Acc.add_comm {w : Nat} (r : Acc w) (i j : Nat) (a b : Byte) : (r.add i a).add j b = (r.add j b).add i a := by
  simp only [Acc.add, Acc.mk.injEq]
  refine ⟨by ac_rfl, ?_, ?_⟩ <;> split_ifs <;> ac_rfl

/-- The last byte of a region may be folded in last (log 10). -/
theorem accFrom_concat (w i : Nat) (bs : List Byte) (b : Byte) :
    accFrom w i (bs ++ [b]) = (accFrom w i bs).add (i + bs.length) b := by
  induction bs generalizing i with
  | nil => rfl
  | cons a bs ih =>
    have hlen : i + 1 + bs.length = i + (a :: bs).length := by simp only [List.length_cons]; omega
    rw [List.cons_append, accFrom, ih, hlen, Acc.add_comm, accFrom]

theorem acc_range_succ (w n : Nat) (d : Nat → Byte) :
    acc w ((List.range (n + 1)).map d) = (acc w ((List.range n).map d)).add n (d n) := by
  rw [List.range_succ, List.map_append, acc, List.map_singleton, accFrom_concat]
  simp [acc]

/-- The accumulators over a region are the XOR of its ROM entries and its two line parities (R130, R160). -/
theorem acc_eq (w n : Nat) (d : Nat → Byte) :
    acc w ((List.range n).map d)
      = { col := xorSum n (fun i => colTab (d i)), lp := lineParity w n d, lpp := lineParityPrime w n d } := by
  induction n with
  | zero => rfl
  | succ n ih =>
    rw [acc_range_succ, ih, Acc.add, colTab_getLsbD_zero]
    cases h : oddByte (d n) <;> simp [xorSum, lineParity, lineParityPrime, h]

/-! ## CALC256 (R100, R101, R131, R132) -/

/-- Byte `j` of a fixed-block check value. -/
def Ecc.byte (e : Ecc) : Nat → Byte
  | 0 => e.e0
  | 1 => e.e1
  | _ => e.e2

theorem interleave_getLsbD (lp lpp : BitVec 8) (k b : Nat) (hb : b < 8) :
    (interleave lp lpp k).getLsbD b = if b % 2 = 1 then lp.getLsbD (k + b / 2) else lpp.getLsbD (k + b / 2) := by
  simp only [interleave, BitVec.getLsbD_append, BitVec.getLsbD_ofBool]
  interval_cases b <;> simp

/-- R101: under `SWAP_COMPAT` the rows 0 and 1 change places. -/
theorem Ecc.byte_swapIf (e : Ecc) (swap : Bool) (j : Fin 3) : (e.swapIf swap).byte j = e.byte (storedRow swap j) := by
  cases swap <;> fin_cases j <;> rfl

theorem storedRow_lt (swap : Bool) (j : Fin 3) : storedRow swap j < 3 := by
  revert swap j
  decide

/-- The bytes of PACK3 (R131) are the rows of R100: two halves of the interleave, and the column parities. -/
theorem ecc256_row (d : Nat → Byte) (j k : Nat) (hj : j < 3) (hk : k < 8) :
    ((ecc256 ((List.range 256).map d) false).byte j).getLsbD k = r100Byte d j k := by
  have hline (lp lpp : BitVec 8) (m : Nat) :
      (~~~interleave lp lpp m).getLsbD k = if k % 2 = 1 then !lp.getLsbD (m + k / 2) else !lpp.getLsbD (m + k / 2) := by
    rw [BitVec.getLsbD_not, interleave_getLsbD lp lpp m k hk, decide_eq_true hk, Bool.true_and, apply_ite not]
  have hcol (c : Byte) : (~~~c ||| 0x03#8).getLsbD k = if k < 2 then true else !c.getLsbD (k - 2 + 2) := by
    interval_cases k <;> simp
  rw [ecc256, acc_eq]
  obtain rfl | rfl | rfl : j = 0 ∨ j = 1 ∨ j = 2 := by omega
  · exact hline _ _ 0
  · exact hline _ _ 4
  · exact hcol _

theorem ecc256_getLsbD (d : Nat → Byte) (swap : Bool) (j : Fin 3) (k : Nat) (hk : k < 8) :
    ((ecc256 ((List.range 256).map d) swap).byte j).getLsbD k = r100Byte d (storedRow swap j) k :=
  (congrArg (·.getLsbD k) (Ecc.byte_swapIf _ swap j)).trans (ecc256_row d _ k (storedRow_lt swap j) hk)

theorem teccByte_calc256 (s : State) (j : Fin 3) :
    (s.apply (commandOutput s .calc256)).teccByte j = (ecc256 (s.dataBytes 256) s.params.swapCompat).byte j := by
  fin_cases j <;>
    simp [State.teccByte, State.apply, commandOutput, calc256Writes, State.get_put, ElemName.width, Ecc.byte]

/-- Settles O34: CALC256 leaves PACK3 of the accumulators, whose rows are those of R100. -/
theorem calc256ComputesCheckValue : Obligations.Calc256ComputesCheckValue := by
  intro s hw
  refine ⟨_, exec_of_written .calc256 s rfl hw, fun j k hk => ?_, written_commandOutput s .calc256, rfl,
    frame_commandOutput s .calc256⟩
  rw [teccByte_calc256]
  exact ecc256_getLsbD s.dataByte s.params.swapCompat j k hk

/-! ## CALCN (R102, R161) -/

/-- The check value of a region in the closed forms of R102. -/
theorem State.accN_eq (s : State) (n : Nat) :
    s.accN n = { col := (xorSum n (fun i => colTab (s.dataByte i))).extractLsb' 2 6
                 lp := lineParity s.params.w n s.dataByte
                 lpp := lineParityPrime s.params.w n s.dataByte } := by
  rw [State.accN, Machine.accN, State.dataBytes, acc_eq]

theorem toth_calcn (s : State) (n : BitVec 16) :
    (s.apply (commandOutput s (.calcn n))).get (.toth .col) = (s.accN n.toNat).col.setWidth 32
    ∧ (s.apply (commandOutput s (.calcn n))).get (.toth .lp) = (s.accN n.toNat).lp.setWidth 32
    ∧ (s.apply (commandOutput s (.calcn n))).get (.toth .lpp) = (s.accN n.toNat).lpp.setWidth 32 := by
  simp [State.apply, commandOutput, calcnWrites, State.get_put, ElemName.width]

theorem statusDone_calcn (n : BitVec 16) : statusDone (.calcn n) = 0x00003000#32 := by
  rw [statusDone, Instr.opcode]
  decide

/-- Settles O44: CALCN leaves the accumulators, which are the closed forms of R102. -/
theorem calcnComputesCheckValue : Obligations.CalcnComputesCheckValue := by
  intro s n _ hi hw
  obtain ⟨hcol, hlp, hlpp⟩ := toth_calcn s n
  rw [State.accN_eq] at hcol hlp hlpp
  refine ⟨_, exec_of_written (.calcn n) s hi hw, fun k hk => ?_, hlp, hlpp, written_commandOutput s (.calcn n),
    statusDone_calcn n, frame_commandOutput s (.calcn n)⟩
  rw [hcol, columnParity]
  have hk32 : k < 32 := by omega
  simp [hk, hk32, Nat.add_comm]

end Sys2Proof.Machine


/-!
PROOFS. CORR256 (spec/41_fixed_hamming.md R133 to R139): the signature test pair by pair (`sig256_iff`), what each kind
of deltas makes of the verdict, and what the command then leaves. First, where any command stops (R245, R273).
-/

namespace Sys2Proof.Machine

/-! ## Where a command stops (R245, R273) -/

/-- Settles O28: the check of what the command always reads faults, or it passes and that of the path faults. -/
theorem unwrittenOperandFaults : Obligations.UnwrittenOperandFaults := by
  intro i s e hi he hw
  rw [commandReads_eq, List.mem_append] at he
  simp only [exec_of_wf i s hi, commandBody_eq, commandReads_eq, List.mem_append]
  rcases guardReads_cases (alwaysReads i) s (guardReads (pathReads s i) s (.next (s.apply (commandOutput s i)))) with
    ⟨hall, hgo⟩ | ⟨f, hf, hfw, hfault⟩
  · have hpath : e ∈ pathReads s i := he.resolve_left fun h => by simp [hall e h] at hw
    obtain ⟨f, hf, hfw, hfault⟩ := guardReads_of_unwritten _ s (.next (s.apply (commandOutput s i))) e hpath hw
    exact ⟨f, .inr hf, hfw, hgo.trans hfault⟩
  · exact ⟨f, .inl hf, hfw, hfault⟩

/-! ## The signature test (R135) -/

theorem pairsDiffer_all_iff (d : Byte) :
    pairsDiffer d 0x55#8 = true ↔ ∀ m, m < 4 → d.getLsbD (2 * m + 1) ≠ d.getLsbD (2 * m) := by
  revert d
  decide

/-- Byte 2's two reserved bits are the pair that is not tested. -/
theorem pairsDiffer_upper_iff (d : Byte) :
    pairsDiffer d 0x54#8 = true ↔ ∀ m, 1 ≤ m → m < 4 → d.getLsbD (2 * m + 1) ≠ d.getLsbD (2 * m) := by
  revert d
  decide

/-- SIG256 holds exactly where every tested pair of the deltas differs. -/
theorem sig256_iff (d : Ecc) :
    sig256 d = true
      ↔ (∀ m, m < 4 → d.e0.getLsbD (2 * m + 1) ≠ d.e0.getLsbD (2 * m))
        ∧ (∀ m, m < 4 → d.e1.getLsbD (2 * m + 1) ≠ d.e1.getLsbD (2 * m))
        ∧ ∀ m, 1 ≤ m → m < 4 → d.e2.getLsbD (2 * m + 1) ≠ d.e2.getLsbD (2 * m) := by
  rw [sig256, Bool.and_eq_true, Bool.and_eq_true, pairsDiffer_all_iff, pairsDiffer_all_iff, pairsDiffer_upper_iff,
    and_assoc]

/-- Four pairs that differ hold four set bits. -/
theorem popcount_of_pairsDiffer (d : Byte) : pairsDiffer d 0x55#8 = true → popcount d = 4 := by
  revert d
  decide

/-! ## The verdict (R134, R136, R137, R138) -/

/-- The number of set delta bits (R137). -/
def Ecc.weight (d : Ecc) : Nat := popcount d.e0 + popcount d.e1 + popcount d.e2

theorem four_le_weight_of_sig256 {d : Ecc} (h : sig256 d = true) : 4 ≤ d.weight := by
  rw [sig256, Bool.and_eq_true, Bool.and_eq_true] at h
  obtain ⟨⟨h0, -⟩, -⟩ := h
  have := popcount_of_pairsDiffer d.e0 h0
  rw [Ecc.weight]
  omega

theorem popcount_zero {w : Nat} : popcount (0#w) = 0 := by
  simp [popcount]

theorem Ecc.or_ne_zero_of_weight_pos {d : Ecc} (h : 0 < d.weight) : ¬d.e0 ||| d.e1 ||| d.e2 = 0#8 := by
  intro hzero
  obtain ⟨h01, h2⟩ := BitVec.or_eq_zero_iff.mp hzero
  obtain ⟨h0, h1⟩ := BitVec.or_eq_zero_iff.mp h01
  simp [Ecc.weight, h0, h1, h2, popcount_zero] at h

/-- No delta bit (R134). -/
theorem verdict256_of_zero (swap : Bool) : verdict256 swap ⟨0#8, 0#8, 0#8⟩ = .clean := rfl

/-- Every tested pair differs (R136). -/
theorem verdict256_of_sig256 {swap : Bool} {d : Ecc} (h : sig256 d = true) :
    verdict256 swap d = .dataBit (byteOffset (d.swapIf swap)).toNat (bitOffset d) := by
  have := four_le_weight_of_sig256 h
  rw [verdict256, if_neg (Ecc.or_ne_zero_of_weight_pos (by omega)), if_pos h]

/-- One delta bit (R137): too few for a signature. -/
theorem verdict256_of_weight_one {swap : Bool} {d : Ecc} (h : d.weight = 1) : verdict256 swap d = .checkBit := by
  have hsig : ¬sig256 d = true := fun hs => by
    have := four_le_weight_of_sig256 hs
    omega
  rw [verdict256, if_neg (Ecc.or_ne_zero_of_weight_pos (by omega)), if_neg hsig]
  exact if_pos h

/-- Two or more delta bits without a signature (R138). -/
theorem verdict256_of_not_sig256 {swap : Bool} {d : Ecc} (hsig : ¬sig256 d = true) (h : 2 ≤ d.weight) :
    verdict256 swap d = .uncorrectable := by
  have hne : ¬d.weight = 1 := by omega
  rw [verdict256, if_neg (Ecc.or_ne_zero_of_weight_pos (by omega)), if_neg hsig]
  exact if_neg hne

/-! ## The decoded byte and bit (R136) -/

theorem lpBits_getLsbD (d : Byte) (m : Nat) (hm : m < 4) : (lpBits d).getLsbD m = d.getLsbD (2 * m + 1) := by
  simp only [lpBits, BitVec.getLsbD_append, BitVec.getLsbD_ofBool]
  interval_cases m <;> simp

theorem bitOffset_getLsbD (d : Ecc) (m : Nat) (hm : m < 3) : (bitOffset d).getLsbD m = d.e2.getLsbD (2 * m + 3) := by
  simp only [bitOffset, BitVec.getLsbD_append, BitVec.getLsbD_ofBool]
  interval_cases m <;> simp

/-- A number below `2 ^ w` with the bits of a `w`-bit vector is its value. -/
theorem toNat_eq_of_testBit {w n : Nat} (v : BitVec w) (hn : n < 2 ^ w)
    (h : ∀ m, m < w → n.testBit m = v.getLsbD m) : v.toNat = n := by
  have hv : v = BitVec.ofNat w n := BitVec.eq_of_getLsbD_eq fun m hm => by
    rw [BitVec.getLsbD_ofNat, decide_eq_true hm, Bool.true_and, h m hm]
  rw [hv, BitVec.toNat_ofNat, Nat.mod_eq_of_lt hn]

theorem byteOffset_toNat (d : Ecc) (byte : Nat) (hb : byte < 256)
    (h : ∀ m, m < 4 → byte.testBit m = d.e0.getLsbD (2 * m + 1) ∧ byte.testBit (m + 4) = d.e1.getLsbD (2 * m + 1)) :
    (byteOffset d).toNat = byte := by
  refine toNat_eq_of_testBit _ hb fun m hm => ?_
  rw [byteOffset, BitVec.getLsbD_append]
  split
  next hlow => rw [lpBits_getLsbD d.e0 m hlow, (h m hlow).1]
  next hhigh =>
    obtain ⟨k, rfl⟩ := Nat.exists_eq_add_of_le' (Nat.le_of_not_lt hhigh)
    have hk : k < 4 := by omega
    rw [Nat.add_sub_cancel, lpBits_getLsbD d.e1 k hk, (h k hk).2]

theorem bitOffset_toNat (d : Ecc) (bit : Nat) (hb : bit < 8)
    (h : ∀ m, m < 3 → bit.testBit m = d.e2.getLsbD (2 * m + 3)) : (bitOffset d).toNat = bit :=
  toNat_eq_of_testBit _ hb fun m hm => (h m hm).trans (bitOffset_getLsbD d m hm).symm

theorem Ecc.swapIf_e0 (d : Ecc) (swap : Bool) : (d.swapIf swap).e0 = if swap then d.e1 else d.e0 := by
  cases swap <;> rfl

theorem Ecc.swapIf_e1 (d : Ecc) (swap : Bool) : (d.swapIf swap).e1 = if swap then d.e0 else d.e1 := by
  cases swap <;> rfl

/-! ## CORR256 (R139) -/

/-- What CORR256 leaves where its verdict is `v`. -/
def State.corr256 (s : State) (v : Verdict) : State := s.apply (verdictOutput s .corr256 (corr256Replace s) v)

/-- Over written check values, and a written byte on the data path, CORR256 completes with its verdict's output and
changes nothing else. -/
theorem exec_corr256 (s : State) (v : Verdict) (hv : s.verdict256 = v) (hw : s.Written (reccNames ++ teccNames))
    (hpath : s.Written (verdictReads v)) :
    exec .corr256 s = .next (s.corr256 v) ∧ Frame s (s.corr256 v) (verdictWrites reccNames v)
      ∧ (s.corr256 v).Written (verdictWrites reccNames v) := by
  subst hv
  refine ⟨exec_of_written .corr256 s rfl fun e he => ?_, frame_commandOutput s .corr256,
    written_commandOutput s .corr256⟩
  exact (List.mem_append.mp he).elim (hw e) (hpath e)

theorem written_nil (s : State) : s.Written [] := fun _ he => nomatch he

theorem written_singleton {s : State} {e : ElemName} : s.Written [e] ↔ s.written e = true := by
  simp [State.Written]

/-- The low bits that a narrow element keeps are all that is read back from it (R37). -/
theorem setWidth_keepLow (w : Nat) (v : Word) : (keepLow w v).setWidth w = v.setWidth w := by
  apply BitVec.eq_of_getLsbD_eq
  intro k hk
  simp [keepLow_getLsbD, hk]

theorem dataByte_corr256 (s : State) (byte : Nat) (bit : BitVec 3) :
    (s.corr256 (.dataBit byte bit)).dataByte byte = s.dataByte byte ^^^ (1#8 <<< bit.toNat) := by
  rw [State.dataByte, State.corr256, State.apply, State.setStatus_get, verdictOutput, flipWrite, State.putAll_cons,
    State.putAll_nil, State.get_put_self, ElemName.width, setWidth_keepLow]
  simp

theorem reccByte_corr256 (s : State) (j : Fin 3) : (s.corr256 .checkBit).reccByte j = s.teccByte j := by
  fin_cases j <;>
    simp [State.reccByte, State.teccByte, State.corr256, State.apply, verdictOutput, corr256Replace, State.get_put,
      ElemName.width, setWidth_keepLow]

/-- Settles O35: equal check values have no delta bit. -/
theorem corr256Clean : Obligations.Corr256Clean := by
  intro s hw heq
  have hv : s.verdict256 = .clean := by
    simp only [State.verdict256, State.deltas256, heq, BitVec.xor_self, verdict256_of_zero]
  obtain ⟨hexec, hframe, -⟩ := exec_corr256 s _ hv hw (written_nil s)
  exact ⟨_, hexec, rfl, hframe⟩

/-- Settles O36: the deltas are a signature, and the byte and the bit of the statement are those it decodes to. -/
theorem corr256FlipsDecodedBit : Obligations.Corr256FlipsDecodedBit := by
  rintro s d0 d1 d2 byte bit hw rfl rfl rfl h01 h2 hbyte hbit hbyteBits hbitBits hdata
  have hsig : sig256 s.deltas256 = true :=
    (sig256_iff _).mpr ⟨fun m hm => (h01 m hm).1, fun m hm => (h01 m hm).2, h2⟩
  have hbyteOffset : (byteOffset (s.deltas256.swapIf s.params.swapCompat)).toNat = byte :=
    byteOffset_toNat _ byte hbyte fun m hm => by
      rw [Ecc.swapIf_e0, Ecc.swapIf_e1]
      exact hbyteBits m hm
  have hbitOffset : (bitOffset s.deltas256).toNat = bit := bitOffset_toNat _ bit hbit hbitBits
  have hv : s.verdict256 = .dataBit byte (bitOffset s.deltas256) := hbyteOffset ▸ verdict256_of_sig256 hsig
  obtain ⟨hexec, hframe, hwritten⟩ := exec_corr256 s _ hv hw (written_singleton.mpr hdata)
  exact ⟨_, hexec, hbitOffset ▸ dataByte_corr256 s byte _, written_singleton.mp hwritten, rfl, hframe⟩

/-- Settles O37: one delta bit is too few for a signature. -/
theorem corr256ReplacesCheckValue : Obligations.Corr256ReplacesCheckValue := by
  intro s hw hone
  have hv : s.verdict256 = .checkBit := verdict256_of_weight_one hone
  obtain ⟨hexec, hframe, hwritten⟩ := exec_corr256 s _ hv hw (written_nil s)
  exact ⟨_, hexec, reccByte_corr256 s, hwritten, rfl, hframe⟩

/-- Settles O38: a tested pair that agrees breaks the signature. -/
theorem corr256Uncorrectable : Obligations.Corr256Uncorrectable := by
  intro s hw hagree htwo
  have hsig : ¬sig256 s.deltas256 = true := by
    rw [sig256_iff]
    rintro ⟨h0, h1, h2⟩
    rcases hagree with ⟨m, hm, heq⟩ | ⟨m, hm, heq⟩ | ⟨m, hlow, hm, heq⟩
    · exact h0 m hm heq
    · exact h1 m hm heq
    · exact h2 m hlow hm heq
  have hv : s.verdict256 = .uncorrectable := verdict256_of_not_sig256 hsig htwo
  obtain ⟨hexec, hframe, -⟩ := exec_corr256 s _ hv hw (written_nil s)
  exact ⟨_, hexec, rfl, hframe⟩

end Sys2Proof.Machine


/-!
PROOFS. CORRN (spec/42_variable_hamming.md R162 to R167): the deltas of a legal state are words that lose no bit at the
build's width (`State.Inv.weight_deltasN`, `State.Inv.sigN_deltasN_iff`), what each kind of deltas makes of the verdict,
and what the command then leaves.
-/

namespace Sys2Proof.Machine

/-! ## Words that fit a width (R37) -/

theorem setWidth_toNat_of_lt {w : Nat} {v : Word} (h : v.toNat < 2 ^ w) : (v.setWidth w).toNat = v.toNat := by
  rw [BitVec.toNat_setWidth, Nat.mod_eq_of_lt h]

theorem keepLow_of_lt {w : Nat} {v : Word} (h : v.toNat < 2 ^ w) : keepLow w v = v := by
  apply BitVec.eq_of_toNat_eq
  rw [keepLow, BitVec.toNat_setWidth, setWidth_toNat_of_lt h, Nat.mod_eq_of_lt v.isLt]

/-- A count over a range needs none of the indices from which on the predicate fails. -/
theorem countP_range_of_le {p : Nat → Bool} {m n : Nat} (hmn : m ≤ n) (hp : ∀ k, m ≤ k → p k = false) :
    (List.range n).countP p = (List.range m).countP p := by
  induction n, hmn using Nat.le_induction with
  | base => rfl
  | succ k hk ih => simp [List.range_succ, ih, hp k hk]

/-- A word that fits a width has all its set bits there. -/
theorem popcount_setWidth_of_lt {w : Nat} {v : Word} (hw : w ≤ 32) (h : v.toNat < 2 ^ w) :
    popcount (v.setWidth w) = popcount v := by
  have hhigh : ∀ k, w ≤ k → v.getLsbD k = false := fun k hk =>
    Nat.testBit_lt_two_pow (h.trans_le (Nat.pow_le_pow_right (by decide) hk))
  rw [popcount, popcount, countP_range_of_le hw hhigh]
  refine List.countP_congr fun k hk => ?_
  simp [List.mem_range.mp hk]

/-! ## The signature test (R164) -/

/-- Two values are complements of each other in `w` bits exactly where their sum has all `w` bits set. -/
theorem eq_not_iff_toNat_add {w : Nat} (x y : BitVec w) : x = ~~~y ↔ x.toNat + y.toNat = 2 ^ w - 1 := by
  have hy := y.isLt
  rw [← BitVec.toNat_inj, BitVec.toNat_not]
  omega

theorem pairsDiffer_col_iff (c : BitVec 6) :
    pairsDiffer c 0x15#6 = true ↔ ∀ m, m < 3 → c.getLsbD (2 * m + 1) ≠ c.getLsbD (2 * m) := by
  revert c
  decide

/-- SIGN holds exactly where the line deltas are complements and every column pair differs. -/
theorem sigN_iff {w : Nat} (d : NCheck w) :
    sigN d = true
      ↔ d.lp.toNat + d.lpp.toNat = 2 ^ w - 1
        ∧ ∀ m, m < 3 → d.col.getLsbD (2 * m + 1) ≠ d.col.getLsbD (2 * m) := by
  rw [sigN, Bool.and_eq_true, beq_iff_eq, eq_not_iff_toNat_add, pairsDiffer_col_iff]

/-- Three column pairs that differ hold three set bits. -/
theorem popcount_of_pairsDiffer_col (c : BitVec 6) : pairsDiffer c 0x15#6 = true → popcount c = 3 := by
  revert c
  decide

/-! ## The verdict (R163 to R167) -/

/-- The number of set delta bits (R165). -/
def NCheck.weight {w : Nat} (d : NCheck w) : Nat := popcount d.col + popcount d.lp + popcount d.lpp

theorem three_le_weight_of_sigN {w : Nat} {d : NCheck w} (h : sigN d = true) : 3 ≤ d.weight := by
  rw [sigN, Bool.and_eq_true] at h
  have := popcount_of_pairsDiffer_col d.col h.2
  rw [NCheck.weight]
  omega

theorem NCheck.ne_zero_of_weight_pos {w : Nat} {d : NCheck w} (h : 0 < d.weight) :
    ¬(d.col = 0#6 ∧ d.lp = 0#w ∧ d.lpp = 0#w) := by
  rintro ⟨hcol, hlp, hlpp⟩
  simp [NCheck.weight, hcol, hlp, hlpp, popcount_zero] at h

/-- No delta bit (R163). -/
theorem verdictN_of_zero (w n : Nat) : verdictN n (⟨0#6, 0#w, 0#w⟩ : NCheck w) = .clean := by
  rw [verdictN, if_pos ⟨rfl, rfl, rfl⟩]

/-- A signature: the guard of R164 tells the region's bytes from those above it. -/
theorem verdictN_of_sigN {w n : Nat} {d : NCheck w} (h : sigN d = true) :
    verdictN n d = if n ≤ d.lp.toNat then .uncorrectable else .dataBit d.lp.toNat (bitOffsetN d.col) := by
  have := three_le_weight_of_sigN h
  rw [verdictN, if_neg (NCheck.ne_zero_of_weight_pos (by omega)), if_pos h]

/-- One delta bit (R165): too few for a signature. -/
theorem verdictN_of_weight_one {w n : Nat} {d : NCheck w} (h : d.weight = 1) : verdictN n d = .checkBit := by
  have hsig : ¬sigN d = true := fun hs => by
    have := three_le_weight_of_sigN hs
    omega
  rw [verdictN, if_neg (NCheck.ne_zero_of_weight_pos (by omega)), if_neg hsig]
  exact if_pos h

/-- Two or more delta bits without a signature (R167). -/
theorem verdictN_of_not_sigN {w n : Nat} {d : NCheck w} (hsig : ¬sigN d = true) (h : 2 ≤ d.weight) :
    verdictN n d = .uncorrectable := by
  have hne : ¬d.weight = 1 := by omega
  rw [verdictN, if_neg (NCheck.ne_zero_of_weight_pos (by omega)), if_neg hsig]
  exact if_neg hne

theorem bitOffsetN_getLsbD (c : BitVec 6) (m : Nat) (hm : m < 3) :
    (bitOffsetN c).getLsbD m = c.getLsbD (2 * m + 1) := by
  simp only [bitOffsetN, BitVec.getLsbD_append, BitVec.getLsbD_ofBool]
  interval_cases m <;> simp

/-! ## The deltas of a legal state (R37, R162) -/

/-- The delta of one field, as the word that two host reads and an exclusive or give (R162). -/
def State.deltaWord (s : State) (f : VarField) : Word := s.get (.roth f) ^^^ s.get (.toth f)

theorem State.deltasN_eq (s : State) :
    s.deltasN = { col := (s.deltaWord .col).setWidth 6
                  lp := (s.deltaWord .lp).setWidth s.params.w
                  lpp := (s.deltaWord .lpp).setWidth s.params.w } := rfl

theorem State.deltasN_col_getLsbD (s : State) (k : Nat) (hk : k < 6) :
    s.deltasN.col.getLsbD k = (s.deltaWord .col).getLsbD k := by
  simp [State.deltasN_eq, hk]

/-- The width of a field of a check value (R32, R33). -/
def VarField.width (w : Nat) : VarField → Nat
  | .col => 6
  | .lp => w
  | .lpp => w

theorem ElemName.width_roth (p : Params) (f : VarField) : (ElemName.roth f).width p = f.width p.w := by
  cases f <;> rfl

theorem VarCheck.Narrow.get_lt {w : Nat} {c : VarCheck} (h : c.Narrow w) (f : VarField) :
    (c.get f).toNat < 2 ^ f.width w := by
  obtain ⟨hlp, hlpp⟩ := h
  cases f with
  | col =>
    rw [VarCheck.get, BitVec.toNat_setWidth]
    exact (Nat.mod_le _ _).trans_lt c.col.val.isLt
  | lp => exact hlp
  | lpp => exact hlpp

section
variable {s : State}

theorem State.Inv.width_le (h : s.Inv) (f : VarField) : f.width s.params.w ≤ 32 := by
  obtain ⟨-, hw, -⟩ := (Params.wf_iff _).mp h.params
  cases f with
  | col => exact (by decide : 6 ≤ 32)
  | lp | lpp => exact hw

theorem State.Inv.deltaWord_lt (h : s.Inv) (f : VarField) : (s.deltaWord f).toNat < 2 ^ f.width s.params.w := by
  rw [State.deltaWord, BitVec.toNat_xor]
  exact Nat.xor_lt_two_pow (h.roth.get_lt f) (h.toth.get_lt f)

theorem State.Inv.deltasN_lp_toNat (h : s.Inv) : s.deltasN.lp.toNat = (s.deltaWord .lp).toNat :=
  setWidth_toNat_of_lt (h.deltaWord_lt .lp)

theorem State.Inv.deltasN_lpp_toNat (h : s.Inv) : s.deltasN.lpp.toNat = (s.deltaWord .lpp).toNat :=
  setWidth_toNat_of_lt (h.deltaWord_lt .lpp)

/-- The 6 + 2·W delta bits are those of the three words. -/
theorem State.Inv.weight_deltasN (h : s.Inv) :
    s.deltasN.weight = popcount (s.deltaWord .col) + popcount (s.deltaWord .lp) + popcount (s.deltaWord .lpp) := by
  have hfield (f : VarField) := popcount_setWidth_of_lt (h.width_le f) (h.deltaWord_lt f)
  rw [← hfield .col, ← hfield .lp, ← hfield .lpp]
  rfl

/-- SIGN of the deltas, read off the three words. -/
theorem State.Inv.sigN_deltasN_iff (h : s.Inv) :
    sigN s.deltasN = true
      ↔ (s.deltaWord .lp).toNat + (s.deltaWord .lpp).toNat = 2 ^ s.params.w - 1
        ∧ ∀ m, m < 3 → (s.deltaWord .col).getLsbD (2 * m + 1) ≠ (s.deltaWord .col).getLsbD (2 * m) := by
  rw [sigN_iff, h.deltasN_lp_toNat, h.deltasN_lpp_toNat]
  refine and_congr_right fun _ => forall₂_congr fun m hm => ?_
  rw [s.deltasN_col_getLsbD _ (by omega), s.deltasN_col_getLsbD _ (by omega)]

end

/-! ## CORRN (R166) -/

/-- What CORRN `n` leaves where its verdict is `v`. -/
def State.corrn (s : State) (n : BitVec 16) (v : Verdict) : State :=
  s.apply (verdictOutput s (.corrn n) (corrnReplace s) v)

/-- Over written check values, and a written byte on the data path, CORRN completes with its verdict's output and
changes nothing else. -/
theorem exec_corrn (s : State) (n : BitVec 16) (v : Verdict) (hv : s.verdictN n.toNat = v)
    (hi : (Instr.corrn n).wf s.params = true) (hw : s.Written (rothNames ++ tothNames))
    (hpath : s.Written (verdictReads v)) :
    exec (.corrn n) s = .next (s.corrn n v) ∧ Frame s (s.corrn n v) (verdictWrites rothNames v)
      ∧ (s.corrn n v).Written (verdictWrites rothNames v) := by
  subst hv
  refine ⟨exec_of_written (.corrn n) s hi fun e he => ?_, frame_commandOutput s (.corrn n),
    written_commandOutput s (.corrn n)⟩
  exact (List.mem_append.mp he).elim (hw e) (hpath e)

/-- CORRN flips a bit as CORR256 does: only STATUS tells their outputs apart. -/
theorem dataByte_corrn (s : State) (n : BitVec 16) (byte : Nat) (bit : BitVec 3) :
    (s.corrn n (.dataBit byte bit)).dataByte byte = s.dataByte byte ^^^ (1#8 <<< bit.toNat) := by
  rw [← dataByte_corr256, State.dataByte, State.dataByte, State.corrn, State.corr256, State.apply, State.apply,
    State.setStatus_get, State.setStatus_get, verdictOutput, verdictOutput]

/-- STATUS after CORRN, by what it found (R28, R163 to R167). -/
def corrnStatus : Verdict → Word
  | .clean => 0x00004000#32
  | .dataBit _ _ => 0x00004005#32
  | .checkBit => 0x00004009#32
  | .uncorrectable => 0x00004003#32

theorem status_corrn (s : State) (n : BitVec 16) (v : Verdict) : (s.corrn n v).status = corrnStatus v := by
  rw [State.corrn, State.apply, State.setStatus_status]
  cases v <;> simp only [verdictOutput, Instr.opcode, corrnStatus] <;> decide

/-- ROTH keeps all the bits of TOTH in a legal state. -/
theorem roth_corrn {s : State} (h : s.Inv) (n : BitVec 16) (f : VarField) :
    (s.corrn n .checkBit).get (.roth f) = s.get (.toth f) := by
  have hkeep : (s.corrn n .checkBit).get (.roth f) = keepLow (f.width s.params.w) (s.get (.toth f)) := by
    rw [← ElemName.width_roth]
    cases f <;> simp [State.corrn, State.apply, verdictOutput, corrnReplace, State.get_put]
  exact hkeep.trans (keepLow_of_lt (h.toth.get_lt f))

/-- Settles O45: equal check values have no delta bit. -/
theorem corrnClean : Obligations.CorrnClean := by
  intro s n hi hw heq
  have hv : s.verdictN n.toNat = .clean := by
    simp only [State.verdictN, State.deltasN, heq, BitVec.xor_self, BitVec.setWidth_zero, verdictN_of_zero]
  obtain ⟨hexec, hframe, -⟩ := exec_corrn s n _ hv hi hw (written_nil s)
  exact ⟨_, hexec, status_corrn s n _, hframe⟩

/-- Settles O46: the deltas are a signature, and the guard decides between the two outcomes. -/
theorem corrnFlipsBitInsideRegion : Obligations.CorrnFlipsBitInsideRegion := by
  rintro s n c l q bit hs hi hw rfl rfl rfl hsum hpairs hbit hbitBits
  have hv : s.verdictN n.toNat = if n.toNat ≤ (s.deltaWord .lp).toNat then .uncorrectable
      else .dataBit (s.deltaWord .lp).toNat (bitOffsetN s.deltasN.col) := by
    rw [State.verdictN, verdictN_of_sigN (hs.sigN_deltasN_iff.mpr ⟨hsum, hpairs⟩), hs.deltasN_lp_toNat]
  refine ⟨fun hout => ?_, fun hin hdata => ?_⟩
  · obtain ⟨hexec, hframe, -⟩ := exec_corrn s n _ (hv.trans (if_pos hout)) hi hw (written_nil s)
    exact ⟨_, hexec, status_corrn s n _, hframe⟩
  · have hbitOffset : (bitOffsetN s.deltasN.col).toNat = bit := toNat_eq_of_testBit _ hbit fun m hm => by
      rw [bitOffsetN_getLsbD _ m hm, s.deltasN_col_getLsbD _ (by omega)]
      exact hbitBits m hm
    obtain ⟨hexec, hframe, hwritten⟩ :=
      exec_corrn s n _ (hv.trans (if_neg (Nat.not_le.mpr hin))) hi hw (written_singleton.mpr hdata)
    exact ⟨_, hexec, hbitOffset ▸ dataByte_corrn s n _ _, written_singleton.mp hwritten, status_corrn s n _, hframe⟩

/-- Settles O47: one delta bit is too few for a signature. -/
theorem corrnReplacesCheckValue : Obligations.CorrnReplacesCheckValue := by
  intro s n hs hi hw hone
  have hv : s.verdictN n.toNat = .checkBit := verdictN_of_weight_one (hs.weight_deltasN.trans hone)
  obtain ⟨hexec, hframe, hwritten⟩ := exec_corrn s n _ hv hi hw (written_nil s)
  exact ⟨_, hexec, roth_corrn hs n, hwritten, status_corrn s n _, hframe⟩

/-- Settles O48: line deltas that are no complements, or a column pair that agrees, break the signature. -/
theorem corrnUncorrectable : Obligations.CorrnUncorrectable := by
  rintro s n c l q hs hi hw rfl rfl rfl hfail htwo
  have hsig : ¬sigN s.deltasN = true := by
    rw [hs.sigN_deltasN_iff]
    rintro ⟨hsum, hpairs⟩
    rcases hfail with hne | ⟨m, hm, heq⟩
    · exact hne hsum
    · exact hpairs m hm heq
  have hv : s.verdictN n.toNat = .uncorrectable := verdictN_of_not_sigN hsig (htwo.trans_eq hs.weight_deltasN.symm)
  obtain ⟨hexec, hframe, -⟩ := exec_corrn s n _ hv hi hw (written_nil s)
  exact ⟨_, hexec, status_corrn s n _, hframe⟩

end Sys2Proof.Machine


/-!
PROOFS. PACK and UNPACK (spec/43_symbol_packing.md R190 to R193): what a command leaves in an element it writes once,
the stream of PACKSYM as the bits of the closed forms of R190 (`packSym_toNat`), and the stream that UNPACKSYM reads.
-/

namespace Sys2Proof.Machine

/-! ## Elements written once (R37) -/

theorem lastWrite_of_nodup {ws : List (ElemName × Word)} {e : ElemName} {v : Word} (hnd : (ws.map Prod.fst).Nodup)
    (h : (e, v) ∈ ws) : lastWrite ws e = some v := by
  induction ws with
  | nil => cases h
  | cons x ws ih =>
    obtain ⟨hx, hnd⟩ := List.nodup_cons.mp hnd
    rw [lastWrite_cons]
    rcases List.mem_cons.mp h with rfl | h
    · rw [(lastWrite_eq_none ws _).mpr hx, if_pos rfl]
      rfl
    · rw [ih hnd h]
      rfl

/-- What the only write of an element leaves in it. -/
theorem State.get_apply_of_nodup {s : State} {o : CommandOutput} {e : ElemName} {v : Word}
    (hnd : (o.writes.map Prod.fst).Nodup) (h : (e, v) ∈ o.writes) :
    (s.apply o).get e = keepLow (e.width s.params) v := by
  rw [State.apply, State.setStatus_get, State.get_putAll, lastWrite_of_nodup hnd h]
  rfl

theorem dataNames_nodup (n : Nat) : (dataNames n).Nodup :=
  List.nodup_range.map fun _ _ => ElemName.data.inj

theorem symNames_nodup : symNames.Nodup := by decide

theorem dataByte_apply_dataWrites (s : State) (n : Nat) (f : Nat → Byte) (st : Word) (i : Nat) (hi : i < n) :
    (s.apply ⟨dataWrites n f, st⟩).dataByte i = f i := by
  have hmem : (ElemName.data i, (f i).setWidth 32) ∈ dataWrites n f :=
    List.mem_map.mpr ⟨i, List.mem_range.mpr hi, rfl⟩
  rw [State.dataByte, State.get_apply_of_nodup ((dataWrites_names n f).symm ▸ dataNames_nodup n) hmem, ElemName.width]
  simp

theorem symAt_apply_symWrites (s : State) (f : Nat → Sym) (st : Word) (k : Nat) (hk : k < 26) :
    (s.apply ⟨symWrites f, st⟩).symAt k = f k := by
  have hmem : (ElemName.sym (Fin.ofNat 26 k), (f k).setWidth 32) ∈ symWrites f :=
    List.mem_map.mpr ⟨k, List.mem_range.mpr hk, rfl⟩
  rw [State.symAt, State.get_apply_of_nodup ((symWrites_names f).symm ▸ symNames_nodup) hmem, ElemName.width]
  simp

/-! ## The bits of packed values (R190, R191) -/

theorem ofBits_getLsbD {n : Nat} (f : Nat → Bool) {k : Nat} (hk : k < n) : (ofBits n f).getLsbD k = f k := by
  induction n with
  | zero => omega
  | succ n ih =>
    rw [ofBits, BitVec.getLsbD_cons]
    split
    next heq => rw [heq]
    next hne => exact ih (by omega)

/-- Which of the `w` stream bits of a symbol or byte its bit `j` is (R190, R191). -/
def bitPlace (w j : Nat) : PackOrder → Nat
  | .lsbFirst => j
  | .msbFirst => w - 1 - j

theorem packSym_getLsbD (o : PackOrder) (d : Nat → Byte) (k : Nat) {j : Nat} (hj : j < 5) :
    (packSym o d k).getLsbD j = packStream o d (5 * k + bitPlace 5 j o) := by
  cases o <;> rw [packSym, ofBits_getLsbD _ hj, bitPlace]

theorem unpackSym_getLsbD (o : PackOrder) (y : Nat → Sym) (i : Nat) {j : Nat} (hj : j < 8) :
    (unpackSym o y i).getLsbD j = unpackStream o y (8 * i + bitPlace 8 j o) := by
  cases o <;> rw [unpackSym, ofBits_getLsbD _ hj, bitPlace]

/-! ## The stream of PACKSYM in closed form (R190) -/

/-- The little-endian integer of the first `n` bytes. -/
def leSum (d : Nat → Byte) (n : Nat) : Nat := ((List.range n).map (fun i => (d i).toNat * 2 ^ (8 * i))).sum

theorem leSum_succ (d : Nat → Byte) (n : Nat) : leSum d (n + 1) = 2 ^ (8 * n) * (d n).toNat + leSum d n := by
  rw [leSum, List.sum_range_succ, ← leSum, Nat.add_comm, Nat.mul_comm]

theorem leSum_lt (d : Nat → Byte) (n : Nat) : leSum d n < 2 ^ (8 * n) := by
  induction n with
  | zero => exact one_pos
  | succ n ih =>
    have hbyte : (d n).toNat + 1 ≤ 2 ^ 8 := (d n).isLt
    calc leSum d (n + 1) = 2 ^ (8 * n) * (d n).toNat + leSum d n := leSum_succ d n
      _ < 2 ^ (8 * n) * ((d n).toNat + 1) := by rw [Nat.mul_add_one]; exact Nat.add_lt_add_left ih _
      _ ≤ 2 ^ (8 * n) * 2 ^ 8 := Nat.mul_le_mul_left _ hbyte
      _ = 2 ^ (8 * (n + 1)) := (pow_add 2 (8 * n) 8).symm

/-- Bit `m` of a little-endian integer is bit `m % 8` of byte `m / 8`. -/
theorem leSum_testBit (d : Nat → Byte) (n m : Nat) (hm : m < 8 * n) :
    (leSum d n).testBit m = (d (m / 8)).getLsbD (m % 8) := by
  induction n with
  | zero => omega
  | succ n ih =>
    rw [leSum_succ, Nat.testBit_two_pow_mul_add _ (leSum_lt d n)]
    split
    next hlow => exact ih hlow
    next hhigh =>
      have hdiv : m / 8 = n := by omega
      have hmod : m % 8 = m - 8 * n := by omega
      rw [hdiv, hmod, BitVec.testBit_toNat]

theorem leInt_lt (d : Nat → Byte) : leInt d < 2 ^ 128 := leSum_lt d 16

theorem leInt_testBit (d : Nat → Byte) {m : Nat} (hm : m < 128) :
    (leInt d).testBit m = (d (m / 8)).getLsbD (m % 8) := leSum_testBit d 16 m hm

/-- The big-endian integer is the little-endian one of the reversed bytes, above the two padding bits. -/
theorem beInt_eq (d : Nat → Byte) : beInt d = leInt (fun i => d (15 - i)) * 2 ^ 2 := by
  have hreflect : ((List.range 16).map (fun i => (d i).toNat * 2 ^ (8 * (15 - i)))).sum = leInt (fun i => d (15 - i)) :=
    calc _ = ∑ i ∈ Finset.range 16, (d i).toNat * 2 ^ (8 * (15 - i)) := rfl
      _ = ∑ i ∈ Finset.range 16, (d (15 - i)).toNat * 2 ^ (8 * (15 - (15 - i))) := (Finset.sum_range_reflect _ 16).symm
      _ = ∑ i ∈ Finset.range 16, (d (15 - i)).toNat * 2 ^ (8 * i) := Finset.sum_congr rfl fun i hi => by
        rw [Nat.sub_sub_self (Nat.le_of_lt_succ (Finset.mem_range.mp hi))]
  rw [beInt, hreflect, Nat.mul_comm, Nat.pow_two]

theorem packStream_lsbFirst (d : Nat → Byte) (m : Nat) : packStream .lsbFirst d m = (leInt d).testBit m := by
  rw [packStream]
  split
  next hpad => exact (Nat.testBit_lt_two_pow ((leInt_lt d).trans_le (Nat.pow_le_pow_right two_pos hpad))).symm
  next hin => exact (leInt_testBit d (Nat.not_le.mp hin)).symm

/-- Under `MSB_FIRST` stream bit `m` stands at bit `129 − m` of the 130-bit value. -/
theorem packStream_msbFirst (d : Nat → Byte) {m : Nat} (hm : m < 130) :
    packStream .msbFirst d m = (beInt d).testBit (129 - m) := by
  rw [packStream, beInt_eq, Nat.testBit_mul_two_pow]
  split
  next hpad => rw [decide_eq_false (by omega), Bool.false_and]
  next hin =>
    have hbyte : 15 - (129 - m - 2) / 8 = m / 8 := by omega
    have hbit : (129 - m - 2) % 8 = 7 - m % 8 := by omega
    rw [leInt_testBit _ (by omega), hbyte, hbit, decide_eq_true (by omega), Bool.true_and]

theorem testBit_slice (x a : Nat) {w j : Nat} (hj : j < w) : (x / 2 ^ a % 2 ^ w).testBit j = x.testBit (j + a) := by
  rw [Nat.testBit_mod_two_pow, Nat.testBit_div_two_pow, decide_eq_true hj, Bool.true_and]

/-- PACKSYM is the closed form of R190. -/
theorem packSym_toNat (o : PackOrder) (d : Nat → Byte) (k : Nat) (hk : k < 26) :
    (packSym o d k).toNat = packClosed o d k := by
  cases o with
  | lsbFirst =>
    refine toNat_eq_of_testBit _ (Nat.mod_lt _ (by decide)) fun j hj => ?_
    rw [packSym_getLsbD _ d k hj, bitPlace, packStream_lsbFirst, Nat.add_comm]
    exact testBit_slice _ _ hj
  | msbFirst =>
    refine toNat_eq_of_testBit _ (Nat.mod_lt _ (by decide)) fun j hj => ?_
    have hplace : 129 - (5 * k + (5 - 1 - j)) = j + 5 * (25 - k) := by omega
    rw [packSym_getLsbD _ d k hj, bitPlace, packStream_msbFirst d (by omega), hplace]
    exact testBit_slice _ _ hj

/-! ## The commands (R192, R193) -/

/-- The Reed–Solomon build offers the commands of OP 5 and above (R91). -/
theorem wf_of_rs {p : Params} {i : Instr} (h : p.otherVariant = .rs) (hi : 0x5#4 ≤ i.opcode) : i.wf p = true := by
  cases i with
  | calcn n | corrn n => simp [Instr.opcode] at hi
  | _ => simp [Instr.wf, Instr.available, Instr.lenLegal, h]

/-- Settles O52: PACK writes the 26 symbols of PACKSYM, which are the closed form. -/
theorem packComputesClosedForm : Obligations.PackComputesClosedForm := by
  intro s hrs hw
  refine ⟨_, exec_of_written .pack s (wf_of_rs hrs (by decide)) hw, fun k hk => ?_, written_commandOutput s .pack, rfl,
    frame_commandOutput s .pack⟩
  rw [commandOutput, symAt_apply_symWrites s _ _ k hk, State.packed, packSym_toNat _ _ k hk]

/-- Settles O53: UNPACK writes the 16 bytes of UNPACKSYM, whose bits are those of the stream in the build's order. -/
theorem unpackReadsSymbolStream : Obligations.UnpackReadsSymbolStream := by
  intro s hrs hw
  refine ⟨_, exec_of_written .unpack s (wf_of_rs hrs (by decide)) hw, fun i b hi hb => ?_,
    written_commandOutput s .unpack, rfl, frame_commandOutput s .unpack⟩
  rw [commandOutput, dataByte_apply_dataWrites s 16 _ _ i hi]
  refine ⟨fun ho => ?_, fun ho => ?_⟩
  · rw [ho, unpackSym_getLsbD _ _ i hb, bitPlace, unpackStream]
  · rw [ho, unpackSym_getLsbD _ _ i (by omega), bitPlace, unpackStream, Nat.sub_sub_self (by omega)]

end Sys2Proof.Machine

/-!
PROOFS. The arithmetic of GF(32) (spec/44_reed_solomon.md R200 to R203): the product is bilinear, and every nonzero
symbol is a power of α, so products and quotients obey the laws of a field.
-/

namespace Sys2Proof.Machine

/-! ## Sums (R200) -/

theorem xor_left_comm {w : Nat} (x y z : BitVec w) : x ^^^ (y ^^^ z) = y ^^^ (x ^^^ z) := by
  rw [← BitVec.xor_assoc, BitVec.xor_comm x, BitVec.xor_assoc]

theorem xor_ne_zero {w : Nat} {x y : BitVec w} (h : x ≠ y) : x ^^^ y ≠ 0#w :=
  BitVec.xor_eq_zero_iff.not.mpr h

/-! ## The product is bilinear (R200) -/

theorem gfTerm_xor (b : Bool) (x y : Sym) : gfTerm b (x ^^^ y) = gfTerm b x ^^^ gfTerm b y := by
  cases b <;> simp [gfTerm]

theorem xor_gfTerm (b c : Bool) (x : Sym) : gfTerm (b ^^ c) x = gfTerm b x ^^^ gfTerm c x := by
  cases b <;> cases c <;> simp [gfTerm]

theorem gfShift_eq (x : Sym) : gfShift x = (x <<< 1) ^^^ gfTerm (x.getLsbD 4) 0x05#5 := rfl

theorem gfShift_xor (x y : Sym) : gfShift (x ^^^ y) = gfShift x ^^^ gfShift y := by
  simp only [gfShift_eq, BitVec.shiftLeft_xor_distrib, BitVec.getLsbD_xor, xor_gfTerm]
  ac_rfl

@[simp] theorem xor_gfMul (a b c : Sym) : gfMul (a ^^^ b) c = gfMul a c ^^^ gfMul b c := by
  simp only [gfMul, gfShift_xor, gfTerm_xor]
  ac_rfl

@[simp] theorem gfMul_xor (a b c : Sym) : gfMul a (b ^^^ c) = gfMul a b ^^^ gfMul a c := by
  simp only [gfMul, BitVec.getLsbD_xor, xor_gfTerm]
  ac_rfl

/-! ## The powers of α (R201, R203) -/

@[simp] theorem alphaPow_zero : alphaPow 0 = 1#5 := rfl

theorem alphaPow_mod (k : Nat) : alphaPow (k % 31) = alphaPow k := by rw [alphaPow, Nat.mod_mod, ← alphaPow]

theorem alphaPow_ne_zero (k : Nat) : alphaPow k ≠ 0#5 := by
  have hall : ∀ k : Fin 31, alphaPow k ≠ 0#5 := by decide
  exact alphaPow_mod k ▸ hall ⟨k % 31, Nat.mod_lt _ (by decide)⟩

theorem gfLog_alphaPow {k : Nat} (hk : k < 31) : gfLog (alphaPow k) = k := by
  have hall : ∀ k : Fin 31, gfLog (alphaPow k) = k := by decide
  exact hall ⟨k, hk⟩

theorem alphaPow_inj {j k : Nat} (hj : j < 31) (hk : k < 31) (h : alphaPow j = alphaPow k) : j = k := by
  rw [← gfLog_alphaPow hj, h, gfLog_alphaPow hk]

theorem gfMul_alphaPow (j k : Nat) : gfMul (alphaPow j) (alphaPow k) = alphaPow (j + k) := by
  have hall : ∀ j k : Fin 31, gfMul (alphaPow j) (alphaPow k) = alphaPow (j + k) := by decide +kernel
  calc gfMul (alphaPow j) (alphaPow k) = gfMul (alphaPow (j % 31)) (alphaPow (k % 31)) := by simp only [alphaPow_mod]
    _ = alphaPow (j % 31 + k % 31) := hall ⟨j % 31, Nat.mod_lt _ (by decide)⟩ ⟨k % 31, Nat.mod_lt _ (by decide)⟩
    _ = alphaPow ((j % 31 + k % 31) % 31) := (alphaPow_mod _).symm
    _ = alphaPow (j + k) := by rw [← Nat.add_mod, alphaPow_mod]

/-! ## The laws of a field (R202) -/

@[simp] theorem zero_gfMul (a : Sym) : gfMul 0#5 a = 0#5 := by
  revert a
  decide

@[simp] theorem gfMul_zero (a : Sym) : gfMul a 0#5 = 0#5 := by
  revert a
  decide

@[simp] theorem gfMul_one (a : Sym) : gfMul a 1#5 = a := by
  revert a
  decide

/-- α generates the nonzero symbols. -/
theorem eq_zero_or_alphaPow (v : Sym) : v = 0#5 ∨ ∃ k, k < 31 ∧ v = alphaPow k := by
  revert v
  decide

theorem gfMul_comm (a b : Sym) : gfMul a b = gfMul b a := by
  obtain rfl | ⟨j, -, rfl⟩ := eq_zero_or_alphaPow a
  · simp
  obtain rfl | ⟨k, -, rfl⟩ := eq_zero_or_alphaPow b
  · simp
  rw [gfMul_alphaPow, gfMul_alphaPow, Nat.add_comm]

@[simp] theorem gfMul_assoc (a b c : Sym) : gfMul (gfMul a b) c = gfMul a (gfMul b c) := by
  obtain rfl | ⟨i, -, rfl⟩ := eq_zero_or_alphaPow a
  · simp
  obtain rfl | ⟨j, -, rfl⟩ := eq_zero_or_alphaPow b
  · simp
  obtain rfl | ⟨k, -, rfl⟩ := eq_zero_or_alphaPow c
  · simp
  simp only [gfMul_alphaPow, Nat.add_assoc]

theorem gfMul_left_comm (a b c : Sym) : gfMul a (gfMul b c) = gfMul b (gfMul a c) := by
  rw [← gfMul_assoc, gfMul_comm a b, gfMul_assoc]

theorem gfMul_eq_zero_iff (a b : Sym) : gfMul a b = 0#5 ↔ a = 0#5 ∨ b = 0#5 := by
  obtain rfl | ⟨j, -, rfl⟩ := eq_zero_or_alphaPow a
  · simp
  obtain rfl | ⟨k, -, rfl⟩ := eq_zero_or_alphaPow b
  · simp
  simp only [gfMul_alphaPow, alphaPow_ne_zero, or_self]

theorem gfInv_gfMul {b : Sym} (hb : b ≠ 0#5) : gfMul (gfInv b) b = 1#5 := by
  revert b
  decide

/-- A quotient by a nonzero symbol is the one symbol that its product with the divisor determines. -/
theorem gfDiv_eq_iff {b : Sym} (hb : b ≠ 0#5) (a c : Sym) : gfDiv a b = c ↔ a = gfMul c b := by
  constructor
  · rintro rfl
    rw [gfDiv, gfMul_assoc, gfInv_gfMul hb, gfMul_one]
  · rintro rfl
    rw [gfDiv, gfMul_assoc, gfMul_comm b, gfInv_gfMul hb, gfMul_one]

theorem gfMul_left_cancel {a b c : Sym} (ha : a ≠ 0#5) (h : gfMul a b = gfMul a c) : b = c := by
  rw [← (gfDiv_eq_iff ha _ b).mpr (gfMul_comm a b), h, (gfDiv_eq_iff ha _ c).mpr (gfMul_comm a c)]

end Sys2Proof.Machine

/-!
PROOFS. CALCRS (spec/44_reed_solomon.md R204 to R206): the shift register evaluates the codeword by Horner's rule
(`registerAt_rsParity`), since g(x) vanishes at α^0 to α^3.
-/

namespace Sys2Proof.Machine

/-! ## The shift register (R205) -/

/-- α^0 to α^3 are the roots of g(x) = x^4 + 15·x^3 + 19·x^2 + 23·x + 10. -/
theorem alphaPow_four_mul {i : Nat} (hi : i < 4) :
    alphaPow (i * 4)
      = gfMul 15#5 (alphaPow (i * 3)) ^^^ gfMul 19#5 (alphaPow (i * 2)) ^^^ gfMul 23#5 (alphaPow i) ^^^ 10#5 := by
  revert i
  decide

theorem gfMul_alphaPow_mul (i m : Nat) : gfMul (alphaPow (i * m)) (alphaPow i) = alphaPow (i * (m + 1)) := by
  rw [gfMul_alphaPow, Nat.mul_succ]

/-- The value at α^i of the polynomial that the shift register holds. -/
def registerAt (p : Vector Sym 4) (i : Nat) : Sym := syndromeAt (fun j => p[j]) i

/-- One step of the shift register is one step of Horner's rule at a root of g(x). -/
theorem registerAt_rsShift (p : Vector Sym 4) (y : Sym) {i : Nat} (hi : i < 4) :
    registerAt (rsShift p y) i = gfMul (registerAt p i) (alphaPow i) ^^^ gfMul y (alphaPow (i * 4)) :=
  calc registerAt (rsShift p y) i
      = gfMul p[1] (alphaPow (i * 3)) ^^^ gfMul p[2] (alphaPow (i * 2)) ^^^ gfMul p[3] (alphaPow i)
        ^^^ gfMul (y ^^^ p[0]) (alphaPow (i * 4)) := by
        simp [registerAt, syndromeAt, rsShift, xor_gfMul, alphaPow_four_mul hi, gfMul_xor, gfMul_assoc]
        ac_rfl
    _ = gfMul (registerAt p i) (alphaPow i) ^^^ gfMul y (alphaPow (i * 4)) := by
        have hsq : gfMul (alphaPow i) (alphaPow i) = alphaPow (i * 2) := by rw [gfMul_alphaPow, Nat.mul_two]
        simp [registerAt, syndromeAt, xor_gfMul, gfMul_assoc, gfMul_alphaPow_mul, hsq]
        ac_rfl

theorem rsParity_concat (ys : List Sym) (y : Sym) : rsParity (ys ++ [y]) = rsShift (rsParity ys) y :=
  List.foldl_concat ..

theorem xorSum_gfMul (n : Nat) (f : Nat → Sym) (c : Sym) :
    gfMul (xorSum n f) c = xorSum n (fun k => gfMul (f k) c) := by
  induction n with
  | zero => exact zero_gfMul c
  | succ n ih => rw [xorSum, xor_gfMul, ih, xorSum]

theorem xorSum_congr {w n : Nat} {f g : Nat → BitVec w} (h : ∀ k, k < n → f k = g k) :
    xorSum n f = xorSum n g := by
  induction n with
  | zero => rfl
  | succ n ih => rw [xorSum, ih fun k hk => h k (Nat.lt_succ_of_lt hk), h n (Nat.lt_succ_self n), xorSum]

/-- The register holds the remainder: at a root of g(x) it has the value of the symbols taken in. -/
theorem registerAt_rsParity (n : Nat) (y : Nat → Sym) {i : Nat} (hi : i < 4) :
    registerAt (rsParity ((List.range n).map y)) i = xorSum n (fun k => gfMul (y k) (alphaPow (i * (n + 3 - k)))) := by
  induction n with
  | zero => simp [rsParity, registerAt, syndromeAt, xorSum]
  | succ n ih =>
    have hshift : ∀ k, k < n → gfMul (gfMul (y k) (alphaPow (i * (n + 3 - k)))) (alphaPow i)
        = gfMul (y k) (alphaPow (i * (n + 1 + 3 - k))) := fun k hk => by
      have hdegree : n + 1 + 3 - k = n + 3 - k + 1 := by omega
      rw [gfMul_assoc, gfMul_alphaPow_mul, hdegree]
    have hlast : n + 1 + 3 - n = 4 := by omega
    rw [List.range_succ, List.map_append, List.map_singleton, rsParity_concat, registerAt_rsShift _ _ hi, ih,
      xorSum_gfMul, xorSum_congr hshift, xorSum, hlast]

/-! ## CALCRS (R206) -/

/-- The parity part of a codeword is its syndrome sum (R204, R207). -/
theorem xorSum_four_eq_syndromeAt (q : Fin 4 → Sym) (i : Nat) :
    xorSum 4 (fun j => gfMul (q (Fin.ofNat 4 j)) (alphaPow (i * (3 - j)))) = syndromeAt q i := by
  simp only [xorSum, BitVec.zero_xor, Nat.reduceSub, Nat.mul_one, Nat.mul_zero]
  rfl

theorem codewordAt_eq (y : Nat → Sym) (q : Fin 4 → Sym) {i : Nat} (hi : i < 4) :
    codewordAt y q i = registerAt (rsParity ((List.range 26).map y)) i ^^^ syndromeAt q i := by
  rw [codewordAt, xorSum_four_eq_syndromeAt, registerAt_rsParity 26 y hi]

theorem tparSym_calcrs (s : State) (j : Fin 4) :
    (s.apply (commandOutput s .calcrs)).tparSym j = (rsParity s.packedList)[j] := by
  fin_cases j <;>
    simp [State.tparSym, State.apply, commandOutput, calcrsWrites, State.get_put, ElemName.width]

/-- Settles O56: the parity is the remainder, so at a root of g(x) the data part and the parity part are equal. -/
theorem calcrsMakesCodeword : Obligations.CalcrsMakesCodeword := by
  intro s hrs hw
  refine ⟨_, exec_of_written .calcrs s (wf_of_rs hrs (by decide)) hw, fun i hi => ?_,
    written_commandOutput s .calcrs, rfl, frame_commandOutput s .calcrs⟩
  rw [codewordAt_eq _ _ hi, funext (tparSym_calcrs s)]
  exact BitVec.xor_self

end Sys2Proof.Machine

/-!
PROOFS. The decoder of R209 answers exactly the patterns of R208 (`rsDecode_eq_some_iff`): the syndromes of two errors
are a sequence with a linear recurrence of length two, whose coefficients are the sum and the product of the locators.
-/

namespace Sys2Proof.Machine

/-! ## Error patterns (R208) -/

/-- The four syndromes of a pattern. -/
def Pattern.syndromes (e : Pattern) : Syndromes where
  s0 := Pattern.syndrome e 0
  s1 := Pattern.syndrome e 1
  s2 := Pattern.syndrome e 2
  s3 := Pattern.syndrome e 3

/-- The patterns that the decoder can answer: valid, in ascending degree, at most 2 errors (R208, R209). -/
structure Pattern.Decodable (e : Pattern) : Prop where
  valid : Pattern.Valid e
  ascending : e.Pairwise (fun x y => x.1 < y.1)
  length_le : e.length ≤ 2

theorem decodable_nil : Pattern.Decodable [] := ⟨by simp [Pattern.Valid], by simp, by simp⟩

theorem decodable_single_iff (d : Nat) (y : Sym) : Pattern.Decodable [(d, y)] ↔ d < 30 ∧ y ≠ 0#5 :=
  ⟨fun h => h.valid.2 _ (List.mem_singleton_self _),
    fun h => ⟨by simpa [Pattern.Valid] using h, by simp, by simp⟩⟩

theorem decodable_pair_iff (d1 d2 : Nat) (y1 y2 : Sym) :
    Pattern.Decodable [(d1, y1), (d2, y2)] ↔ (d1 < d2 ∧ d2 < 30) ∧ y1 ≠ 0#5 ∧ y2 ≠ 0#5 := by
  constructor
  · rintro ⟨⟨-, hall⟩, hlt, -⟩
    obtain ⟨-, hy1⟩ := hall (d1, y1) (by simp)
    obtain ⟨h2, hy2⟩ := hall (d2, y2) (by simp)
    exact ⟨⟨by simpa using hlt, h2⟩, hy1, hy2⟩
  · rintro ⟨⟨hlt, h2⟩, hy1, hy2⟩
    refine ⟨⟨by simp [hlt.ne], ?_⟩, by simpa using hlt, by simp⟩
    simp [hy1, hy2, h2, hlt.trans h2]

/-- The syndromes `y1·x1^i + y2·x2^i` of two errors with the locators `x1` and `x2`. -/
def pairSyndromes (y1 x1 y2 x2 : Sym) : Syndromes where
  s0 := y1 ^^^ y2
  s1 := gfMul y1 x1 ^^^ gfMul y2 x2
  s2 := gfMul y1 (gfMul x1 x1) ^^^ gfMul y2 (gfMul x2 x2)
  s3 := gfMul y1 (gfMul x1 (gfMul x1 x1)) ^^^ gfMul y2 (gfMul x2 (gfMul x2 x2))

theorem alphaPow_two_mul (d : Nat) : alphaPow (2 * d) = gfMul (alphaPow d) (alphaPow d) := by
  rw [gfMul_alphaPow, Nat.two_mul]

theorem alphaPow_three_mul (d : Nat) : alphaPow (3 * d) = gfMul (alphaPow d) (gfMul (alphaPow d) (alphaPow d)) := by
  rw [gfMul_alphaPow, gfMul_alphaPow]
  congr 1
  omega

theorem syndromes_pair (d1 d2 : Nat) (y1 y2 : Sym) :
    Pattern.syndromes [(d1, y1), (d2, y2)] = pairSyndromes y1 (alphaPow d1) y2 (alphaPow d2) := by
  simp [Pattern.syndromes, Pattern.syndrome, pairSyndromes, alphaPow_two_mul, alphaPow_three_mul]

/-- One error is a pair whose second value is 0. -/
theorem syndromes_single (d : Nat) (y : Sym) :
    Pattern.syndromes [(d, y)] = pairSyndromes y (alphaPow d) 0#5 0#5 := by
  simp [Pattern.syndromes, Pattern.syndrome, pairSyndromes, alphaPow_two_mul, alphaPow_three_mul]

/-! ## The recurrence of the syndromes -/

/-- The syndromes follow the recurrence `s[i+2] = l1·s[i+1] + l2·s[i]`. -/
def Syndromes.Recurs (s : Syndromes) (l1 l2 : Sym) : Prop :=
  s.s2 = gfMul l1 s.s1 ^^^ gfMul l2 s.s0 ∧ s.s3 = gfMul l1 s.s2 ^^^ gfMul l2 s.s1

/-- The determinant of the recurrence's two equations: D of R209. -/
def Syndromes.det (s : Syndromes) : Sym := gfMul s.s1 s.s1 ^^^ gfMul s.s0 s.s2

/-- Cramer's rule: where the determinant is not 0, the recurrence has one pair of coefficients, that of R209. -/
theorem Syndromes.recurs_iff (s : Syndromes) (hdet : s.det ≠ 0#5) (l1 l2 : Sym) :
    s.Recurs l1 l2 ↔ gfDiv (gfMul s.s0 s.s3 ^^^ gfMul s.s1 s.s2) s.det = l1
      ∧ gfDiv (gfMul s.s1 s.s3 ^^^ gfMul s.s2 s.s2) s.det = l2 := by
  rw [gfDiv_eq_iff hdet, gfDiv_eq_iff hdet]
  obtain ⟨s0, s1, s2, s3⟩ := s
  simp only [Syndromes.Recurs, Syndromes.det] at hdet ⊢
  constructor
  · rintro ⟨rfl, rfl⟩
    simp [gfMul_comm, gfMul_left_comm, BitVec.xor_assoc, BitVec.xor_comm, xor_left_comm]
  · rintro ⟨h1, h2⟩
    have hs2 : gfMul (gfMul s1 s1 ^^^ gfMul s0 s2) s2
        = gfMul (gfMul s1 s1 ^^^ gfMul s0 s2) (gfMul l1 s1 ^^^ gfMul l2 s0) :=
      calc _ = gfMul s1 (gfMul s0 s3 ^^^ gfMul s1 s2) ^^^ gfMul s0 (gfMul s1 s3 ^^^ gfMul s2 s2) := by
            simp [gfMul_comm, gfMul_left_comm, BitVec.xor_assoc, BitVec.xor_comm, xor_left_comm]
        _ = _ := by
            rw [h1, h2]
            simp [gfMul_comm, gfMul_left_comm, BitVec.xor_assoc, BitVec.xor_comm, xor_left_comm]
    have hs3 : gfMul (gfMul s1 s1 ^^^ gfMul s0 s2) s3
        = gfMul (gfMul s1 s1 ^^^ gfMul s0 s2) (gfMul l1 s2 ^^^ gfMul l2 s1) :=
      calc _ = gfMul s2 (gfMul s0 s3 ^^^ gfMul s1 s2) ^^^ gfMul s1 (gfMul s1 s3 ^^^ gfMul s2 s2) := by
            simp [gfMul_comm, gfMul_left_comm, BitVec.xor_assoc, BitVec.xor_comm, xor_left_comm]
        _ = _ := by
            rw [h1, h2]
            simp [gfMul_comm, gfMul_left_comm, BitVec.xor_assoc, BitVec.xor_comm, xor_left_comm]
    exact ⟨gfMul_left_cancel hdet hs2, gfMul_left_cancel hdet hs3⟩

/-- Two errors are four syndromes with the right start and the recurrence of the locators' sum and product. -/
theorem eq_pairSyndromes_iff (s : Syndromes) (y1 x1 y2 x2 : Sym) :
    s = pairSyndromes y1 x1 y2 x2
      ↔ (s.s0 = y1 ^^^ y2 ∧ s.s1 = gfMul y1 x1 ^^^ gfMul y2 x2) ∧ s.Recurs (x1 ^^^ x2) (gfMul x1 x2) := by
  have hs2 : (pairSyndromes y1 x1 y2 x2).s2
      = gfMul (x1 ^^^ x2) (gfMul y1 x1 ^^^ gfMul y2 x2) ^^^ gfMul (gfMul x1 x2) (y1 ^^^ y2) := by
    simp [pairSyndromes, gfMul_comm, gfMul_left_comm, BitVec.xor_assoc, BitVec.xor_comm, xor_left_comm]
  have hs3 : (pairSyndromes y1 x1 y2 x2).s3
      = gfMul (x1 ^^^ x2) (pairSyndromes y1 x1 y2 x2).s2 ^^^ gfMul (gfMul x1 x2) (gfMul y1 x1 ^^^ gfMul y2 x2) := by
    simp [pairSyndromes, gfMul_comm, gfMul_left_comm, BitVec.xor_assoc, BitVec.xor_comm, xor_left_comm]
  constructor
  · rintro rfl
    exact ⟨⟨rfl, rfl⟩, hs2, hs3⟩
  · rintro ⟨⟨h0, h1⟩, h2, h3⟩
    calc s = ⟨s.s0, s.s1, s.s2, s.s3⟩ := rfl
      _ = pairSyndromes y1 x1 y2 x2 := by rw [h3, h2, h1, h0, ← hs2, ← hs3]; rfl

theorem det_pairSyndromes (y1 x1 y2 x2 : Sym) :
    (pairSyndromes y1 x1 y2 x2).det = gfMul (gfMul y1 y2) (gfMul (x1 ^^^ x2) (x1 ^^^ x2)) := by
  simp [pairSyndromes, Syndromes.det, gfMul_comm, gfMul_left_comm, BitVec.xor_assoc, BitVec.xor_comm, xor_left_comm]

/-- The syndromes of two errors are not those of one. -/
theorem det_pairSyndromes_ne_zero {y1 x1 y2 x2 : Sym} (hy : y1 ≠ 0#5 ∧ y2 ≠ 0#5) (hne : x1 ≠ x2) :
    (pairSyndromes y1 x1 y2 x2).det ≠ 0#5 := by
  rw [det_pairSyndromes]
  simp only [ne_eq, gfMul_eq_zero_iff, hy, xor_ne_zero hne, or_self, not_false_iff]

/-! ## The two values (R209) -/

/-- The first two syndromes and the locators fix the two values. -/
theorem values_iff (s0 s1 : Sym) {x1 x2 : Sym} (hne : x1 ≠ x2) (y1 y2 : Sym) :
    (s0 = y1 ^^^ y2 ∧ s1 = gfMul y1 x1 ^^^ gfMul y2 x2)
      ↔ gfDiv (s1 ^^^ gfMul s0 x2) (x1 ^^^ x2) = y1 ∧ s0 ^^^ y1 = y2 := by
  rw [gfDiv_eq_iff (xor_ne_zero hne)]
  constructor
  · rintro ⟨rfl, rfl⟩
    simp [gfMul_comm, BitVec.xor_comm, xor_left_comm]
  · rintro ⟨h1, rfl⟩
    refine ⟨(xor_xor_cancel_comm_assoc y1 s0).symm, ?_⟩
    rw [(xor_eq_iff_left_eq ..).mp h1]
    simp [gfMul_comm, BitVec.xor_comm, xor_left_comm]

theorem errorValues_eq_some_iff (s : Syndromes) {d1 d2 : Nat} (hne : alphaPow d1 ≠ alphaPow d2) (e : Pattern) :
    errorValues s d1 d2 = some e
      ↔ ∃ y1 y2, (y1 ≠ 0#5 ∧ y2 ≠ 0#5) ∧ e = [(d1, y1), (d2, y2)]
        ∧ s.s0 = y1 ^^^ y2 ∧ s.s1 = gfMul y1 (alphaPow d1) ^^^ gfMul y2 (alphaPow d2) := by
  simp only [values_iff s.s0 s.s1 hne]
  dsimp only [errorValues]
  rw [Option.ite_none_left_eq_some, not_or]
  constructor
  · rintro ⟨hy, h⟩
    exact ⟨_, _, hy, (Option.some.inj h).symm, rfl, rfl⟩
  · rintro ⟨_, _, hy, rfl, rfl, rfl⟩
    exact ⟨hy, rfl⟩

/-! ## The roots of the locator (R209) -/

/-- Vieta: a quadratic with two distinct roots is the product of its linear factors. -/
theorem coefficients_of_roots {l1 l2 x1 x2 : Sym} (hne : x1 ≠ x2) (h1 : gfMul x1 x1 ^^^ gfMul l1 x1 ^^^ l2 = 0#5)
    (h2 : gfMul x2 x2 ^^^ gfMul l1 x2 ^^^ l2 = 0#5) : l1 = x1 ^^^ x2 ∧ l2 = gfMul x1 x2 := by
  have hl1 : l1 = x1 ^^^ x2 := by
    refine gfMul_left_cancel (xor_ne_zero hne) (BitVec.xor_eq_zero_iff.mp ?_)
    rw [← BitVec.xor_eq_zero_iff.mpr (h1.trans h2.symm)]
    simp [gfMul_comm, BitVec.xor_assoc, BitVec.xor_comm, xor_left_comm]
  subst hl1
  refine ⟨rfl, BitVec.xor_eq_zero_iff.mp ?_⟩
  rw [← h1]
  simp [gfMul_comm, BitVec.xor_comm]

/-- The quadratic with the roots `x1` and `x2`. -/
theorem quadratic_eq_zero_iff (x x1 x2 : Sym) :
    gfMul x x ^^^ gfMul (x1 ^^^ x2) x ^^^ gfMul x1 x2 = 0#5 ↔ x = x1 ∨ x = x2 := by
  have hfactor : gfMul x x ^^^ gfMul (x1 ^^^ x2) x ^^^ gfMul x1 x2 = gfMul (x ^^^ x1) (x ^^^ x2) := by
    simp [gfMul_comm, BitVec.xor_assoc]
  rw [hfactor, gfMul_eq_zero_iff, BitVec.xor_eq_zero_iff, BitVec.xor_eq_zero_iff]

theorem mem_locatorRoots (l1 l2 : Sym) (d : Nat) :
    d ∈ locatorRoots l1 l2 ↔ d < 31 ∧ gfMul (alphaPow d) (alphaPow d) ^^^ gfMul l1 (alphaPow d) ^^^ l2 = 0#5 := by
  simp [locatorRoots, alphaPow_two_mul]

theorem locatorRoots_ascending (l1 l2 : Sym) : (locatorRoots l1 l2).Pairwise (· < ·) :=
  List.pairwise_lt_range.filter _

theorem locatorRoots_eq_pair_iff (l1 l2 : Sym) (d1 d2 : Nat) :
    locatorRoots l1 l2 = [d1, d2] ↔ (d1 < d2 ∧ d2 < 31)
      ∧ l1 = alphaPow d1 ^^^ alphaPow d2 ∧ l2 = gfMul (alphaPow d1) (alphaPow d2) := by
  constructor
  · intro h
    have hlt : d1 < d2 := by simpa [h] using locatorRoots_ascending l1 l2
    obtain ⟨h1, hroot1⟩ := (mem_locatorRoots l1 l2 d1).mp (by simp [h])
    obtain ⟨h2, hroot2⟩ := (mem_locatorRoots l1 l2 d2).mp (by simp [h])
    have hne : alphaPow d1 ≠ alphaPow d2 := fun heq => hlt.ne (alphaPow_inj h1 h2 heq)
    exact ⟨⟨hlt, h2⟩, coefficients_of_roots hne hroot1 hroot2⟩
  · rintro ⟨⟨hlt, h2⟩, rfl, rfl⟩
    refine (locatorRoots_ascending _ _).eq_of_mem_iff (by simpa using hlt) fun d => ?_
    rw [mem_locatorRoots, quadratic_eq_zero_iff, List.mem_pair]
    constructor
    · rintro ⟨hd, h | h⟩
      · exact .inl (alphaPow_inj hd (hlt.trans h2) h)
      · exact .inr (alphaPow_inj hd h2 h)
    · rintro (rfl | rfl)
      · exact ⟨hlt.trans h2, .inl rfl⟩
      · exact ⟨h2, .inr rfl⟩

/-! ## The decoder (R209) -/

theorem decodeTwo_eq_some_iff (s : Syndromes) (e : Pattern) :
    decodeTwo s = some e ↔ ∃ d1 d2 y1 y2, (d1 < d2 ∧ d2 < 30) ∧ (y1 ≠ 0#5 ∧ y2 ≠ 0#5)
      ∧ e = [(d1, y1), (d2, y2)] ∧ s = pairSyndromes y1 (alphaPow d1) y2 (alphaPow d2) := by
  dsimp only [decodeTwo]
  rw [Option.ite_none_left_eq_some, Option.ite_none_left_eq_some]
  constructor
  · rintro ⟨hdet, -, h⟩
    split at h
    next d1 d2 hroots =>
      rw [Option.ite_none_left_eq_some] at h
      obtain ⟨hd, h⟩ := h
      obtain ⟨⟨hlt, h2⟩, hcoeff⟩ := (locatorRoots_eq_pair_iff _ _ _ _).mp hroots
      have hne : alphaPow d1 ≠ alphaPow d2 := fun heq => hlt.ne (alphaPow_inj (hlt.trans h2) h2 heq)
      obtain ⟨y1, y2, hy, rfl, hstart⟩ := (errorValues_eq_some_iff s hne e).mp h
      exact ⟨d1, d2, y1, y2, ⟨hlt, by omega⟩, hy, rfl,
        (eq_pairSyndromes_iff s _ _ _ _).mpr ⟨hstart, (s.recurs_iff hdet _ _).mpr hcoeff⟩⟩
    · cases h
  · rintro ⟨d1, d2, y1, y2, ⟨hlt, h2⟩, hy, rfl, rfl⟩
    have hne : alphaPow d1 ≠ alphaPow d2 := fun heq => hlt.ne (alphaPow_inj (by omega) (by omega) heq)
    obtain ⟨hstart, hrecurs⟩ := (eq_pairSyndromes_iff _ y1 (alphaPow d1) y2 (alphaPow d2)).mp rfl
    have hdet := det_pairSyndromes_ne_zero hy hne
    obtain ⟨hl1, hl2⟩ := (Syndromes.recurs_iff _ hdet _ _).mp hrecurs
    have hroots := (locatorRoots_eq_pair_iff _ _ d1 d2).mpr ⟨⟨hlt, by omega⟩, hl1, hl2⟩
    refine ⟨hdet, ?_, ?_⟩
    · rw [← Syndromes.det, hl2]
      simp [gfMul_eq_zero_iff, alphaPow_ne_zero]
    · rw [← Syndromes.det, hroots]
      exact (if_neg (by omega)).trans ((errorValues_eq_some_iff _ hne _).mpr ⟨y1, y2, hy, rfl, hstart⟩)

/-- One error: four syndromes in geometric progression. -/
theorem eq_singleSyndromes_iff (s : Syndromes) (y x : Sym) :
    s = pairSyndromes y x 0#5 0#5
      ↔ s.s0 = y ∧ s.s1 = gfMul x y ∧ s.s2 = gfMul s.s1 x ∧ s.s3 = gfMul s.s2 x := by
  constructor
  · rintro rfl
    simp [pairSyndromes, gfMul_comm, gfMul_left_comm]
  · rintro ⟨h0, h1, h2, h3⟩
    calc s = ⟨s.s0, s.s1, s.s2, s.s3⟩ := rfl
      _ = pairSyndromes y x 0#5 0#5 := by
        rw [h3, h2, h1, h0]
        simp [pairSyndromes, gfMul_comm, gfMul_left_comm]

/-- The outcome of the test for one error at a degree: degree 30 is the shortened position. -/
def singleOutcome (d : Nat) (y : Sym) : Option Pattern := if d < 30 then some [(d, y)] else none

theorem decodeOne_eq_some_iff (s : Syndromes) (r : Option Pattern) :
    decodeOne s = some r
      ↔ ∃ d y, d < 31 ∧ y ≠ 0#5 ∧ r = singleOutcome d y ∧ s = pairSyndromes y (alphaPow d) 0#5 0#5 := by
  simp only [eq_singleSyndromes_iff]
  dsimp only [decodeOne]
  rw [← apply_ite some, Option.ite_none_right_eq_some, Option.some.injEq]
  constructor
  · rintro ⟨⟨h0, hx, h2, h3⟩, rfl⟩
    obtain hx0 | ⟨d, hd, hxd⟩ := eq_zero_or_alphaPow (gfDiv s.s1 s.s0)
    · exact absurd hx0 hx
    rw [hxd] at h2 h3 ⊢
    rw [gfLog_alphaPow hd]
    exact ⟨d, s.s0, hd, h0, rfl, rfl, (gfDiv_eq_iff h0 _ _).mp hxd, h2, h3⟩
  · rintro ⟨d, y, hd, hy, rfl, rfl, h1, h2, h3⟩
    have hxd : gfDiv s.s1 s.s0 = alphaPow d := (gfDiv_eq_iff hy _ _).mpr h1
    rw [hxd, gfLog_alphaPow hd]
    exact ⟨⟨hy, alphaPow_ne_zero d, h2, h3⟩, rfl⟩

theorem decodeOne_eq_none_of_det_ne_zero {s : Syndromes} (hdet : s.det ≠ 0#5) : decodeOne s = none := by
  by_contra hone
  obtain ⟨r, hr⟩ := Option.ne_none_iff_exists'.mp hone
  obtain ⟨d, y, -, -, -, rfl⟩ := (decodeOne_eq_some_iff s r).mp hr
  exact hdet (by rw [det_pairSyndromes, gfMul_zero, zero_gfMul])

theorem rsDecode_of_ne_zero {s : Syndromes} (h : s ≠ ⟨0#5, 0#5, 0#5, 0#5⟩) :
    rsDecode s = (decodeOne s).getD (decodeTwo s) := by
  have hne : ¬(s.s0 = 0#5 ∧ s.s1 = 0#5 ∧ s.s2 = 0#5 ∧ s.s3 = 0#5) := fun h0 =>
    h ((Syndromes.mk.injEq ..).mpr h0)
  rw [rsDecode, if_neg hne]
  cases decodeOne s <;> rfl

theorem decodable_of_rsDecode {s : Syndromes} {e : Pattern} (h : rsDecode s = some e) :
    Pattern.Decodable e ∧ Pattern.syndromes e = s := by
  by_cases hs : s = ⟨0#5, 0#5, 0#5, 0#5⟩
  · subst hs
    obtain rfl : [] = e := Option.some.inj h
    exact ⟨decodable_nil, rfl⟩
  rw [rsDecode_of_ne_zero hs] at h
  cases hone : decodeOne s with
  | none =>
    rw [hone] at h
    obtain ⟨d1, d2, y1, y2, hd, hy, rfl, rfl⟩ := (decodeTwo_eq_some_iff s e).mp h
    exact ⟨(decodable_pair_iff ..).mpr ⟨hd, hy⟩, syndromes_pair d1 d2 y1 y2⟩
  | some r =>
    obtain ⟨d, y, -, hy, hr, rfl⟩ := (decodeOne_eq_some_iff s r).mp hone
    rw [hone, Option.getD_some, hr, singleOutcome, Option.ite_none_right_eq_some] at h
    obtain ⟨hd, h⟩ := h
    obtain rfl := Option.some.inj h
    exact ⟨(decodable_single_iff ..).mpr ⟨hd, hy⟩, syndromes_single d y⟩

theorem rsDecode_of_decodable {e : Pattern} (he : Pattern.Decodable e) : rsDecode (Pattern.syndromes e) = some e := by
  match e, he with
  | [], _ => rfl
  | [(d, y)], he =>
    obtain ⟨hd, hy⟩ := (decodable_single_iff d y).mp he
    have hone : decodeOne (Pattern.syndromes [(d, y)]) = some (some [(d, y)]) :=
      (decodeOne_eq_some_iff _ _).mpr ⟨d, y, by omega, hy, (if_pos hd).symm, syndromes_single d y⟩
    have hne : Pattern.syndromes [(d, y)] ≠ ⟨0#5, 0#5, 0#5, 0#5⟩ := fun h => by
      rw [h] at hone
      cases hone
    rw [rsDecode_of_ne_zero hne, hone, Option.getD_some]
  | [(d1, y1), (d2, y2)], he =>
    obtain ⟨hd, hy⟩ := (decodable_pair_iff ..).mp he
    have htwo : decodeTwo (Pattern.syndromes [(d1, y1), (d2, y2)]) = some [(d1, y1), (d2, y2)] :=
      (decodeTwo_eq_some_iff _ _).mpr ⟨d1, d2, y1, y2, hd, hy, rfl, syndromes_pair d1 d2 y1 y2⟩
    have hdet : (Pattern.syndromes [(d1, y1), (d2, y2)]).det ≠ 0#5 := by
      rw [syndromes_pair]
      exact det_pairSyndromes_ne_zero hy fun heq => hd.1.ne (alphaPow_inj (by omega) (by omega) heq)
    have hne : Pattern.syndromes [(d1, y1), (d2, y2)] ≠ ⟨0#5, 0#5, 0#5, 0#5⟩ := fun h => hdet (by rw [h]; rfl)
    rw [rsDecode_of_ne_zero hne, decodeOne_eq_none_of_det_ne_zero hdet, Option.getD_none, htwo]
  | _ :: _ :: _ :: _, he => exact absurd he.length_le (by simp)

/-- The decoder of R209 is the bounded-distance decoder of R208: it answers the pattern of at most 2 errors that has the
syndromes, and fails where there is none. -/
theorem rsDecode_eq_some_iff (s : Syndromes) (e : Pattern) :
    rsDecode s = some e ↔ Pattern.Decodable e ∧ Pattern.syndromes e = s :=
  ⟨decodable_of_rsDecode, fun ⟨he, hs⟩ => hs ▸ rsDecode_of_decodable he⟩

end Sys2Proof.Machine

/-!
PROOFS. CORRRS (spec/44_reed_solomon.md R207 to R212): the command decodes the pattern that explains the syndromes, and
leaves what R210 and R211 make of it.
-/

namespace Sys2Proof.Machine

/-! ## What CORRRS decodes (R207, R208) -/

theorem State.syndrome_eq (s : State) (i : Nat) : s.syndrome i = syndromeAt s.parityDelta i :=
  xorSum_four_eq_syndromeAt s.parityDelta i

theorem explains_iff (e : Pattern) (s : State) :
    Explains e s ↔ Pattern.syndromes e = Machine.syndromes s.parityDelta := by
  simp only [Explains, State.syndrome_eq, Nat.forall_lt_succ_right, Nat.not_lt_zero, false_imp_iff, implies_true,
    true_and, and_assoc, Pattern.syndromes, Machine.syndromes, Syndromes.mk.injEq]

theorem State.pattern_eq_some_iff (s : State) (e : Pattern) :
    s.pattern = some e ↔ Pattern.Decodable e ∧ Explains e s := by
  rw [State.pattern, rsDecode_eq_some_iff, explains_iff]

/-! ## The order in which a pattern lists its errors -/

theorem syndrome_perm {e e' : Pattern} (h : e.Perm e') (i : Nat) : Pattern.syndrome e i = Pattern.syndrome e' i := by
  unfold Pattern.syndrome
  refine h.foldr_eq' (fun x _ y _ r => ?_) _
  exact xor_left_comm _ _ r

theorem at_perm {e e' : Pattern} (h : e.Perm e') (d : Nat) : Pattern.at e d = Pattern.at e' d := by
  induction h with
  | nil => rfl
  | cons x _ ih => rw [Pattern.at, ih, Pattern.at]
  | swap x y e => exact xor_left_comm _ _ _
  | trans _ _ ih ih' => exact ih.trans ih'

theorem valid_perm {e e' : Pattern} (h : e.Perm e') (hv : Pattern.Valid e) : Pattern.Valid e' :=
  ⟨(h.map _).nodup hv.1, fun x hx => hv.2 x (h.mem_iff.mpr hx)⟩

/-- A valid pattern of at most 2 errors is decodable once its degrees ascend. -/
theorem exists_decodable_perm {e : Pattern} (hv : Pattern.Valid e) (hlen : e.length ≤ 2) :
    ∃ e', e.Perm e' ∧ Pattern.Decodable e' := by
  have hperm : e.Perm (e.mergeSort fun x y => decide (x.1 ≤ y.1)) := (List.mergeSort_perm _ _).symm
  have hv' := valid_perm hperm hv
  have hle := List.pairwise_mergeSort (le := fun x y : Nat × Sym => decide (x.1 ≤ y.1))
    (fun _ _ _ h h' => decide_eq_true ((of_decide_eq_true h).trans (of_decide_eq_true h')))
    (fun x y => by simpa using Nat.le_total x.1 y.1) e
  have hne := List.pairwise_map.mp hv'.1
  have hlt := (hle.and hne).imp fun h => lt_of_le_of_ne (of_decide_eq_true h.1) h.2
  exact ⟨_, hperm, hv', hlt, hperm.length_eq ▸ hlen⟩

/-! ## The outcomes without a correction (R212) -/

/-- In the Reed–Solomon build over written operands CORRRS completes with what it decoded and changes nothing else. -/
theorem exec_corrrs {s : State} {r : Option Pattern} (hp : s.pattern = r) (hrs : s.params.otherVariant = .rs)
    (hw : s.Written (dataNames 16 ++ rparNames ++ tparNames)) :
    exec .corrrs s = .next (s.apply (patternOutput s r))
      ∧ Frame s (s.apply (patternOutput s r)) (patternWrites r) := by
  subst hp
  exact ⟨exec_of_written .corrrs s (wf_of_rs hrs (by decide)) hw, frame_commandOutput s .corrrs⟩

/-- Settles O57: equal parities have no syndrome, which the empty pattern explains. -/
theorem corrrsClean : Obligations.CorrrsClean := by
  intro s hrs hw heq
  have hexplains : Explains [] s := fun i _ => by simp [Pattern.syndrome, State.syndrome, xorSum, heq]
  obtain ⟨hexec, hframe⟩ := exec_corrrs ((s.pattern_eq_some_iff []).mpr ⟨decodable_nil, hexplains⟩) hrs hw
  exact ⟨_, hexec, rfl, hframe⟩

/-- Settles O59: what the decoder answers is a pattern that explains the syndromes, so here it answers none. -/
theorem corrrsUncorrectable : Obligations.CorrrsUncorrectable := by
  rintro s hrs hw ⟨i, hi, hne⟩ hnone
  have hp : s.pattern = none := by
    refine Option.eq_none_iff_forall_ne_some.mpr fun e he => ?_
    obtain ⟨hd, hexplains⟩ := (s.pattern_eq_some_iff e).mp he
    obtain hlen | hlen : e.length = 0 ∨ e.length = 1 ∨ e.length = 2 := by
      have := hd.length_le
      omega
    · obtain rfl := List.length_eq_zero_iff.mp hlen
      exact hne (hexplains i hi).symm
    · exact hnone e hd.valid hlen hexplains
  obtain ⟨hexec, hframe⟩ := exec_corrrs hp hrs hw
  exact ⟨_, hexec, rfl, hframe⟩

/-! ## The corrections (R210, R211) -/

theorem at_of_not_mem {e : Pattern} {d : Nat} (h : d ∉ e.map Prod.fst) : Pattern.at e d = 0#5 := by
  induction e with
  | nil => rfl
  | cons x e ih =>
    obtain ⟨hx, he⟩ := not_or.mp (mt List.mem_cons.mpr h)
    rw [Pattern.at, ih he, if_neg (Ne.symm hx), BitVec.xor_zero]

theorem at_of_mem {e : Pattern} (hnd : (e.map Prod.fst).Nodup) {d : Nat} {v : Sym} (h : (d, v) ∈ e) :
    Pattern.at e d = v := by
  induction e with
  | nil => cases h
  | cons x e ih =>
    obtain ⟨hx, hnd⟩ := List.nodup_cons.mp hnd
    rcases List.mem_cons.mp h with rfl | h
    · rw [Pattern.at, if_pos rfl, at_of_not_mem hx, BitVec.xor_zero]
    · have hne : x.1 ≠ d := fun heq => hx (heq ▸ List.mem_map_of_mem h)
      rw [Pattern.at, if_neg hne, ih hnd h, BitVec.zero_xor]

/-- Degree `3 − j` is the place of parity symbol `j` (R204). -/
theorem ofNat_degree {d : Nat} (hd : d < 4) (j : Fin 4) : Fin.ofNat 4 (3 - d) = j ↔ d = 3 - j := by
  rw [← Fin.val_inj, Fin.val_ofNat]
  omega

theorem rpar_not_mem_dataPart (e : Pattern) (j : Fin 4) :
    ElemName.rpar j ∉ if Pattern.hasData e then dataNames 16 else [] := by
  split <;> simp

/-- Each element is written once. -/
theorem patternWrites_nodup {e : Pattern} (hv : Pattern.Valid e) : (patternWrites (some e)).Nodup := by
  have hparity : ((e.filter (fun x => decide (x.1 < 4))).map
      (fun x => ElemName.rpar (Fin.ofNat 4 (3 - x.1)))).Nodup := by
    refine List.Nodup.map_on (fun x hx y hy heq => ?_) ((List.Nodup.of_map _ hv.1).filter _)
    obtain ⟨hx, hx4⟩ := List.mem_filter.mp hx
    obtain ⟨hy, hy4⟩ := List.mem_filter.mp hy
    have hdegree : x.1 = y.1 := ((ofNat_degree (of_decide_eq_true hx4) _).mp (ElemName.rpar.inj heq)).trans
      ((ofNat_degree (of_decide_eq_true hy4) _).mp rfl).symm
    exact List.inj_on_of_nodup_map hv.1 hx hy hdegree
  have hdata : (if Pattern.hasData e then dataNames 16 else []).Nodup := by
    split
    · exact dataNames_nodup 16
    · exact List.nodup_nil
  refine hparity.append hdata fun f hf hf' => ?_
  obtain ⟨x, -, rfl⟩ := List.mem_map.mp hf
  exact rpar_not_mem_dataPart e _ hf'

theorem rpar_mem_patternWrites {e : Pattern} {j : Fin 4} (h : ElemName.rpar j ∈ patternWrites (some e)) :
    3 - j.val ∈ e.map Prod.fst := by
  rcases List.mem_append.mp h with h | h
  · obtain ⟨x, hx, heq⟩ := List.mem_map.mp h
    obtain ⟨hx, hx4⟩ := List.mem_filter.mp hx
    rw [← (ofNat_degree (of_decide_eq_true hx4) j).mp (ElemName.rpar.inj heq)]
    exact List.mem_map_of_mem hx
  · exact absurd h (rpar_not_mem_dataPart e j)

/-- What the writes of a nonempty pattern leave. -/
def State.corrrs (s : State) (e : Pattern) : State :=
  s.apply ⟨corrrsWrites s e,
    statusWord 0x6#4 (BitVec.ofNat 2 e.length) (Pattern.hasParity e) (Pattern.hasData e) .corrected⟩

theorem apply_patternOutput (s : State) {e : Pattern} (h : e ≠ []) :
    s.apply (patternOutput s (some e)) = s.corrrs e := by
  cases e with
  | nil => exact absurd rfl h
  | cons x rest => rfl

theorem dataByte_corrrs (s : State) {e : Pattern} (hv : Pattern.Valid e) (hdata : Pattern.hasData e = true) {i : Nat}
    (hi : i < 16) : (s.corrrs e).dataByte i = unpackSym s.params.packOrder (s.corrected e) i := by
  have hmem : (ElemName.data i, (unpackSym s.params.packOrder (s.corrected e) i).setWidth 32) ∈ corrrsWrites s e := by
    rw [corrrsWrites, if_pos hdata]
    exact List.mem_append_right _ (List.mem_map.mpr ⟨i, List.mem_range.mpr hi, rfl⟩)
  rw [State.dataByte, State.corrrs, State.get_apply_of_nodup (corrrsWrites_names s e ▸ patternWrites_nodup hv) hmem,
    ElemName.width]
  simp

theorem rparSym_corrrs (s : State) {e : Pattern} (hv : Pattern.Valid e) (j : Fin 4) :
    (s.corrrs e).rparSym j = s.rparSym j ^^^ Pattern.at e (3 - j) := by
  have hj : 3 - j.val < 4 := by omega
  by_cases hd : 3 - j.val ∈ e.map Prod.fst
  · obtain ⟨⟨d, v⟩, hx, rfl : d = 3 - j⟩ := List.mem_map.mp hd
    have hmem : (ElemName.rpar j, (s.rparSym j ^^^ v).setWidth 32) ∈ corrrsWrites s e :=
      List.mem_append_left _ (List.mem_map.mpr
        ⟨_, List.mem_filter.mpr ⟨hx, decide_eq_true hj⟩, by rw [(ofNat_degree hj j).mpr rfl]⟩)
    rw [State.rparSym, State.corrrs, State.get_apply_of_nodup (corrrsWrites_names s e ▸ patternWrites_nodup hv) hmem,
      ElemName.width, keepLow_setWidth, at_of_mem hv.1 hx]
    simp
  · have hnot : ElemName.rpar j ∉ (corrrsWrites s e).map Prod.fst := by
      rw [corrrsWrites_names]
      exact mt rpar_mem_patternWrites hd
    rw [State.rparSym, State.corrrs, State.apply, State.setStatus_get, State.get_putAll_of_not_mem s _ _ hnot,
      at_of_not_mem hd, BitVec.xor_zero]
    rfl

theorem patternWrites_perm {e e' : Pattern} (h : e.Perm e') :
    (patternWrites (some e)).Perm (patternWrites (some e')) := by
  rw [patternWrites, patternWrites, Pattern.hasData, Pattern.hasData, h.any_eq]
  exact ((h.filter _).map _).append_right _

theorem Frame.mono {s t : State} {es fs : List ElemName} (h : Frame s t es) (hsub : es ⊆ fs) : Frame s t fs :=
  { h with value := fun e he => h.value e (mt (@hsub e) he), flag := fun e he => h.flag e (mt (@hsub e) he) }

/-- Settles O58: the decoder answers the pattern, its degrees in ascending order. -/
theorem corrrsAppliesExplainingPattern : Obligations.CorrrsAppliesExplainingPattern := by
  intro s e hrs hw hv hlen hexplains
  obtain ⟨e', hperm, hd⟩ := exists_decodable_perm hv (by omega)
  have hp : s.pattern = some e' :=
    (s.pattern_eq_some_iff e').mpr ⟨hd, fun i hi => (syndrome_perm hperm i).symm.trans (hexplains i hi)⟩
  obtain ⟨hexec, hframe⟩ := exec_corrrs hp hrs hw
  have hne : e' ≠ [] := fun h => by
    obtain rfl := (h ▸ hperm).eq_nil
    simp at hlen
  rw [apply_patternOutput s hne] at hexec hframe
  have hparity : Pattern.hasParity e' = Pattern.hasParity e := hperm.symm.any_eq
  have hdata : Pattern.hasData e' = Pattern.hasData e := hperm.symm.any_eq
  refine ⟨_, hexec, fun j => ?_, fun h i hi => ?_, ?_, hframe.mono (patternWrites_perm hperm).symm.subset⟩
  · rw [rparSym_corrrs s hd.valid, at_perm hperm]
  · rw [dataByte_corrrs s hd.valid (hdata.trans h) hi]
    have hcorrected : s.corrected e' = fun k => s.packed k ^^^ Pattern.at e (29 - k) := by
      funext k
      rw [State.corrected, at_perm hperm]
    rw [hcorrected]
  · rw [State.corrrs, State.apply, State.setStatus_status, hparity, hdata, hperm.length_eq]

end Sys2Proof.Machine


/-!
PROOFS. What ends a command, and the step with nothing to do (spec/60_exceptions.md R240, R241, R245, R256, R272, R273).
-/

namespace Sys2Proof.Machine

/-- Settles O27: a command the build does not admit answers the refusal's state (R243); an admitted one completes, or
faults on an unwritten element of `mayRead`. -/
theorem commandsStopOnlyOnUnwrittenReads : Obligations.CommandsStopOnlyOnUnwrittenReads := by
  intro i s
  cases hwf : i.wf s.params with
  | false => exact .inl ⟨_, exec_of_not_wf i s hwf⟩
  | true =>
    rw [exec_of_wf i s hwf]
    rcases commandBody_cases i s with hfault | ⟨-, ws, st, hc, -, -⟩
    · exact .inr ⟨rfl, hfault⟩
    · exact .inl ⟨_, hc.trans (complete_eq ws st s)⟩

/-- Settles O26: `step` with an empty host queue. -/
theorem idleCoreHoldsItsState : Obligations.IdleCoreHoldsItsState := step_of_host_nil

end Sys2Proof.Machine


/-!
PROOFS. The column-parity ROM (spec/40_column_parity_rom.md R120, R122, R124): its contents, and that it is linear.
-/

namespace Sys2Proof.Machine

/-- Settles O32: the printed table, entry by entry. -/
theorem romContents : Obligations.RomContents := by
  unfold Obligations.RomContents
  decide

theorem and_xor_distrib {w : Nat} (a b m : BitVec w) : (a ^^^ b) &&& m = (a &&& m) ^^^ (b &&& m) := by
  apply BitVec.eq_of_getLsbD_eq
  intro k _
  simp only [BitVec.getLsbD_and, BitVec.getLsbD_xor, Bool.and_xor_distrib_right]

theorem par_xor (a b : Byte) : par (a ^^^ b) = (par a ^^ par b) := by
  have : Std.Commutative Bool.xor := ⟨Bool.xor_comm⟩
  simp only [par, BitVec.getLsbD_xor]
  ac_rfl

/-- The ROM is linear: each of its bits is the parity of some bits of the index. -/
theorem colTab_xor (a b : Byte) : colTab (a ^^^ b) = colTab a ^^^ colTab b := by
  apply BitVec.eq_of_getLsbD_eq
  intro k hk
  simp only [colTab, and_xor_distrib, par_xor, BitVec.getLsbD_xor, BitVec.getLsbD_append, BitVec.getLsbD_ofBool]
  interval_cases k <;> simp

theorem colTab_not (b : Byte) : colTab (~~~b) = colTab b := by
  rw [← BitVec.xor_allOnes, colTab_xor]
  exact BitVec.xor_zero

/-- Settles O33. -/
theorem romIsLinear : Obligations.RomIsLinear := by
  intro a b
  have hbit1 : (colTab b).getLsbD 1 = false := by
    revert b
    decide
  have hneg : 255#8 - b = ~~~b := by bv_omega
  refine ⟨colTab_xor a b, colTab_getLsbD_zero b, hbit1, rfl, ?_, colTab_not b, ?_, rfl, fun hb => ?_⟩
  · exact (colTab_not b).trans BitVec.xor_zero.symm
  · rw [hneg, colTab_not]
  · have hadd : 0xF0#8 + b = 0xF0#8 ^^^ b := by
      revert b
      decide
    rw [hadd, colTab_xor]
    exact BitVec.zero_xor

end Sys2Proof.Machine


/-!
PROOFS. The laws of the fixed-block codec (spec/41_fixed_hamming.md R140, R142, R145, spec/70_reset_and_hazards.md
R283). A flipped data bit changes the accumulators by a value of its own (`acc_flipBit`), a changed accumulator changes
the check value by `Acc.delta` (`pack3_xor`), and CALC256 then CORR256 act on the difference alone
(`exec_calc256_corr256`).
-/

namespace Sys2Proof.Machine

/-! ## Two commands, one after the other (R42) -/

/-- A well-formed command that answers a next state found its inputs written and left its output. -/
theorem exec_next_of_wf {i : Instr} {s t : State} (hi : i.wf s.params = true) (h : exec i s = .next t) :
    s.Written (commandReads s i) ∧ t = s.apply (commandOutput s i) := by
  rw [exec_of_wf i s hi, commandBody_eq] at h
  obtain ⟨halways, h⟩ := guardReads_next _ _ _ _ h
  obtain ⟨hpath, h⟩ := guardReads_next _ _ _ _ h
  rw [commandReads_eq]
  exact ⟨fun e he => (List.mem_append.mp he).elim (halways e) (hpath e), (Host.Outcome.next.inj h).symm⟩

theorem Frame.trans {s t u : State} {es fs : List ElemName} (h : Frame s t es) (h' : Frame t u fs) :
    Frame s u (es ++ fs) where
  value e he := by
    obtain ⟨hes, hfs⟩ := not_or.mp (mt List.mem_append.mpr he)
    rw [h'.value e hfs, h.value e hes]
  flag e he := by
    obtain ⟨hes, hfs⟩ := not_or.mp (mt List.mem_append.mpr he)
    rw [h'.flag e hfs, h.flag e hes]
  params := h'.params.trans h.params
  cmd := h'.cmd.trans h.cmd
  host := h'.host.trans h.host
  resp := h'.resp.trans h.resp
  freeCount := h'.freeCount.trans h.freeCount

theorem Frame.dataByte {s t : State} {es : List ElemName} (h : Frame s t es) {i : Nat} (hi : ElemName.data i ∉ es) :
    t.dataByte i = s.dataByte i := by
  rw [State.dataByte, State.dataByte, h.value _ hi]

/-- A frame keeps what is written. -/
theorem Frame.written {s t : State} {es fs : List ElemName} (h : Frame s t es) (hdisj : ∀ e ∈ fs, e ∉ es)
    (hw : s.Written fs) : t.Written fs := fun e he => (h.flag e (hdisj e he)).trans (hw e he)

theorem State.written_append {s : State} {es fs : List ElemName} :
    s.Written (es ++ fs) ↔ s.Written es ∧ s.Written fs := List.forall_mem_append

theorem map_range_congr {α : Type} {f g : Nat → α} {n : Nat} (h : ∀ i, i < n → f i = g i) :
    (List.range n).map f = (List.range n).map g := List.map_congr_left fun i hi => h i (List.mem_range.mp hi)

theorem forall_mem_dataNames {n : Nat} {p : ElemName → Prop} :
    (∀ e ∈ dataNames n, p e) ↔ ∀ i, i < n → p (.data i) := by
  simp only [mem_dataNames, forall_exists_index, and_imp, forall_comm (α := ElemName), forall_eq]

/-- The byte on the data path of a Hamming correct command is written with the region (R245). -/
theorem State.Written.verdictReads {s : State} {n : Nat} {v : Verdict} (hw : s.Written (dataNames n))
    (hv : ∀ byte bit, v = .dataBit byte bit → byte < n) : s.Written (verdictReads v) := by
  cases v with
  | dataBit byte bit => exact written_singleton.mpr (hw _ ((mem_dataNames n _).mpr ⟨byte, hv byte bit rfl, rfl⟩))
  | _ => exact written_nil s

/-! ## The accumulators of a changed region (R130, R160) -/

/-- The exclusive or of accumulators. -/
def Acc.xor {w : Nat} (r q : Acc w) : Acc w where
  col := r.col ^^^ q.col
  lp := r.lp ^^^ q.lp
  lpp := r.lpp ^^^ q.lpp

/-- The accumulators of the one set bit `k` of byte `j`. -/
def Acc.ofBit (w j k : Nat) : Acc w where
  col := colTab (1#8 <<< k)
  lp := BitVec.ofNat w j
  lpp := ~~~BitVec.ofNat w j

theorem Acc.xor_add {w : Nat} (r q : Acc w) (i : Nat) (b : Byte) : (r.xor q).add i b = (r.add i b).xor q := by
  simp only [Acc.add, Acc.xor, Acc.mk.injEq]
  refine ⟨by ac_rfl, ?_, ?_⟩ <;> split_ifs <;> ac_rfl

/-- One flipped bit of a byte makes an odd byte even and an even one odd. -/
theorem Acc.add_flip {w : Nat} (r : Acc w) (j k : Nat) (b : Byte) (hk : k < 8) :
    r.add j (b ^^^ (1#8 <<< k)) = (r.add j b).xor (Acc.ofBit w j k) := by
  have hodd : (colTab (1#8 <<< k)).getLsbD 0 = true := by interval_cases k <;> rfl
  simp only [Acc.add, Acc.xor, Acc.ofBit, colTab_xor, BitVec.getLsbD_xor, hodd, Acc.mk.injEq]
  refine ⟨(BitVec.xor_assoc ..).symm, ?_, ?_⟩ <;>
    cases (colTab b).getLsbD 0 <;> simp

theorem flipBit_self (d : Nat → Byte) (j k : Nat) : flipBit d j k j = d j ^^^ (1#8 <<< k) := if_pos rfl

theorem flipBit_of_ne (d : Nat → Byte) (k : Nat) {i j : Nat} (h : i ≠ j) : flipBit d j k i = d i := if_neg h

/-- A bit flipped twice is as before. -/
theorem flipBit_flipBit {d a : Nat → Byte} {i j k : Nat} (h : a i = flipBit d j k i) : flipBit a j k i = d i := by
  rcases eq_or_ne i j with rfl | hne
  · rw [flipBit_self, h, flipBit_self, xor_cancel_right]
  · rw [flipBit_of_ne a k hne, h, flipBit_of_ne d k hne]

/-- Where only byte `j` of DATA may change and one of its bits is flipped, all of DATA is flipped there. -/
theorem Frame.dataByte_eq_flipBit {s t : State} {es : List ElemName} {j k : Nat} (h : Frame s t (es ++ [.data j]))
    (hes : ∀ i, ElemName.data i ∉ es) (hflip : t.dataByte j = s.dataByte j ^^^ (1#8 <<< k)) (i : Nat) :
    t.dataByte i = flipBit s.dataByte j k i := by
  rcases eq_or_ne i j with rfl | hne
  · rw [hflip, flipBit_self]
  · rw [flipBit_of_ne _ k hne, h.dataByte (by simp [hes, hne])]

theorem acc_flipBit (w n : Nat) (d : Nat → Byte) (j k : Nat) (hj : j < n) (hk : k < 8) :
    acc w ((List.range n).map (flipBit d j k)) = (acc w ((List.range n).map d)).xor (Acc.ofBit w j k) := by
  induction n with
  | zero => omega
  | succ n ih =>
    rw [acc_range_succ, acc_range_succ]
    rcases Nat.lt_succ_iff_lt_or_eq.mp hj with hlt | rfl
    · rw [ih hlt, flipBit_of_ne d k hlt.ne', Acc.xor_add]
    · have hbelow : (List.range j).map (flipBit d j k) = (List.range j).map d :=
        map_range_congr fun i hi => flipBit_of_ne d k hi.ne
      rw [hbelow, flipBit_self, Acc.add_flip _ _ _ _ hk]

/-! ## The delta of two check values (R131, R133) -/

/-- The exclusive or of check values: the deltas of R133. -/
def Ecc.xor (a b : Ecc) : Ecc where
  e0 := a.e0 ^^^ b.e0
  e1 := a.e1 ^^^ b.e1
  e2 := a.e2 ^^^ b.e2

theorem Ecc.byte_xor (a b : Ecc) (j : Nat) : (a.xor b).byte j = a.byte j ^^^ b.byte j := by
  rcases j with _ | _ | j <;> rfl

/-- What a difference of accumulators is in the check value, before any swap. -/
def Acc.delta (q : Acc 8) : Ecc where
  e0 := interleave q.lp q.lpp 0
  e1 := interleave q.lp q.lpp 4
  e2 := q.col &&& 0xFC#8

theorem interleave_xor (a a' b b' : BitVec 8) (k : Nat) :
    interleave (a ^^^ a') (b ^^^ b') k = interleave a b k ^^^ interleave a' b' k := by
  apply BitVec.eq_of_getLsbD_eq
  intro m hm
  rw [BitVec.getLsbD_xor]
  simp only [interleave_getLsbD _ _ _ m hm, BitVec.getLsbD_xor]
  split <;> rfl

/-- Inverting both sides does not change a difference. -/
theorem not_xor_not {w : Nat} (x y : BitVec w) : ~~~x ^^^ ~~~y = x ^^^ y := by
  apply BitVec.eq_of_getLsbD_eq
  intro k hk
  simp [hk]

theorem column_xor (x y : Byte) : (~~~x ||| 0x03#8) ^^^ (~~~(x ^^^ y) ||| 0x03#8) = y &&& 0xFC#8 := by
  apply BitVec.eq_of_getLsbD_eq
  intro k hk
  interval_cases k <;> simp

theorem pack3_xor (r q : Acc 8) (swap : Bool) :
    (pack3 r swap).xor (pack3 (r.xor q) swap) = q.delta.swapIf swap := by
  cases swap <;>
    simp [pack3, Ecc.swapIf, Ecc.xor, Acc.xor, Acc.delta, interleave_xor, not_xor_not, column_xor]

@[simp] theorem Ecc.swapIf_swapIf (d : Ecc) (swap : Bool) : (d.swapIf swap).swapIf swap = d := by
  cases swap <;> rfl

theorem Ecc.sig256_swapIf (d : Ecc) (swap : Bool) : sig256 (d.swapIf swap) = sig256 d := by
  cases swap
  · rfl
  · simp [sig256, Ecc.swapIf, Bool.and_comm]

theorem Ecc.bitOffset_swapIf (d : Ecc) (swap : Bool) : bitOffset (d.swapIf swap) = bitOffset d := by
  cases swap <;> rfl

theorem Ecc.weight_swapIf (d : Ecc) (swap : Bool) : (d.swapIf swap).weight = d.weight := by
  cases swap
  · rfl
  · simp [Ecc.weight, Ecc.swapIf, Nat.add_comm]

/-! ## CALC256, then CORR256 (R132, R139) -/

/-- What CALC256 leaves. -/
def State.calc256 (s : State) : State := s.apply (commandOutput s .calc256)

/-- The check value of the block that the state holds. -/
def State.ecc256 (s : State) : Ecc := Machine.ecc256 (s.dataBytes 256) s.params.swapCompat

/-- The check value depends on the block and on SWAP_COMPAT. -/
theorem ecc256_of_dataByte {s u : State} (h : ∀ i, i < 256 → u.dataByte i = s.dataByte i) :
    u.ecc256 = Machine.ecc256 (s.dataBytes 256) u.params.swapCompat :=
  congrArg (Machine.ecc256 · u.params.swapCompat) (map_range_congr h)

theorem teccByte_of_exec {s t : State} (h : exec .calc256 s = .next t) (j : Fin 3) :
    t.teccByte j = s.ecc256.byte j := by
  obtain ⟨-, rfl⟩ := exec_next_of_wf (i := .calc256) rfl h
  exact teccByte_calc256 s j

theorem frame_calc256 (s : State) : Frame s s.calc256 teccNames := frame_commandOutput s .calc256

theorem reccByte_calc256 (s : State) (j : Fin 3) : s.calc256.reccByte j = s.reccByte j := by
  rw [State.reccByte, State.reccByte, (frame_calc256 s).value _ (by simp [teccNames])]

/-- After CALC256 the deltas are the stored check value against that of the block. -/
theorem deltas256_calc256 (s : State) (d : Ecc) (h : ∀ j : Fin 3, s.reccByte j ^^^ s.ecc256.byte j = d.byte j) :
    s.calc256.deltas256 = d := by
  have hbyte (j : Fin 3) : s.calc256.reccByte j ^^^ s.calc256.teccByte j = d.byte j := by
    rw [reccByte_calc256, ← h j]
    exact congrArg _ (teccByte_calc256 s j)
  rw [State.deltas256, hbyte, hbyte, hbyte]
  rfl

/-- Over a written block and a written stored check value both commands complete, and what they leave follows from the
difference of the stored check value and the block's. -/
theorem exec_calc256_corr256 {u : State} {d : Ecc} {v : Verdict} (hw : u.Written (dataNames 256 ++ reccNames))
    (hd : ∀ j : Fin 3, u.reccByte j ^^^ u.ecc256.byte j = d.byte j) (hv : verdict256 u.params.swapCompat d = v) :
    exec .calc256 u = .next u.calc256 ∧ exec .corr256 u.calc256 = .next (u.calc256.corr256 v)
      ∧ Frame u (u.calc256.corr256 v) (teccNames ++ verdictWrites reccNames v) := by
  obtain ⟨hdata, hrecc⟩ := State.written_append.mp hw
  have hframe := frame_calc256 u
  have hverdict : u.calc256.verdict256 = v := by
    rw [State.verdict256, deltas256_calc256 u d hd, hframe.params, hv]
  have hchecks : u.calc256.Written (reccNames ++ teccNames) :=
    State.written_append.mpr ⟨hframe.written (by decide) hrecc, written_commandOutput u .calc256⟩
  have hblock : u.calc256.Written (dataNames 256) :=
    hframe.written (forall_mem_dataNames.mpr fun i _ => by simp [teccNames]) hdata
  have hpath := hblock.verdictReads fun byte bit heq => verdict256_byte_lt _ _ byte bit (hv.trans heq)
  obtain ⟨hexec, hframe', -⟩ := exec_corr256 _ v hverdict hchecks hpath
  exact ⟨exec_of_written .calc256 u rfl hdata, hexec, hframe.trans hframe'⟩

/-! ## One wrong data bit (R140) -/

/-- Line deltas that are complements differ in every pair, and the odd bits are the index. -/
theorem delta_ofBit (j k : Nat) (hk : k < 8) :
    sig256 (Acc.ofBit 8 j k).delta = true ∧ byteOffset (Acc.ofBit 8 j k).delta = BitVec.ofNat 8 j
      ∧ bitOffset (Acc.ofBit 8 j k).delta = BitVec.ofNat 3 k := by
  have hline (x : BitVec 8) : pairsDiffer (interleave x (~~~x) 0) 0x55#8 = true
      ∧ pairsDiffer (interleave x (~~~x) 4) 0x55#8 = true
      ∧ lpBits (interleave x (~~~x) 4) ++ lpBits (interleave x (~~~x) 0) = x := by
    revert x
    decide +kernel
  obtain ⟨h0, h1, hbyte⟩ := hline (BitVec.ofNat 8 j)
  have hcol : pairsDiffer (colTab (1#8 <<< k) &&& 0xFC#8) 0x54#8 = true := by
    interval_cases k <;> rfl
  refine ⟨?_, hbyte, ?_⟩
  · rw [sig256, Bool.and_eq_true, Bool.and_eq_true]
    exact ⟨⟨h0, h1⟩, hcol⟩
  · simp only [bitOffset, Acc.delta, Acc.ofBit]
    interval_cases k <;> rfl

theorem State.ecc256_eq (s : State) :
    s.ecc256 = pack3 (acc 8 ((List.range 256).map s.dataByte)) s.params.swapCompat := rfl

/-- The deltas of a block against a check value stored for other accumulators, by the same build. -/
theorem stored_xor_ecc256 {s t u : State} {q : Acc 8} (hst : exec .calc256 s = .next t) (hp : u.params = s.params)
    (hrecc : ∀ i, u.reccByte i = t.teccByte i)
    (hacc : acc 8 ((List.range 256).map u.dataByte) = (acc 8 ((List.range 256).map s.dataByte)).xor q) (j : Fin 3) :
    u.reccByte j ^^^ u.ecc256.byte j = (q.delta.swapIf u.params.swapCompat).byte j := by
  rw [hrecc, teccByte_of_exec hst, ← Ecc.byte_xor, s.ecc256_eq, u.ecc256_eq, hacc, hp, pack3_xor]

/-- Settles O39: the deltas of a flipped bit are its signature. -/
theorem singleDataBitErrorRepaired256 : Obligations.SingleDataBitErrorRepaired256 := by
  intro s t u j k hst hp hw hrecc hj hk hflip
  obtain ⟨hsig, hbyte, hbit⟩ := delta_ofBit j k hk
  have hd := stored_xor_ecc256 hst hp hrecc
    ((congrArg (acc 8) (map_range_congr hflip)).trans (acc_flipBit 8 256 s.dataByte j k hj hk))
  have hv : verdict256 u.params.swapCompat ((Acc.ofBit 8 j k).delta.swapIf u.params.swapCompat)
      = .dataBit j (BitVec.ofNat 3 k) := by
    rw [verdict256_of_sig256 ((Ecc.sig256_swapIf _ _).trans hsig), Ecc.swapIf_swapIf, hbyte, BitVec.toNat_ofNat,
      Nat.mod_eq_of_lt hj, Ecc.bitOffset_swapIf, hbit]
  obtain ⟨hcalc, hcorr, hframe⟩ := exec_calc256_corr256 hw hd hv
  have hback : (u.calc256.corr256 (.dataBit j (BitVec.ofNat 3 k))).dataByte j = u.dataByte j ^^^ (1#8 <<< k) := by
    rw [dataByte_corr256, (frame_calc256 u).dataByte (by simp [teccNames]), BitVec.toNat_ofNat, Nat.mod_eq_of_lt hk]
  refine ⟨_, _, hcalc, hcorr, fun i hi => ?_, rfl, hframe⟩
  rw [hframe.dataByte_eq_flipBit (by simp [teccNames]) hback, flipBit_flipBit (hflip i hi)]

/-! ## One wrong bit of the stored check value (R140) -/

theorem popcount_bit (k : Nat) (hk : k < 8) : popcount (1#8 <<< k) = 1 := by
  interval_cases k <;> decide

/-- The check value with only bit `k` of byte `j` set. -/
def Ecc.ofBit (j : Fin 3) (k : Nat) : Ecc where
  e0 := if 0 = j then 1#8 <<< k else 0#8
  e1 := if 1 = j then 1#8 <<< k else 0#8
  e2 := if 2 = j then 1#8 <<< k else 0#8

theorem Ecc.byte_ofBit (i j : Fin 3) (k : Nat) : (Ecc.ofBit j k).byte i = if i = j then 1#8 <<< k else 0#8 := by
  fin_cases i <;> rfl

theorem Ecc.weight_ofBit (j : Fin 3) (k : Nat) (hk : k < 8) : (Ecc.ofBit j k).weight = 1 := by
  fin_cases j <;> simp [Ecc.weight, Ecc.ofBit, popcount_bit k hk, popcount_zero]

/-- Settles O40: the deltas are the one wrong bit. -/
theorem singleCheckBitErrorRepaired256 : Obligations.SingleCheckBitErrorRepaired256 := by
  intro s t u j k hst hp hw hk hrecc hdata
  have hecc : u.ecc256 = s.ecc256 := by rw [ecc256_of_dataByte hdata, hp, State.ecc256]
  have hd (i : Fin 3) : u.reccByte i ^^^ u.ecc256.byte i = (Ecc.ofBit j k).byte i := by
    rw [hrecc, hecc, teccByte_of_exec hst, BitVec.xor_comm, Ecc.byte_ofBit]
    split
    · exact xor_cancel_left _ _
    · exact BitVec.xor_self
  obtain ⟨hcalc, hcorr, hframe⟩ := exec_calc256_corr256 hw hd (verdict256_of_weight_one (Ecc.weight_ofBit j k hk))
  refine ⟨_, _, hcalc, hcorr, fun i => ?_, rfl, hframe⟩
  rw [reccByte_corr256, teccByte_of_exec hcalc, hecc, teccByte_of_exec hst]

/-! ## Two wrong data bits (R142) -/

theorem ofNat_ne_ofNat {w j1 j2 : Nat} (h1 : j1 < 2 ^ w) (h2 : j2 < 2 ^ w) (hne : j1 ≠ j2) :
    BitVec.ofNat w j1 ≠ BitVec.ofNat w j2 := fun h =>
  hne (by simpa [Nat.mod_eq_of_lt, h1, h2] using congrArg BitVec.toNat h)

/-- Two wrong bits are no signature: where the bytes differ the line deltas are equal, and in one byte they are 0. -/
theorem delta_ofBit_xor_ofBit (j1 k1 j2 k2 : Nat) (hj1 : j1 < 256) (hk1 : k1 < 8) (hj2 : j2 < 256) (hk2 : k2 < 8)
    (hne : j1 ≠ j2 ∨ k1 ≠ k2) :
    ¬sig256 ((Acc.ofBit 8 j1 k1).xor (Acc.ofBit 8 j2 k2)).delta = true
      ∧ 2 ≤ ((Acc.ofBit 8 j1 k1).xor (Acc.ofBit 8 j2 k2)).delta.weight := by
  have hline (x : BitVec 8) : pairsDiffer (interleave x x 0) 0x55#8 = false
      ∧ (x ≠ 0#8 → 2 ≤ popcount (interleave x x 0) + popcount (interleave x x 4)) := by
    revert x
    decide +kernel
  have hcol : ∀ k1 k2 : Fin 8, k1 ≠ k2 →
      2 ≤ popcount ((colTab (1#8 <<< k1.val) ^^^ colTab (1#8 <<< k2.val)) &&& 0xFC#8) := by decide +kernel
  obtain ⟨hsame, hline⟩ := hline (BitVec.ofNat 8 j1 ^^^ BitVec.ofNat 8 j2)
  simp only [sig256, Ecc.weight, Acc.delta, Acc.xor, Acc.ofBit, not_xor_not]
  refine ⟨by simp [hsame], ?_⟩
  by_cases hj : j1 = j2
  · have := hcol ⟨k1, hk1⟩ ⟨k2, hk2⟩ (by simpa [hj] using hne)
    simp only at this
    omega
  · have := hline (xor_ne_zero (ofNat_ne_ofNat (w := 8) hj1 hj2 hj))
    omega

theorem Acc.xor_assoc {w : Nat} (r p q : Acc w) : (r.xor p).xor q = r.xor (p.xor q) := by
  simp only [Acc.xor, BitVec.xor_assoc]

theorem acc_flipBit_flipBit (w n : Nat) (d : Nat → Byte) {j1 k1 j2 k2 : Nat} (hj1 : j1 < n) (hk1 : k1 < 8)
    (hj2 : j2 < n) (hk2 : k2 < 8) :
    acc w ((List.range n).map (flipBit (flipBit d j1 k1) j2 k2))
      = (acc w ((List.range n).map d)).xor ((Acc.ofBit w j1 k1).xor (Acc.ofBit w j2 k2)) := by
  rw [acc_flipBit w n _ j2 k2 hj2 hk2, acc_flipBit w n _ j1 k1 hj1 hk1, Acc.xor_assoc]

/-- Settles O41: the deltas of two flipped bits are set in two places, and no signature. -/
theorem doubleDataBitErrorDetected256 : Obligations.DoubleDataBitErrorDetected256 := by
  intro s t u j1 k1 j2 k2 hst hp hw hrecc hj1 hk1 hj2 hk2 hne hflip
  obtain ⟨hsig, hweight⟩ := delta_ofBit_xor_ofBit j1 k1 j2 k2 hj1 hk1 hj2 hk2 hne
  have hd := stored_xor_ecc256 hst hp hrecc
    ((congrArg (acc 8) (map_range_congr hflip)).trans (acc_flipBit_flipBit 8 256 s.dataByte hj1 hk1 hj2 hk2))
  have hv := verdict256_of_not_sig256 (swap := u.params.swapCompat)
    ((Ecc.sig256_swapIf _ u.params.swapCompat).symm ▸ hsig) ((Ecc.weight_swapIf _ u.params.swapCompat).symm ▸ hweight)
  obtain ⟨hcalc, hcorr, hframe⟩ := exec_calc256_corr256 hw hd hv
  exact ⟨_, _, hcalc, hcorr, rfl, hframe⟩

/-! ## A check value stored under the other SWAP_COMPAT (R145) -/

theorem popcount_pos {w : Nat} {x : BitVec w} (h : x ≠ 0#w) : 0 < popcount x := by
  by_contra hzero
  refine h (BitVec.eq_of_getLsbD_eq fun k hk => ?_)
  have hnone := List.countP_eq_zero.mp (Nat.eq_zero_of_not_pos hzero) k (List.mem_range.mpr hk)
  simpa using hnone

/-- The other setting exchanges bytes 0 and 1 (R101). -/
theorem ecc256_not_swap (data : List Byte) (swap : Bool) :
    ecc256 data (!swap) = ⟨(ecc256 data swap).e1, (ecc256 data swap).e0, (ecc256 data swap).e2⟩ := by
  cases swap <;> rfl

/-- Two equal delta bytes and no third: clean where they are 0, and else two bits without a signature (R134, R138). -/
theorem verdict256_of_twin (swap : Bool) (x : Byte) :
    verdict256 swap ⟨x, x, 0#8⟩ = if x = 0#8 then .clean else .uncorrectable := by
  split
  next hzero => rw [hzero, verdict256_of_zero]
  next hne =>
    refine verdict256_of_not_sig256 (by simp [sig256, pairsDiffer]) ?_
    have hpos := popcount_pos hne
    calc 2 ≤ popcount x + popcount x + popcount 0#8 := by omega
      _ = _ := rfl

/-- Settles O42: the deltas are the exclusive or of bytes 0 and 1, twice, and 0. -/
theorem mixedSwapSettings256 : Obligations.MixedSwapSettings256 := by
  intro s t u hst hswap hw hrecc hdata
  have hecc : u.ecc256 = ⟨s.ecc256.e1, s.ecc256.e0, s.ecc256.e2⟩ := by
    rw [ecc256_of_dataByte hdata, hswap, ecc256_not_swap, State.ecc256]
  have htecc := teccByte_of_exec hst
  have hd (j : Fin 3) : u.reccByte j ^^^ u.ecc256.byte j
      = (⟨s.ecc256.e0 ^^^ s.ecc256.e1, s.ecc256.e0 ^^^ s.ecc256.e1, 0#8⟩ : Ecc).byte j := by
    rw [hrecc, htecc, hecc]
    fin_cases j
    · rfl
    · exact BitVec.xor_comm _ _
    · exact BitVec.xor_self
  have heq : s.ecc256.e0 ^^^ s.ecc256.e1 = 0#8 ↔ t.teccByte 0 = t.teccByte 1 := by
    rw [BitVec.xor_eq_zero_iff, htecc, htecc]
    rfl
  have hv := verdict256_of_twin u.params.swapCompat (s.ecc256.e0 ^^^ s.ecc256.e1)
  simp only [heq] at hv
  split
  next heq =>
    obtain ⟨hcalc, hcorr, hframe⟩ := exec_calc256_corr256 hw hd (hv.trans (if_pos heq))
    exact ⟨_, _, hcalc, hcorr, hframe, rfl⟩
  next hne =>
    obtain ⟨hcalc, hcorr, hframe⟩ := exec_calc256_corr256 hw hd (hv.trans (if_neg hne))
    exact ⟨_, _, hcalc, hcorr, hframe, rfl⟩

/-! ## A second CORR256 (R283) -/

theorem get_data_eq (s : State) (i : Nat) : s.get (.data i) = (s.dataByte i).setWidth 32 := by
  simp [State.dataByte, State.get]

/-- A CORR256 that answers a next state found its inputs written and left its verdict's output. -/
theorem exec_corr256_next {s t : State} (h : exec .corr256 s = .next t) :
    s.Written (reccNames ++ teccNames) ∧ s.Written (verdictReads s.verdict256) ∧ t = s.corr256 s.verdict256 := by
  obtain ⟨hw, rfl⟩ := exec_next_of_wf (i := .corr256) rfl h
  obtain ⟨hchecks, hpath⟩ := State.written_append.mp hw
  exact ⟨hchecks, hpath, rfl⟩

/-- STATUS after CORR256, by what it found (R28, R134 to R138). -/
def corr256Status : Verdict → Word
  | .clean => 0x00002000#32
  | .dataBit _ _ => 0x00002005#32
  | .checkBit => 0x00002009#32
  | .uncorrectable => 0x00002003#32

theorem status_corr256 (s : State) (v : Verdict) : (s.corr256 v).status = corr256Status v := by
  cases v <;> rfl

/-- Only a data correction leaves its STATUS. -/
theorem dataBit_of_status_corr256 {s : State} {v : Verdict} (h : (s.corr256 v).status = 0x00002005#32) :
    ∃ byte bit, v = .dataBit byte bit := by
  rw [status_corr256] at h
  cases v with
  | dataBit byte bit => exact ⟨byte, bit, rfl⟩
  | _ => simp [corr256Status] at h

/-- A command that changes only DATA leaves the deltas stale (R283). -/
theorem Frame.verdict256 {s t : State} {byte : Nat} (h : Frame s t [.data byte]) : t.verdict256 = s.verdict256 := by
  have hagree (es : List ElemName) (hes : ∀ e ∈ es, e ∉ [ElemName.data byte]) : AgreeOn s t es :=
    ⟨h.params, fun e he => h.value e (hes e he)⟩
  exact AgreeOn.verdict256 (hagree reccNames (by simp [reccNames])) (hagree teccNames (by simp [teccNames]))

/-- Settles O43: the first CORR256 leaves the deltas, so the second decodes the same bit. -/
theorem repeatedCorrection256FlipsBack : Obligations.RepeatedCorrection256FlipsBack := by
  intro s t hst hstatus
  obtain ⟨hchecks, hpath, rfl⟩ := exec_corr256_next hst
  obtain ⟨byte, bit, hv⟩ := dataBit_of_status_corr256 hstatus
  rw [hv] at hpath ⊢
  obtain ⟨-, hframe, hwritten⟩ := exec_corr256 s _ hv hchecks hpath
  obtain ⟨hexec, hframe', -⟩ := exec_corr256 _ _ (hframe.verdict256.trans hv)
    (hframe.written (by simp [verdictWrites, reccNames, teccNames]) hchecks) hwritten
  refine ⟨_, hexec, rfl, fun e => ?_⟩
  by_cases he : e ∈ [ElemName.data byte]
  · obtain rfl := List.mem_singleton.mp he
    rw [get_data_eq, get_data_eq, dataByte_corr256, dataByte_corr256, xor_cancel_right]
  · rw [hframe'.value e he, hframe.value e he]

end Sys2Proof.Machine


/-!
PROOFS. The laws of the variable-length codec (spec/42_variable_hamming.md R169, R172, R173): as for the fixed block,
CALCN then CORRN act on the difference of two check values (`exec_calcn_corrn`); and LPP follows LP by the number of odd
bytes (`lineParityPrime_eq`).
-/

namespace Sys2Proof.Machine

/-! ## The delta of two check values (R162) -/

/-- The exclusive or of check values: the deltas of R162. -/
def NCheck.xor {w : Nat} (a b : NCheck w) : NCheck w where
  col := a.col ^^^ b.col
  lp := a.lp ^^^ b.lp
  lpp := a.lpp ^^^ b.lpp

/-- A field of a check value as it stands in its slot (R37). -/
def NCheck.field {w : Nat} (c : NCheck w) : VarField → Word
  | .col => c.col.setWidth 32
  | .lp => c.lp.setWidth 32
  | .lpp => c.lpp.setWidth 32

/-- What a difference of accumulators is in the check value. -/
def Acc.deltaN {w : Nat} (q : Acc w) : NCheck w where
  col := q.col.extractLsb' 2 6
  lp := q.lp
  lpp := q.lpp

theorem accN_xor {w : Nat} {d e : List Byte} {q : Acc w} (h : acc w e = (acc w d).xor q) :
    (accN w d).xor (accN w e) = q.deltaN := by
  simp [accN, h, NCheck.xor, Acc.xor, Acc.deltaN, BitVec.extractLsb'_xor]

theorem setWidth_xor_setWidth {w : Nat} (hw : w ≤ 32) (x y : BitVec w) :
    (x.setWidth 32 ^^^ y.setWidth 32).setWidth w = x ^^^ y := by
  rw [← BitVec.setWidth_xor, BitVec.setWidth_setWidth_of_le _ hw, BitVec.setWidth_eq]

/-- The verdict of CORRN over two check values of the build's width. -/
theorem verdictN_of_fields {s : State} {w n : Nat} (a b : NCheck w) (hw : s.params.w = w) (hle : w ≤ 32)
    (hroth : ∀ f, s.get (.roth f) = a.field f) (htoth : ∀ f, s.get (.toth f) = b.field f) :
    s.verdictN n = verdictN n (a.xor b) := by
  subst hw
  simp only [State.verdictN, State.deltasN, hroth, htoth, NCheck.field, NCheck.xor, setWidth_xor_setWidth hle,
    setWidth_xor_setWidth (by decide : 6 ≤ 32)]

/-! ## CALCN, then CORRN (R161, R166) -/

/-- What CALCN `n` leaves. -/
def State.calcn (s : State) (n : BitVec 16) : State := s.apply (commandOutput s (.calcn n))

theorem frame_calcn (s : State) (n : BitVec 16) : Frame s (s.calcn n) tothNames := frame_commandOutput s (.calcn n)

theorem get_toth_calcn (s : State) (n : BitVec 16) (f : VarField) :
    (s.calcn n).get (.toth f) = (s.accN n.toNat).field f := by
  obtain ⟨hcol, hlp, hlpp⟩ := toth_calcn s n
  cases f with
  | col => exact hcol
  | lp => exact hlp
  | lpp => exact hlpp

/-- Over a written region and a stored check value that CALCN made of another region in the same build, both commands
complete, and what they leave follows from the difference of the two regions' accumulators. -/
theorem exec_calcn_corrn {s t u : State} {n : BitVec 16} {q : Acc s.params.w} {v : Verdict}
    (hwf : s.params.wf = true) (hi : (Instr.calcn n).wf s.params = true) (hst : exec (.calcn n) s = .next t)
    (hp : u.params = s.params) (hw : u.Written (dataNames n.toNat ++ rothNames))
    (hroth : ∀ f, u.get (.roth f) = t.get (.toth f))
    (hacc : acc s.params.w (u.dataBytes n.toNat) = (acc s.params.w (s.dataBytes n.toNat)).xor q)
    (hv : verdictN n.toNat q.deltaN = v) :
    exec (.calcn n) u = .next (u.calcn n) ∧ exec (.corrn n) (u.calcn n) = .next ((u.calcn n).corrn n v)
      ∧ Frame u ((u.calcn n).corrn n v) (tothNames ++ verdictWrites rothNames v) := by
  obtain ⟨hdata, hrothw⟩ := State.written_append.mp hw
  obtain ⟨-, hle, -⟩ := (Params.wf_iff _).mp hwf
  obtain ⟨-, rfl⟩ := exec_next_of_wf hi hst
  have hframe := frame_calcn u n
  have hfield (f : VarField) : (u.calcn n).get (.toth f) = (accN s.params.w (u.dataBytes n.toNat)).field f := by
    rw [get_toth_calcn, State.accN, hp]
  have hstored (f : VarField) : (u.calcn n).get (.roth f) = (accN s.params.w (s.dataBytes n.toNat)).field f := by
    rw [hframe.value _ (by simp [tothNames]), hroth]
    exact get_toth_calcn s n f
  have hverdict : (u.calcn n).verdictN n.toNat = v := by
    rw [verdictN_of_fields _ _ (congrArg Params.w (hframe.params.trans hp)) hle hstored hfield, accN_xor hacc, hv]
  have hchecks : (u.calcn n).Written (rothNames ++ tothNames) :=
    State.written_append.mpr ⟨hframe.written (by decide) hrothw, written_commandOutput u (.calcn n)⟩
  have hregion : (u.calcn n).Written (dataNames n.toNat) :=
    hframe.written (forall_mem_dataNames.mpr fun i _ => by simp [tothNames]) hdata
  have hpath := hregion.verdictReads fun byte bit heq => verdictN_byte_lt _ _ byte bit (hv.trans heq)
  obtain ⟨hexec, hframe', -⟩ := exec_corrn _ n v hverdict (hframe.params ▸ hp ▸ hi) hchecks hpath
  exact ⟨exec_of_written (.calcn n) u (hp ▸ hi) hdata, hexec, hframe.trans hframe'⟩

/-- The indices of a legal region fit the width (R96). -/
theorem lt_two_pow_of_wf {p : Params} {n : BitVec 16} (hi : (Instr.calcn n).wf p = true) {j : Nat} (hj : j < n.toNat) :
    j < 2 ^ p.w := by
  simp only [Instr.wf, Instr.lenLegal, Bool.and_eq_true, decide_eq_true_eq, Nat.le_min] at hi
  exact hj.trans_le hi.2.2

/-! ## One wrong data bit (R169) -/

/-- The verdict of a flipped bit inside the region. -/
theorem verdictN_ofBit {w n : Nat} (j k : Nat) (hj : j < n) (hjw : j < 2 ^ w) (hk : k < 8) :
    verdictN n (Acc.ofBit w j k).deltaN = .dataBit j (BitVec.ofNat 3 k) := by
  have hcol : pairsDiffer ((colTab (1#8 <<< k)).extractLsb' 2 6) 0x15#6 = true
      ∧ bitOffsetN ((colTab (1#8 <<< k)).extractLsb' 2 6) = BitVec.ofNat 3 k := by
    interval_cases k <;> exact ⟨rfl, rfl⟩
  have hsig : sigN (Acc.ofBit w j k).deltaN = true := by simp [sigN, Acc.deltaN, Acc.ofBit, hcol]
  have hlp : (Acc.ofBit w j k).deltaN.lp.toNat = j := by simp [Acc.deltaN, Acc.ofBit, Nat.mod_eq_of_lt hjw]
  rw [verdictN_of_sigN hsig, hlp, if_neg (Nat.not_le.mpr hj)]
  exact congrArg _ hcol.2

/-- Settles O49: the deltas of a flipped bit are its signature. -/
theorem singleDataBitErrorRepairedN : Obligations.SingleDataBitErrorRepairedN := by
  intro s t u n j k hwf hi hst hp hw hroth hj hk hflip
  obtain ⟨hcalc, hcorr, hframe⟩ := exec_calcn_corrn hwf hi hst hp hw hroth
    ((congrArg (acc _) (map_range_congr hflip)).trans (acc_flipBit _ _ s.dataByte j k hj hk))
    (verdictN_ofBit j k hj (lt_two_pow_of_wf hi hj) hk)
  have hback : ((u.calcn n).corrn n (.dataBit j (BitVec.ofNat 3 k))).dataByte j = u.dataByte j ^^^ (1#8 <<< k) := by
    rw [dataByte_corrn, (frame_calcn u n).dataByte (by simp [tothNames]), BitVec.toNat_ofNat, Nat.mod_eq_of_lt hk]
  refine ⟨_, _, hcalc, hcorr, fun i hi => ?_, status_corrn _ n _, hframe⟩
  rw [hframe.dataByte_eq_flipBit (by simp [tothNames]) hback, flipBit_flipBit (hflip i hi)]

/-! ## Two wrong data bits (R173) -/

theorem ne_not_self {w : Nat} (hw : 1 ≤ w) (x : BitVec w) : x ≠ ~~~x := by
  intro h
  have := congrArg (fun y => y.getLsbD 0) h
  have hw : 0 < w := hw
  simp [-BitVec.getLsbD_eq_getElem, hw] at this

/-- The line deltas of two wrong bits are equal, so no complements; where the bytes differ they are not 0, and in one
byte two column bits are set. -/
theorem verdictN_ofBit_xor_ofBit {w n : Nat} (hw : 1 ≤ w) {j1 k1 j2 k2 : Nat} (hj1 : j1 < 2 ^ w) (hk1 : k1 < 8)
    (hj2 : j2 < 2 ^ w) (hk2 : k2 < 8) (hne : j1 ≠ j2 ∨ k1 ≠ k2) :
    verdictN n ((Acc.ofBit w j1 k1).xor (Acc.ofBit w j2 k2)).deltaN = .uncorrectable := by
  have hcol : ∀ k1 k2 : Fin 8, k1 ≠ k2 →
      2 ≤ popcount ((colTab (1#8 <<< k1.val) ^^^ colTab (1#8 <<< k2.val)).extractLsb' 2 6) := by decide +kernel
  have hdelta : ((Acc.ofBit w j1 k1).xor (Acc.ofBit w j2 k2)).deltaN
      = ⟨(colTab (1#8 <<< k1) ^^^ colTab (1#8 <<< k2)).extractLsb' 2 6, BitVec.ofNat w j1 ^^^ BitVec.ofNat w j2,
        BitVec.ofNat w j1 ^^^ BitVec.ofNat w j2⟩ := by
    simp only [Acc.deltaN, Acc.xor, Acc.ofBit, not_xor_not]
  rw [hdelta]
  refine verdictN_of_not_sigN (by simp [sigN, ne_not_self hw]) ?_
  simp only [NCheck.weight]
  by_cases hj : j1 = j2
  · have := hcol ⟨k1, hk1⟩ ⟨k2, hk2⟩ (by simpa [hj] using hne)
    simp only at this
    omega
  · have := popcount_pos (xor_ne_zero (ofNat_ne_ofNat hj1 hj2 hj))
    omega

/-- Settles O50: the deltas of two flipped bits are set in two places, and no signature. -/
theorem doubleDataBitErrorDetectedN : Obligations.DoubleDataBitErrorDetectedN := by
  intro s t u n j1 k1 j2 k2 hwf hi hst hp hw hroth hj1 hk1 hj2 hk2 hne hflip
  obtain ⟨hpos, -⟩ := (Params.wf_iff _).mp hwf
  obtain ⟨hcalc, hcorr, hframe⟩ := exec_calcn_corrn hwf hi hst hp hw hroth
    ((congrArg (acc _) (map_range_congr hflip)).trans (acc_flipBit_flipBit _ _ s.dataByte hj1 hk1 hj2 hk2))
    (verdictN_ofBit_xor_ofBit hpos (lt_two_pow_of_wf hi hj1) hk1 (lt_two_pow_of_wf hi hj2) hk2 hne)
  exact ⟨_, _, hcalc, hcorr, status_corrn _ n _, hframe⟩

/-! ## LPP follows LP (R172) -/

theorem oddCount_succ (n : Nat) (d : Nat → Byte) :
    oddCount (n + 1) d = oddCount n d + if oddByte (d n) then 1 else 0 := by
  cases h : oddByte (d n) <;> simp [oddCount, List.range_succ, h]

theorem lineParity_succ (w n : Nat) (d : Nat → Byte) :
    lineParity w (n + 1) d = lineParity w n d ^^^ if oddByte (d n) then BitVec.ofNat w n else 0#w := rfl

theorem lineParityPrime_succ (w n : Nat) (d : Nat → Byte) :
    lineParityPrime w (n + 1) d = lineParityPrime w n d ^^^ if oddByte (d n) then ~~~BitVec.ofNat w n else 0#w := rfl

/-- Each odd byte puts one complement into LPP, so an odd number of them leaves all the bits inverted. -/
theorem lineParityPrime_eq (w n : Nat) (d : Nat → Byte) :
    lineParityPrime w n d = if oddCount n d % 2 = 1 then ~~~lineParity w n d else lineParity w n d := by
  induction n with
  | zero => rfl
  | succ n ih =>
    rw [oddCount_succ, lineParityPrime_succ, ih, lineParity_succ]
    cases oddByte (d n) with
    | false => simp
    | true =>
      rcases Nat.mod_two_eq_zero_or_one (oddCount n d) with h | h
      · simp [Nat.add_mod, h, BitVec.not_xor_right]
      · simp [Nat.add_mod, h, not_xor_not]

/-- Settles O51. -/
theorem lineParityPrimeFollowsLineParity : Obligations.LineParityPrimeFollowsLineParity := by
  intro s t n hwf hi hst
  obtain ⟨-, hle, -⟩ := (Params.wf_iff _).mp hwf
  obtain ⟨-, rfl⟩ := exec_next_of_wf hi hst
  obtain ⟨-, hlp, hlpp⟩ := toth_calcn s n
  rw [hlp, hlpp, State.accN_eq, lineParityPrime_eq]
  refine ⟨fun heven => by simp [heven], fun hodd => ?_⟩
  rw [if_pos hodd, BitVec.toNat_setWidth_of_le hle, BitVec.toNat_setWidth_of_le hle, ← eq_not_iff_toNat_add,
    BitVec.not_not]

end Sys2Proof.Machine


/-!
PROOFS. The round trips of symbol packing (spec/43_symbol_packing.md R194): both directions read one stream of bits.
-/

namespace Sys2Proof.Machine

/-! ## One stream, read as bytes and as symbols (R190, R191) -/

theorem packStream_byte (o : PackOrder) (d : Nat → Byte) {i j : Nat} (hi : i < 16) (hj : j < 8) :
    packStream o d (8 * i + bitPlace 8 j o) = (d i).getLsbD j := by
  cases o with
  | lsbFirst =>
    have hbyte : (8 * i + j) / 8 = i := by omega
    have hbit : (8 * i + j) % 8 = j := by omega
    simp only [packStream, bitPlace, hbyte, hbit, if_neg (by omega : ¬128 ≤ 8 * i + j)]
  | msbFirst =>
    have hbyte : (8 * i + (8 - 1 - j)) / 8 = i := by omega
    have hbit : 7 - (8 * i + (8 - 1 - j)) % 8 = j := by omega
    simp only [packStream, bitPlace, hbyte, hbit, if_neg (by omega : ¬128 ≤ 8 * i + (8 - 1 - j))]

theorem unpackStream_sym (o : PackOrder) (y : Nat → Sym) (k : Nat) {j : Nat} (hj : j < 5) :
    unpackStream o y (5 * k + bitPlace 5 j o) = (y k).getLsbD j := by
  cases o with
  | lsbFirst =>
    have hsym : (5 * k + j) / 5 = k := by omega
    have hbit : (5 * k + j) % 5 = j := by omega
    simp only [unpackStream, bitPlace, hsym, hbit]
  | msbFirst =>
    have hsym : (5 * k + (5 - 1 - j)) / 5 = k := by omega
    have hbit : 4 - (5 * k + (5 - 1 - j)) % 5 = j := by omega
    simp only [unpackStream, bitPlace, hsym, hbit]

theorem bitPlace_lt {w j : Nat} (hj : j < w) (o : PackOrder) : bitPlace w j o < w := by
  cases o <;> simp only [bitPlace] <;> omega

theorem bitPlace_bitPlace {w j : Nat} (hj : j < w) (o : PackOrder) : bitPlace w (bitPlace w j o) o = j := by
  cases o <;> simp only [bitPlace]
  omega

/-- The symbols of PACKSYM hold its stream. -/
theorem unpackStream_packSym (o : PackOrder) (d : Nat → Byte) (m : Nat) :
    unpackStream o (packSym o d) m = packStream o d m := by
  have hm : m % 5 < 5 := Nat.mod_lt _ (by decide)
  have hplace : 5 * (m / 5) + bitPlace 5 (bitPlace 5 (m % 5) o) o = m := by
    rw [bitPlace_bitPlace hm]
    omega
  calc unpackStream o (packSym o d) m = (packSym o d (m / 5)).getLsbD (bitPlace 5 (m % 5) o) := by
        conv_lhs => rw [← hplace]
        exact unpackStream_sym o _ _ (bitPlace_lt hm o)
    _ = packStream o d m := by rw [packSym_getLsbD _ _ _ (bitPlace_lt hm o), hplace]

/-- The bytes of UNPACKSYM hold its stream, up to the padding. -/
theorem packStream_unpackSym (o : PackOrder) (y : Nat → Sym) {m : Nat} (hm : m < 128) :
    packStream o (unpackSym o y) m = unpackStream o y m := by
  have hbit : m % 8 < 8 := Nat.mod_lt _ (by decide)
  have hplace : 8 * (m / 8) + bitPlace 8 (bitPlace 8 (m % 8) o) o = m := by
    rw [bitPlace_bitPlace hbit]
    omega
  calc packStream o (unpackSym o y) m = (unpackSym o y (m / 8)).getLsbD (bitPlace 8 (m % 8) o) := by
        conv_lhs => rw [← hplace]
        exact packStream_byte o _ (by omega) (bitPlace_lt hbit o)
    _ = unpackStream o y m := by rw [unpackSym_getLsbD _ _ _ (bitPlace_lt hbit o), hplace]

theorem packStream_padding (o : PackOrder) (d : Nat → Byte) {m : Nat} (hm : 128 ≤ m) : packStream o d m = false :=
  if_pos hm

/-- UNPACKSYM reads no symbol above the 26th. -/
theorem unpackSym_congr (o : PackOrder) {y z : Nat → Sym} (h : ∀ k, k < 26 → y k = z k) {i : Nat} (hi : i < 16) :
    unpackSym o y i = unpackSym o z i := by
  apply BitVec.eq_of_getLsbD_eq
  intro j hj
  have := bitPlace_lt hj o
  rw [unpackSym_getLsbD o y i hj, unpackSym_getLsbD o z i hj]
  cases o <;> simp only [unpackStream] <;> rw [h _ (by omega)]

theorem unpackSym_packSym (o : PackOrder) (d : Nat → Byte) {i : Nat} (hi : i < 16) :
    unpackSym o (packSym o d) i = d i := by
  apply BitVec.eq_of_getLsbD_eq
  intro j hj
  rw [unpackSym_getLsbD o _ i hj, unpackStream_packSym, packStream_byte o d hi hj]

theorem packSym_unpackSym (o : PackOrder) (y : Nat → Sym) {k : Nat} (hk : k < 25) :
    packSym o (unpackSym o y) k = y k := by
  apply BitVec.eq_of_getLsbD_eq
  intro j hj
  have := bitPlace_lt hj o
  rw [packSym_getLsbD o _ k hj, packStream_unpackSym o y (by omega), unpackStream_sym o y k hj]

/-- The bits of SYM[25] that the stream carries (R190). -/
def paddingMask : PackOrder → Sym
  | .lsbFirst => 0x07#5
  | .msbFirst => 0x1C#5

theorem paddingMask_getLsbD (o : PackOrder) {j : Nat} (hj : j < 5) :
    (paddingMask o).getLsbD j = decide (bitPlace 5 j o < 3) := by
  cases o <;> interval_cases j <;> rfl

/-- The last two stream bits of SYM[25] are padding, which PACKSYM clears. -/
theorem packSym_unpackSym_last (o : PackOrder) (y : Nat → Sym) :
    packSym o (unpackSym o y) 25 = y 25 &&& paddingMask o := by
  apply BitVec.eq_of_getLsbD_eq
  intro j hj
  rw [packSym_getLsbD o _ 25 hj, BitVec.getLsbD_and, paddingMask_getLsbD o hj]
  by_cases hplace : bitPlace 5 j o < 3
  · rw [packStream_unpackSym o y (by omega), unpackStream_sym o y 25 hj, decide_eq_true hplace, Bool.and_true]
  · rw [packStream_padding o _ (by omega), decide_eq_false hplace, Bool.and_false]

/-! ## The commands (R194) -/

theorem packSym_congr (o : PackOrder) {d d' : Nat → Byte} (h : ∀ i, i < 16 → d i = d' i) (k : Nat) :
    packSym o d k = packSym o d' k := by
  simp only [packSym, packStream_congr o d d' h]

/-- What PACK leaves. -/
def State.pack (s : State) : State := s.apply (commandOutput s .pack)

/-- What UNPACK leaves. -/
def State.unpack (s : State) : State := s.apply (commandOutput s .unpack)

theorem symAt_pack (s : State) {k : Nat} (hk : k < 26) : s.pack.symAt k = s.packed k := by
  rw [State.pack, commandOutput, symAt_apply_symWrites s _ _ k hk]

theorem dataByte_unpack (s : State) {i : Nat} (hi : i < 16) :
    s.unpack.dataByte i = unpackSym s.params.packOrder s.symAt i := by
  rw [State.unpack, commandOutput, dataByte_apply_dataWrites s 16 _ _ i hi]

theorem unpack_params (s : State) : s.unpack.params = s.params := (frame_commandOutput s .unpack).params

theorem packed_unpack (s : State) (k : Nat) :
    s.unpack.packed k = packSym s.params.packOrder (unpackSym s.params.packOrder s.symAt) k := by
  rw [State.packed, unpack_params]
  exact packSym_congr _ (fun i hi => dataByte_unpack s hi) k

/-- Settles O54: either command reads back the stream that the other wrote. -/
theorem packingRoundTrips : Obligations.PackingRoundTrips := by
  constructor
  · intro s t u hrs hst hp hw hsym
    obtain ⟨-, rfl⟩ := exec_next_of_wf (wf_of_rs hrs (by decide)) hst
    refine ⟨u.unpack, exec_of_written .unpack u (wf_of_rs (hp ▸ hrs) (by decide)) hw, fun i hi => ?_⟩
    have hpacked (k : Nat) (hk : k < 26) : u.symAt k = s.packed k := (hsym k hk).trans (symAt_pack s hk)
    rw [dataByte_unpack u hi, hp, unpackSym_congr _ hpacked hi]
    exact unpackSym_packSym _ _ hi
  · intro s t hrs hst
    obtain ⟨-, rfl⟩ := exec_next_of_wf (wf_of_rs hrs (by decide)) hst
    have hrs' : s.unpack.params.otherVariant = .rs := (congrArg Params.otherVariant (unpack_params s)).trans hrs
    refine ⟨s.unpack.pack, exec_of_written .pack _ (wf_of_rs hrs' (by decide)) (written_commandOutput s .unpack),
      fun k hk => ?_, ?_⟩
    · rw [symAt_pack _ (by omega), packed_unpack, packSym_unpackSym _ _ hk]
    · rw [symAt_pack _ (by decide), packed_unpack, packSym_unpackSym_last]
      cases s.params.packOrder <;> rfl

end Sys2Proof.Machine


/-!
PROOFS. The tables of GF(32) (spec/44_reed_solomon.md R200 to R203), and the repair of at most 2 wrong data symbols
(R213): the wrong symbols are an error pattern (`errorPattern`) that explains the syndromes.
-/

namespace Sys2Proof.Machine

/-! ## The tables of the field (R200 to R203) -/

theorem alphaPow_gfLog {v : Sym} (hv : v ≠ 0#5) : gfLog v < 31 ∧ alphaPow (gfLog v) = v := by
  obtain rfl | ⟨k, hk, rfl⟩ := eq_zero_or_alphaPow v
  · exact absurd rfl hv
  · rw [gfLog_alphaPow hk]
    exact ⟨hk, rfl⟩

theorem gfMul_eq_alphaPow (a b : Sym) :
    gfMul a b = if a = 0#5 ∨ b = 0#5 then 0#5 else alphaPow ((gfLog a + gfLog b) % 31) := by
  split
  next hzero => exact (gfMul_eq_zero_iff a b).mpr hzero
  next hne =>
    obtain ⟨ha, hb⟩ := not_or.mp hne
    rw [alphaPow_mod, ← gfMul_alphaPow, (alphaPow_gfLog ha).2, (alphaPow_gfLog hb).2]

/-- Settles O55. -/
theorem fieldTables : Obligations.FieldTables := by
  refine ⟨rfl, fun k => (gfMul_alphaPow k 1).symm, fun k => ?_, fun k => gfLog_alphaPow, fun v => alphaPow_gfLog,
    gfMul_eq_alphaPow, fun a ha => ⟨(alphaPow_mod _).symm, ?_⟩⟩
  · rw [← alphaPow_mod, Nat.add_mod_right, alphaPow_mod]
  · rw [gfMul_comm, gfInv_gfMul ha]

/-! ## The pattern of the wrong symbols (R208, R213) -/

/-- The error pattern of the differences `f 0 … f (n−1)` in the data symbols: symbol `k` has degree `29 − k` (R204). -/
def errorPattern (f : Nat → Sym) (n : Nat) : Pattern :=
  ((List.range n).filter (fun k => f k != 0#5)).map (fun k => (29 - k, f k))

theorem mem_errorPattern {f : Nat → Sym} {n : Nat} {x : Nat × Sym} :
    x ∈ errorPattern f n ↔ ∃ k, k < n ∧ f k ≠ 0#5 ∧ (29 - k, f k) = x := by
  simp [errorPattern, and_assoc]

theorem syndrome_append (e e' : Pattern) (i : Nat) :
    Pattern.syndrome (e ++ e') i = Pattern.syndrome e i ^^^ Pattern.syndrome e' i := by
  induction e with
  | nil => exact BitVec.zero_xor.symm
  | cons x e ih => exact (congrArg _ ih).trans (BitVec.xor_assoc ..).symm

theorem syndrome_errorPattern (f : Nat → Sym) (n i : Nat) :
    Pattern.syndrome (errorPattern f n) i = xorSum n (fun k => gfMul (f k) (alphaPow (i * (29 - k)))) := by
  induction n with
  | zero => rfl
  | succ n ih =>
    have hlast : Pattern.syndrome (([n].filter (fun k => f k != 0#5)).map (fun k => (29 - k, f k))) i
        = gfMul (f n) (alphaPow (i * (29 - n))) := by
      by_cases h : f n = 0#5 <;> simp [Pattern.syndrome, h]
    rw [errorPattern, List.range_succ, List.filter_append, List.map_append, syndrome_append, hlast, ← errorPattern, ih,
      xorSum]

theorem errorPattern_valid (f : Nat → Sym) : Pattern.Valid (errorPattern f 26) := by
  constructor
  · rw [errorPattern, List.map_map]
    refine List.Nodup.map_on (fun k hk l hl h => ?_) (List.nodup_range.filter _)
    have hk := List.mem_range.mp (List.mem_of_mem_filter hk)
    have hl := List.mem_range.mp (List.mem_of_mem_filter hl)
    simp only [Function.comp_apply] at h
    omega
  · intro x hx
    obtain ⟨k, hk, hne, rfl⟩ := mem_errorPattern.mp hx
    exact ⟨by simp only; omega, hne⟩

theorem at_errorPattern (f : Nat → Sym) {k : Nat} (hk : k < 26) : Pattern.at (errorPattern f 26) (29 - k) = f k := by
  by_cases h : f k = 0#5
  · rw [h]
    refine at_of_not_mem fun hmem => ?_
    obtain ⟨x, hx, hdegree⟩ := List.mem_map.mp hmem
    obtain ⟨l, hl, hne, rfl⟩ := mem_errorPattern.mp hx
    obtain rfl : l = k := by simp only at hdegree; omega
    exact hne h
  · exact at_of_mem (errorPattern_valid f).1 (mem_errorPattern.mpr ⟨k, hk, h, rfl⟩)

/-- Every degree of a wrong data symbol is 4 or more (R204). -/
theorem four_le_degree {f : Nat → Sym} {x : Nat × Sym} (hx : x ∈ errorPattern f 26) : 4 ≤ x.1 := by
  obtain ⟨k, hk, -, rfl⟩ := mem_errorPattern.mp hx
  simp only
  omega

theorem hasParity_errorPattern (f : Nat → Sym) : Pattern.hasParity (errorPattern f 26) = false :=
  List.any_eq_false.mpr fun x hx => by simpa using four_le_degree hx

theorem hasData_errorPattern {f : Nat → Sym} (h : errorPattern f 26 ≠ []) :
    Pattern.hasData (errorPattern f 26) = true := by
  obtain ⟨x, hx⟩ := List.exists_mem_of_ne_nil _ h
  exact List.any_eq_true.mpr ⟨x, hx, decide_eq_true (four_le_degree hx)⟩

theorem patternWrites_errorPattern (f : Nat → Sym) : patternWrites (some (errorPattern f 26)) ⊆ dataNames 16 := by
  have hnone : (errorPattern f 26).filter (fun x => decide (x.1 < 4)) = [] :=
    List.filter_eq_nil_iff.mpr fun x hx => by simpa using four_le_degree hx
  rw [patternWrites, hnone, List.map_nil, List.nil_append]
  split
  · exact List.Subset.refl _
  · exact List.nil_subset _

theorem length_errorPattern (y z : Nat → Sym) :
    (errorPattern (fun k => y k ^^^ z k) 26).length = symbolDistance y z := by
  have hdiffer (k : Nat) : (y k ^^^ z k != 0#5) = (y k != z k) := by
    rw [Bool.eq_iff_iff, bne_iff_ne, bne_iff_ne, Ne, BitVec.xor_eq_zero_iff]
  simp only [errorPattern, symbolDistance, List.length_map, hdiffer]

/-! ## The syndromes of two parities (R205, R207) -/

theorem xorSum_xor {w : Nat} (n : Nat) (f g : Nat → BitVec w) :
    xorSum n (fun k => f k ^^^ g k) = xorSum n f ^^^ xorSum n g := by
  induction n with
  | zero => exact BitVec.zero_xor.symm
  | succ n ih =>
    simp only [xorSum, ih]
    ac_rfl

theorem syndromeAt_xor (p q : Fin 4 → Sym) (i : Nat) :
    syndromeAt (fun j => p j ^^^ q j) i = syndromeAt p i ^^^ syndromeAt q i := by
  simp only [syndromeAt, xor_gfMul]
  ac_rfl

/-- The parities of two symbol arrays differ by the syndromes of the symbols in which they differ. -/
theorem syndromeAt_rsParity_xor (y z : Nat → Sym) {i : Nat} (hi : i < 4) :
    syndromeAt (fun j => (rsParity ((List.range 26).map y))[j] ^^^ (rsParity ((List.range 26).map z))[j]) i
      = Pattern.syndrome (errorPattern (fun k => y k ^^^ z k) 26) i :=
  calc _ = registerAt (rsParity ((List.range 26).map y)) i ^^^ registerAt (rsParity ((List.range 26).map z)) i :=
        syndromeAt_xor _ _ i
    _ = xorSum 26 (fun k => gfMul (y k ^^^ z k) (alphaPow (i * (29 - k)))) := by
        simp only [registerAt_rsParity 26 _ hi, xor_gfMul, xorSum_xor]
    _ = _ := (syndrome_errorPattern _ 26 i).symm

/-! ## CALCRS, then CORRRS (R206, R212) -/

/-- What CALCRS leaves. -/
def State.calcrs (s : State) : State := s.apply (commandOutput s .calcrs)

theorem frame_calcrs (s : State) : Frame s s.calcrs tparNames := frame_commandOutput s .calcrs

theorem packed_calcrs (s : State) : s.calcrs.packed = s.packed :=
  AgreeOn.packed ⟨(frame_calcrs s).params,
    forall_mem_dataNames.mpr fun i _ => (frame_calcrs s).value _ (by simp [tparNames])⟩

/-- The wrong symbols explain the syndromes of the stored parity. -/
theorem explains_errorPattern {s t u : State} (hst : exec .calcrs s = .next t) (hrs : s.params.otherVariant = .rs)
    (hrpar : ∀ j, u.rparSym j = t.tparSym j) :
    Explains (errorPattern (fun k => u.packed k ^^^ s.packed k) 26) u.calcrs := by
  obtain ⟨-, rfl⟩ := exec_next_of_wf (wf_of_rs hrs (by decide)) hst
  have hdelta : u.calcrs.parityDelta = fun j => (rsParity u.packedList)[j] ^^^ (rsParity s.packedList)[j] := by
    funext j
    have hkept : u.calcrs.rparSym j = u.rparSym j := by
      rw [State.rparSym, State.rparSym, (frame_calcrs u).value _ (by simp [tparNames])]
    rw [State.parityDelta, hkept, hrpar, tparSym_calcrs s j, BitVec.xor_comm]
    exact congrArg (· ^^^ _) (tparSym_calcrs u j)
  intro i hi
  rw [State.syndrome_eq, hdelta]
  exact (syndromeAt_rsParity_xor _ _ hi).symm

theorem eq_zero_of_errorPattern_nil {f : Nat → Sym} (h : errorPattern f 26 = []) {k : Nat} (hk : k < 26) :
    f k = 0#5 := by
  rw [← at_errorPattern f hk, h]
  rfl

/-- Where at most 2 wrong data symbols explain the syndromes, CORRRS takes their differences off and writes no parity
(R210, R211). -/
theorem exec_corrrs_errorPattern {s : State} {f : Nat → Sym} (hrs : s.params.otherVariant = .rs)
    (hw : s.Written (dataNames 16 ++ rparNames ++ tparNames)) (hexplains : Explains (errorPattern f 26) s)
    (hlen : (errorPattern f 26).length ≤ 2) :
    ∃ t, exec .corrrs s = .next t
      ∧ (∀ i, i < 16 → t.dataByte i = unpackSym s.params.packOrder (fun k => s.packed k ^^^ f k) i)
      ∧ t.status = (if (errorPattern f 26).length = 0 then 0x00006000#32
          else statusWord 0x6#4 (BitVec.ofNat 2 (errorPattern f 26).length) false true .corrected)
      ∧ Frame s t (dataNames 16) := by
  by_cases hnil : errorPattern f 26 = []
  · rw [hnil] at hexplains ⊢
    obtain ⟨hexec, hframe⟩ := exec_corrrs ((s.pattern_eq_some_iff []).mpr ⟨decodable_nil, hexplains⟩) hrs hw
    refine ⟨_, hexec, fun i hi => ?_, rfl, hframe.mono (List.nil_subset _)⟩
    have hsame (k : Nat) (hk : k < 26) : s.packed k ^^^ f k = s.packed k := by
      rw [eq_zero_of_errorPattern_nil hnil hk, BitVec.xor_zero]
    rw [hframe.dataByte (by simp [patternWrites, Pattern.hasData]), unpackSym_congr _ hsame hi]
    exact (unpackSym_packSym _ _ hi).symm
  · have hpos := List.length_pos_iff.mpr hnil
    obtain ⟨t, hexec, -, hdata, hstatus, hframe⟩ := corrrsAppliesExplainingPattern s (errorPattern f 26) hrs hw
      (errorPattern_valid f) (by omega) hexplains
    refine ⟨t, hexec, fun i hi => ?_, ?_, hframe.mono (patternWrites_errorPattern f)⟩
    · rw [hdata (hasData_errorPattern hnil) i hi]
      exact unpackSym_congr _ (fun k hk => congrArg _ (at_errorPattern f hk)) hi
    · rw [hstatus, hasParity_errorPattern, hasData_errorPattern hnil, if_neg hpos.ne']

/-- Settles O60: the pattern of the wrong symbols is the one that is decoded. -/
theorem twoSymbolErrorsRepaired : Obligations.TwoSymbolErrorsRepaired := by
  intro s t u hrs hst hp hw hrpar hdist
  obtain ⟨hdata, hrparw⟩ := State.written_append.mp hw
  have hrs' : u.params.otherVariant = .rs := (congrArg Params.otherVariant hp).trans hrs
  have hframe := frame_calcrs u
  have hchecks : u.calcrs.Written (dataNames 16 ++ rparNames ++ tparNames) :=
    State.written_append.mpr ⟨hframe.written (by decide) hw, written_commandOutput u .calcrs⟩
  rw [← length_errorPattern] at hdist ⊢
  obtain ⟨w, hexec, hbytes, hstatus, hframe'⟩ := exec_corrrs_errorPattern
    ((congrArg Params.otherVariant hframe.params).trans hrs') hchecks (explains_errorPattern hst hrs hrpar) hdist
  refine ⟨u.calcrs, w, exec_of_written .calcrs u (wf_of_rs hrs' (by decide)) hdata, hexec, fun i hi => ?_, hstatus,
    hframe.trans hframe'⟩
  rw [hbytes i hi, packed_calcrs, hframe.params, hp]
  simp only [xor_cancel_left]
  exact unpackSym_packSym _ _ hi

end Sys2Proof.Machine
